-- ==== Sys2Proof/Word.lean ====
section
/-!
DEFINITION. The word types of the receive engine (spec 00_scope.md R10, R16) and nothing more: the engine has bytes,
one 16-bit length and 32-bit times, counters and scaled values.
-/

namespace Sys2Proof

/-- A byte: 8 bits, bit 7 most significant (R10). -/
abbrev Byte := BitVec 8

/-- The declared payload length of a frame (R27, R101). -/
abbrev Half := BitVec 16

/-- A 32-bit register: a time operand (R16), a counter (R31, R34) or a scaled value (R35). -/
abbrev Word := BitVec 32

/-- A finite byte sequence (R12). -/
abbrev Bytes := List Byte

end Sys2Proof
end

