-- ==== Sys2Proof/Config.lean ====
section
/-!
DEFINITION. The implementation parameters of spec 00_scope.md R8, as the configuration record R7 asks for
("A model takes them as a configuration record"), their default values, and the constraints R8 and R9 put on them.
`TIME_UNIT` is left out: no rule uses it (R8).

The parameters that R8 types as integers without a lower bound are integers here too; what a negative one does is said where
the rules use it (log entries 16 and 17).
-/

namespace Sys2Proof

/-- The parameters of R8, in the order of its table. An unbounded Ledger capacity (`inf`) is `none`. -/
structure Config where
  /-- `N`: cells of the intake buffer. -/
  n : Nat
  /-- `MAX_FIELD`: bytes of a sentence field that are kept. -/
  maxField : Nat
  /-- `T_RX`: the inter-byte timeout. -/
  tRx : Word
  /-- `T_RESP`: the response timeout of the Idle sweep. -/
  tResp : Word
  /-- `ADDR_TABLE[0]`: the address of the position sentence. -/
  addrPos : Bytes
  /-- `ADDR_TABLE[1]`: the address of the fix-quality sentence. -/
  addrFixq : Bytes
  /-- `ADDR_TABLE[2]`: the address of the speed/heading sentence. -/
  addrSpdhdg : Bytes
  /-- `ADDR_TABLE[3]`: the address of the satellites-in-view sentence. -/
  addrSats : Bytes
  sync1 : Byte
  sync2 : Byte
  clsAck : Byte
  idAckAck : Byte
  idAckNak : Byte
  clsMon : Byte
  idMonVer : Byte
  clsCfg : Byte
  /-- `KNOWN_CLASSES`: the classes the dispatcher tolerates. -/
  knownClasses : List Byte
  verSwOff : Int
  verSwLen : Int
  verHwOff : Int
  verHwLen : Int
  /-- `PAYLOAD_CAP`: bytes of the inbound payload buffer. -/
  payloadCap : Nat
  /-- `TX_PAYLOAD_CAP`: the largest payload SEND accepts. -/
  txPayloadCap : Nat
  /-- `AWAIT_CAP`: entries of the response-awaited queue. -/
  awaitCap : Option Nat
  /-- `FAIL_CAP`: entries of the failure queue. -/
  failCap : Option Nat
  /-- `SV_CAP`: records of each satellite table. -/
  svCap : Nat
  kDeg : Int
  kMin : Int
  fLat : Int
  fNs : Int
  fLon : Int
  fEw : Int
  fNused : Int
  fAlt : Int
  fFixmode : Int
  fHdg : Int
  fSpd : Int
  fSvpos : Int
  fSvtot : Int
  fSv0 : Int
  svStride : Int
  svSnrOff : Int
  sufAlt : Bytes
  sufSpd : Bytes
  sufHdg : Bytes
deriving DecidableEq, Repr

/-- The default values of R8, which the vectors of 95_test_vectors.md use. -/
def Config.default : Config where
  n := 256
  maxField := 16
  tRx := 100
  tResp := 1000
  addrPos := [0x47, 0x50, 0x47, 0x47, 0x41]
  addrFixq := [0x47, 0x50, 0x47, 0x53, 0x41]
  addrSpdhdg := [0x47, 0x50, 0x56, 0x54, 0x47]
  addrSats := [0x47, 0x50, 0x47, 0x53, 0x56]
  sync1 := 0xB5
  sync2 := 0x62
  clsAck := 0x05
  idAckAck := 0x01
  idAckNak := 0x00
  clsMon := 0x0A
  idMonVer := 0x04
  clsCfg := 0x06
  knownClasses := [0x05, 0x0A, 0x06]
  verSwOff := 0
  verSwLen := 30
  verHwOff := 30
  verHwLen := 10
  payloadCap := 64
  txPayloadCap := 64
  awaitCap := some 8
  failCap := some 8
  svCap := 16
  kDeg := 11930464
  kMin := 198841
  fLat := 2
  fNs := 3
  fLon := 4
  fEw := 5
  fNused := 7
  fAlt := 9
  fFixmode := 2
  fHdg := 1
  fSpd := 7
  fSvpos := 2
  fSvtot := 3
  fSv0 := 4
  svStride := 4
  svSnrOff := 3
  sufAlt := [0x6D]
  sufSpd := [0x6B, 0x6D, 0x2F, 0x68]
  sufHdg := [0x64, 0x65, 0x67]

/-- The byte a version string takes from a position before the payload: a free value of the payload and the position, since
no rule states it (R246; R28 starts the payload at 0). DESIGN CHOICE, log entry 17. -/
opaque Config.byteBeforePayload : Bytes → Int → Byte

/-- The constraints of R8 and R9. No operation checks them: they are the duty of whoever configures the block
(R353), so they are premises of statements, never a branch of a meaning. -/
structure Config.Valid (c : Config) : Prop where
  n_two : 2 ≤ c.n
  maxField_five : 5 ≤ c.maxField
  sync1_not_marker : c.sync1 ≠ 0x24
  ack_ids_differ : c.idAckAck ≠ c.idAckNak
  addr_lengths : c.addrPos.length = 5 ∧ c.addrFixq.length = 5 ∧ c.addrSpdhdg.length = 5 ∧ c.addrSats.length = 5
  addr_distinct : [c.addrPos, c.addrFixq, c.addrSpdhdg, c.addrSats].Nodup
  knows_ack : c.clsAck ∈ c.knownClasses
  knows_mon : c.clsMon ∈ c.knownClasses
  payloadCap_16 : c.payloadCap ≤ 65535
  txPayloadCap_16 : c.txPayloadCap ≤ 65535
  awaitCap_pos : ∀ k ∈ c.awaitCap, 1 ≤ k
  failCap_pos : ∀ k ∈ c.failCap, 1 ≤ k
  svCap_four : 4 ≤ c.svCap

end Sys2Proof
end

