-- ==== Sys2Proof/Syntax.lean ====
section
/-!
DEFINITION. The instructions: one constructor for each row of spec/opcode_table.json, in the table's order. The engine
has four formats (30_encoding.md R90, R119): operation words on three ports (R110), the lead byte of a message (R91),
the verified sentence (R92, R95) and the verified frame (R100, R103).
-/

namespace Sys2Proof

/-- The three ports (R114): the byte source, the scheduler, and everything else. -/
inductive Port where
  | producer
  | consumer
  | host
deriving DecidableEq, Repr

/-- The instructions of the block. Operands stand in the order of the encoding. -/
inductive Instr where
  /-- R309. -/
  | nop
  /-- R131: the byte received. -/
  | push (b : Byte)
  /-- R150: the current time. -/
  | tick (now : Word)
  /-- R271: the declared length is the payload's (R111). -/
  | send (cls id : Byte) (expect accept : Bool) (now : Word) (payload : Bytes)
  /-- R281. -/
  | register (cls id : Byte) (ts : Word)
  /-- R282. -/
  | resolve (cls id : Byte)
  /-- R284. -/
  | sweep (now timeout : Word)
  /-- R285. -/
  | drainFailures
  /-- R286. -/
  | drainFailed (cls id : Byte)
  /-- R287. -/
  | queryAwaited (cls id : Byte)
  /-- R288. -/
  | queryFailed (cls id : Byte)
  /-- R301. -/
  | readFix
  /-- R302. -/
  | readSv
  /-- R303. -/
  | readFlags
  /-- R304: bits 3 to 0 of the operand byte; the others are ignored (R111). -/
  | clearFlags (mask : BitVec 4)
  /-- R307. -/
  | readStatus
  /-- R305. -/
  | readVersion
  /-- R308. -/
  | powerOff
  /-- R312. -/
  | reset
  /-- R310: a reserved opcode, or a defined one on the wrong port; the rest of the word is not interpreted. -/
  | reserved (port : Port) (opcode : Byte) (operands : Bytes)
  /-- R152, R91: `'$'` opens a sentence, at the TICK whose operand is `now`. -/
  | leadSentence (now : Word)
  /-- R152, R91: `SYNC1` opens a frame, at the TICK whose operand is `now`. -/
  | leadBinary (now : Word)
  /-- R152, R91: any other lead byte is discarded. -/
  | leadOther (b : Byte)
  /-- R202: a verified span, `'$'` to `CR` inclusive, whose address is `ADDR_TABLE[0]`. -/
  | gpgga (span : Bytes)
  /-- R210: the same for `ADDR_TABLE[1]`. -/
  | gpgsa (span : Bytes)
  /-- R212: the same for `ADDR_TABLE[2]`. -/
  | gpvtg (span : Bytes)
  /-- R214: the same for `ADDR_TABLE[3]`. -/
  | gpgsv (span : Bytes)
  /-- R201: a verified span with any other address. -/
  | sentenceOther (span : Bytes)
  /-- R244: a verified frame (`CLS_ACK`, `ID_ACK_ACK`). -/
  | ackAck (payload : Bytes)
  /-- R245: (`CLS_ACK`, `ID_ACK_NAK`). -/
  | ackNak (payload : Bytes)
  /-- R246: (`CLS_MON`, `ID_MON_VER`). -/
  | monVer (payload : Bytes)
  /-- R247: `CLS_ACK` with any other identifier. -/
  | ackOther (id : Byte) (payload : Bytes)
  /-- R247: `CLS_MON` with any other identifier. -/
  | monOther (id : Byte) (payload : Bytes)
  /-- R248: `CLS_CFG` or any other member of `KNOWN_CLASSES`. -/
  | cfgAny (cls id : Byte) (payload : Bytes)
  /-- R249: a class outside `KNOWN_CLASSES`. -/
  | classUnknown (cls id : Byte) (payload : Bytes)
deriving DecidableEq, Repr

/-- What the decoder must be told besides the bytes: the port an operation word arrives on (R114), the time of the
TICK that classifies a lead byte (R152), or only the format. -/
inductive Form where
  | op (port : Port)
  | lead (now : Word)
  | sentence
  | frame
deriving DecidableEq, Repr

/-- The form each instruction is read in. A discarded lead byte does not use the time: 0 stands for any. -/
def Instr.form : Instr → Form
  | .push _ => .op .producer
  | .tick _ => .op .consumer
  | .nop | .send .. | .register .. | .resolve .. | .sweep .. | .drainFailures | .drainFailed .. => .op .host
  | .queryAwaited .. | .queryFailed .. | .readFix | .readSv | .readFlags | .clearFlags _ => .op .host
  | .readStatus | .readVersion | .powerOff | .reset => .op .host
  | .reserved p _ _ => .op p
  | .leadSentence now | .leadBinary now => .lead now
  | .leadOther _ => .lead 0
  | .gpgga _ | .gpgsa _ | .gpvtg _ | .gpgsv _ | .sentenceOther _ => .sentence
  | .ackAck _ | .ackNak _ | .monVer _ | .ackOther .. | .monOther .. | .cfgAny .. | .classUnknown .. => .frame

end Sys2Proof
end

