-- ==== Sys2Proof/Machine/Operands.lean ====
section
/-!
DEFINITION. The operand forms of the block, as functions of bytes alone: character constants (00_scope.md R11),
little-endian operands (30_encoding.md R111), the sentence's structure, fields and numbers (42_sentence_decoder.md
R192 to R198, R204, R205) and the keys of frames (R104). Nothing here reads or writes State.
-/

namespace Sys2Proof.Machine

/-! ## Character constants (R11) -/

/-- `'$'`, the sentence-start marker. -/
def chDollar : Byte := 0x24
/-- `'*'`, the checksum-start marker. -/
def chStar : Byte := 0x2A
/-- `','`, the field separator. -/
def chComma : Byte := 0x2C
/-- `'-'`. -/
def chMinus : Byte := 0x2D
/-- `'.'`. -/
def chDot : Byte := 0x2E
/-- `'0'`. -/
def chZero : Byte := 0x30
/-- `'2'`. -/
def chTwo : Byte := 0x32
/-- `'3'`. -/
def chThree : Byte := 0x33
/-- `'A'`. -/
def chA : Byte := 0x41
/-- `'S'`. -/
def chS : Byte := 0x53
/-- `'W'`. -/
def chW : Byte := 0x57
/-- `CR`, carriage-return. -/
def chCR : Byte := 0x0D
/-- `LF`, line-feed. -/
def chLF : Byte := 0x0A

/-! ## Little-endian operands (R111, R64) -/

/-- The two bytes of a 16-bit operand, low byte first. -/
def le16 (v : Half) : Bytes := [v.setWidth 8, (v >>> 8).setWidth 8]

/-- The 16-bit operand of two bytes, low byte first: `lo + 256 * hi`. -/
def ofLe16 (lo hi : Byte) : Half := hi ++ lo

/-- The four bytes of a 32-bit operand, low byte first. -/
def le32 (v : Word) : Bytes := [v.setWidth 8, (v >>> 8).setWidth 8, (v >>> 16).setWidth 8, (v >>> 24).setWidth 8]

/-- The 32-bit operand of four bytes, low byte first. -/
def ofLe32 (b0 b1 b2 b3 : Byte) : Word := b3 ++ b2 ++ b1 ++ b0

/-- `expect`, `accept`: bit 0 of the operand byte; bits 7 to 1 are ignored (R111). -/
def boolOfByte (b : Byte) : Bool := b.getLsbD 0

/-- The byte an encoder writes for `expect`, `accept` (R111). -/
def byteOfBool (b : Bool) : Byte := if b then 0x01 else 0x00

/-- The `k` bytes of a number whose first byte is its most significant, as the opcode table writes matches (R119). -/
def bigEndian : Nat → Nat → Bytes
  | 0, _ => []
  | k + 1, w => BitVec.ofNat 8 (w / 256 ^ k) :: bigEndian k w

/-! ## Splitting byte sequences -/

/-- The bytes up to and including the first `CR`; all of them where there is none (R98, R154). -/
def throughCR : Bytes → Bytes
  | [] => []
  | b :: bs => if b = chCR then [b] else b :: throughCR bs

/-- What follows the first `CR`; nothing where there is none. -/
def afterCR : Bytes → Bytes
  | [] => []
  | b :: bs => if b = chCR then bs else afterCR bs

/-! ## Hexadecimal digits (R94) -/

/-- `hexval`: upper-case digits only; `none` is the rule's "undefined". -/
def hexval (b : Byte) : Option Nat :=
  if 0x30 ≤ b.toNat ∧ b.toNat ≤ 0x39 then some (b.toNat - 0x30)
  else if 0x41 ≤ b.toNat ∧ b.toNat ≤ 0x46 then some (b.toNat - 0x41 + 10)
  else none

/-- The upper-case digit of a value below 16. -/
def hexDigit (v : Nat) : Byte := if v < 10 then BitVec.ofNat 8 (0x30 + v) else BitVec.ofNat 8 (0x41 + (v - 10))

/-- `hex2`: the two digits of a byte, high digit first (R99, R64). -/
def hex2 (x : Byte) : Bytes := [hexDigit (x.toNat / 16), hexDigit (x.toNat % 16)]

/-! ## verify (R192) -/

/-- The exclusive-or of a byte sequence, from 0 (R94, decision D41). -/
def xorAll (bs : Bytes) : Byte := bs.foldl (· ^^^ ·) 0

/-- The bytes strictly between the marker and the first `'*'`. -/
def bodyOf (span : Bytes) : Bytes := (span.drop 1).takeWhile (· ≠ chStar)

/-- What stands from the first `'*'` on. -/
def trailerOf (span : Bytes) : Bytes := (span.drop 1).dropWhile (· ≠ chStar)

/-- `verify`: the marker first, then after the first `'*'` exactly two upper-case hex digits and the final `CR`, and
the digits equal to the exclusive-or of the bytes between (R192). Total on every byte sequence. -/
def verify (span : Bytes) : Bool :=
  if span.length < 5 ∨ span.head? ≠ some chDollar then false
  else
    match trailerOf span with
    | [_, h1, h2, e] =>
      match hexval h1, hexval h2 with
      | some v1, some v2 => e = chCR ∧ (xorAll (bodyOf span)).toNat = 16 * v1 + v2
      | _, _ => false
    | _ => false

/-! ## extract_field (R195) -/

/-- `isdelim(b) or isend(b)`: a comma separates fields, an asterisk or a `CR` ends the list of fields. -/
def stopsField (b : Byte) : Bool := b = chComma || b = chStar || b = chCR

/-- The rest of the span at the start of the field `k` places on; `none` where there is no such field. -/
def fieldStart : Nat → Bytes → Option Bytes
  | 0, s => some s
  | k + 1, s =>
    match s.dropWhile (fun b => !stopsField b) with
    | [] => none
    | b :: rest => if b = chComma then fieldStart k rest else none

/-- All bytes of field `k`, before the limit; a field that does not exist is empty (R93, R195). The walk of R195 takes no
step for a number below 0, as for 0 (DEDUCED, log entry 16). -/
def rawField (span : Bytes) (k : Int) : Bytes :=
  match fieldStart k.toNat (span.drop 1) with
  | none => []
  | some s => s.takeWhile (fun b => !stopsField b)

/-- `extract_field`, first component: the first `MAX_FIELD` bytes of field `k`. -/
def field (c : Config) (span : Bytes) (k : Int) : Bytes := (rawField span k).take c.maxField

/-- `extract_field`, second component: bytes of field `k` were dropped. -/
def fieldTruncated (c : Config) (span : Bytes) (k : Int) : Bool := c.maxField < (rawField span k).length

/-! ## Numbers and text (R197, R198, R204, R205) -/

/-- `isdigit`. -/
def isDigit (b : Byte) : Bool := 0x30 ≤ b.toNat && b.toNat ≤ 0x39

/-- The value of a sequence of decimal digits, most significant first. -/
def digitsValue (ds : Bytes) : Nat := ds.foldl (fun a b => a * 10 + (b.toNat - 0x30)) 0

/-- The fraction of a decimal field scaled to `p` implied digits: digits beyond `p` are dropped, missing ones are 0. -/
def fractionValue (p : Nat) : Bytes → Nat
  | [] => 0
  | b :: rest =>
    if b = chDot then digitsValue ((rest.takeWhile isDigit).take p) * 10 ^ (p - ((rest.takeWhile isDigit).take p).length)
    else 0

/-- The magnitude `parse_dec` reads from a field without a sign. -/
def unsignedValue (f : Bytes) (p : Nat) : Nat :=
  digitsValue (f.takeWhile isDigit) * 10 ^ p + fractionValue p (f.dropWhile isDigit)

/-- `parse_dec` (R197): whether a sign was read, and the magnitude. Total; parsing stops at the first byte that fits
nowhere. -/
def parseDec (f : Bytes) (p : Nat) (signed : Bool) : Bool × Nat :=
  match f with
  | [] => (false, 0)
  | b :: rest => if signed ∧ b = chMinus then (true, unsignedValue rest p) else (false, unsignedValue f p)

/-- `s32` of a value or of its negative (R10): the one final reduction of R204 and R206. -/
def s32 (neg : Bool) (v : Int) : Word := BitVec.ofInt 32 (if neg then -v else v)

/-- The decimal digits of `v` before those of `acc`, none for 0; `fuel` bounds the number of digits. -/
def decDigits : Nat → Nat → Bytes → Bytes
  | 0, _, acc => acc
  | fuel + 1, v, acc => if v = 0 then acc else decDigits fuel (v / 10) (BitVec.ofNat 8 (0x30 + v % 10) :: acc)

/-- `dec` (R198): decimal digits without leading zeros, `"0"` for 0. -/
def dec (v : Nat) : Bytes := if v = 0 then [chZero] else decDigits v v []

/-- `dec5` (R198): `dec` padded on the left with `'0'` to at least five bytes. -/
def dec5 (v : Nat) : Bytes := List.replicate (5 - (dec v).length) chZero ++ dec v

/-- `deg` of R204: the integer digits before the last two. -/
def coordDeg (f : Bytes) : Nat := (parseDec f 4 false).2 / 10000 / 100

/-- `m10k` of R204: minutes in units of 1/10000 minute. -/
def coordM10k (f : Bytes) : Nat :=
  ((parseDec f 4 false).2 / 10000 % 100) * 10000 + (parseDec f 4 false).2 % 10000

/-- `latlon`, first component (R204); `div` rounds toward zero (R10). -/
def latlonFx (c : Config) (f : Bytes) (negative : Bool) : Word :=
  s32 negative (coordDeg f * c.kDeg + (coordM10k f * c.kMin).tdiv 10000)

/-- `latlon`, second component (R205). -/
def latlonText (f : Bytes) (negative : Bool) : Bytes :=
  (if negative then [chMinus] else []) ++ dec (coordDeg f) ++ [chDot] ++ dec5 (coordM10k f / 6)

/-! ## What the bytes select (R110, R91, R95, R103) -/

/-- The port of a defined opcode (30_encoding.md R110, R114); `none` for a reserved one (R113). -/
def opcodePort (op : Byte) : Option Port :=
  match op.toNat with
  | 0x00 => some .host
  | 0x01 => some .producer
  | 0x02 => some .consumer
  | 0x10 => some .host
  | 0x11 => some .host
  | 0x12 => some .host
  | 0x13 => some .host
  | 0x14 => some .host
  | 0x15 => some .host
  | 0x16 => some .host
  | 0x17 => some .host
  | 0x20 => some .host
  | 0x21 => some .host
  | 0x22 => some .host
  | 0x23 => some .host
  | 0x24 => some .host
  | 0x25 => some .host
  | 0x30 => some .host
  | 0x3F => some .host
  | _ => none

/-- The class of a lead byte (R91). -/
inductive LeadClass where
  | sentence
  | binary
  | garbage
deriving DecidableEq, Repr

/-- R91, R152: the lead byte alone decides; `'$'` is tested first. -/
def leadClass (c : Config) (b : Byte) : LeadClass :=
  if b = chDollar then .sentence else if b = c.sync1 then .binary else .garbage

/-- The kind of a sentence, numbered as in R95, and the catch-all of R201. -/
inductive Kind where
  | pos
  | fixq
  | spdhdg
  | sats
  | other
deriving DecidableEq, Repr

/-- R200: the least index whose entry equals field 0. -/
def kindOf (c : Config) (span : Bytes) : Kind :=
  if field c span 0 = c.addrPos then .pos
  else if field c span 0 = c.addrFixq then .fixq
  else if field c span 0 = c.addrSpdhdg then .spdhdg
  else if field c span 0 = c.addrSats then .sats
  else .other

/-- The kind of a frame (R103). -/
inductive FrameKind where
  | ackAck
  | ackNak
  | monVer
  | ackOther
  | monOther
  | cfgAny
  | classUnknown
deriving DecidableEq, Repr

/-- R243: class first, then identifier. -/
def frameKind (c : Config) (cls id : Byte) : FrameKind :=
  if cls = c.clsAck then (if id = c.idAckAck then .ackAck else if id = c.idAckNak then .ackNak else .ackOther)
  else if cls = c.clsMon then (if id = c.idMonVer then .monVer else .monOther)
  else if cls ∈ c.knownClasses then .cfgAny
  else .classUnknown

/-- The payload byte at a position, 0 at and beyond its end (R246); a free value before its start. -/
def payloadByteAt (payload : Bytes) (pos : Int) : Byte :=
  if pos < 0 then Config.byteBeforePayload payload pos else payload.getD pos.toNat 0

/-- `len` bytes of the payload from `off` on (R246); none where `len` is below 1. -/
def substring (payload : Bytes) (off len : Int) : Bytes :=
  (List.range len.toNat).map (fun i : Nat => payloadByteAt payload (off + i))

end Sys2Proof.Machine
end

