-- ==== Sys2Proof/Machine/Flags.lean ====
section
/-!
DEFINITION. The flag and checksum computations: the new-data indicators (10_state.md R38), the fix-quality tag (R35,
R210), the fault bits (R32), the numbers of states, errors and reasons (R24, R321, R41), the running checksum of a frame
(43_binary_decoder.md R241, R242) and ages (00_scope.md R16).
-/

namespace Sys2Proof.Machine

/-! ## Indicators and tags -/

/-- Bit 0 of `new_flags` (R38). -/
def NEW_LOC : BitVec 4 := 0b0001
/-- Bit 1 of `new_flags` (R38). -/
def NEW_FIX : BitVec 4 := 0b0010
/-- Bit 2 of `new_flags` (R38). -/
def NEW_SPD : BitVec 4 := 0b0100
/-- Bit 3 of `new_flags` (R38). -/
def NEW_SAT : BitVec 4 := 0b1000

/-- Bit 0 of `fix_q` (R35). -/
def FIX_2D : BitVec 2 := 0b01
/-- Bit 1 of `fix_q` (R35). -/
def FIX_3D : BitVec 2 := 0b10

/-- Bit 0 of `fault_reg` (R32, R330). -/
def FAULT_CLASS : BitVec 2 := 0b01
/-- Bit 1 of `fault_reg` (R32, R330). -/
def FAULT_RESOURCE : BitVec 2 := 0b10

/-- The tag R210 reads from the fix-mode field: exactly `"2"`, exactly `"3"`, or none. -/
def fixTag (m : Bytes) : BitVec 2 := if m = [chTwo] then FIX_2D else if m = [chThree] then FIX_3D else 0

/-! ## Checksum of a frame -/

/-- The two accumulators `(ck_a, ck_b)` after one more byte (R241): the second line uses the new `ck_a`. -/
def cksumStep (ck : Byte × Byte) (b : Byte) : Byte × Byte := (ck.1 + b, ck.2 + (ck.1 + b))

/-- `cksum` (R242): from `(0, 0)` over the bytes in order. -/
def cksum (bs : Bytes) : Byte × Byte := bs.foldl cksumStep (0, 0)

/-- The bytes of a frame the checksum covers: class, identifier, length and payload (R102, R272). -/
def frameBody (cls id : Byte) (payload : Bytes) : Bytes :=
  [cls, id] ++ le16 (BitVec.ofNat 16 payload.length) ++ payload

/-- `build_frame` (R272). -/
def buildFrame (c : Config) (cls id : Byte) (payload : Bytes) : Bytes :=
  [c.sync1, c.sync2] ++ frameBody cls id payload ++
    [(cksum (frameBody cls id payload)).1, (cksum (frameBody cls id payload)).2]

/-! ## Sentence encoding of the test vectors -/

/-- The body of a sentence: the address, then each field preceded by a comma (R92, R99). -/
def sentenceBody (addr : Bytes) (fields : List Bytes) : Bytes := addr ++ fields.flatMap (fun f => chComma :: f)

/-- The span of a sentence, `'$'` to `CR`, with the right checksum (R99 without its final `LF`). -/
def sentenceSpan (addr : Bytes) (fields : List Bytes) : Bytes :=
  [chDollar] ++ sentenceBody addr fields ++ [chStar] ++ hex2 (xorAll (sentenceBody addr fields)) ++ [chCR]

/-! ## Time -/

/-- `age(now, t) = (now - t) mod 2^32` (R16). -/
def age (now t : Word) : Word := now - t

/-- Strictly more than `limit` units have passed since `t` (R151, R284). -/
def expired (now t limit : Word) : Bool := limit < age now t

/-! ## Capacities -/

/-- A queue of `len` entries has no room; `none` is the capacity `inf` (R8, R281, R283). -/
def atCapacity (cap : Option Nat) (len : Nat) : Bool :=
  match cap with
  | none => false
  | some k => k ≤ len

end Sys2Proof.Machine
end

