-- ==== Sys2Proof/Machine/State.lean ====
section
/-!
DEFINITION. The state of the engine as plain data: every element of 10_state.md R20 to R45, and four fields of the
model's own (the parameters, the operations presented on the ports, the result of the last operation; see assumptions 1,
2 and 5), the reasons a step can stop, and the state after reset.
-/

namespace Sys2Proof.Machine

/-! ## Enumerations -/

/-- The states of the framing state machine, in the order of R24. -/
inductive Framing where
  | idle
  | sentenceWait
  | sentenceLFWait
  | binSyncWait
  | binHeaderWait
  | binPayloadWait
  | binChecksumWait
  | error
deriving DecidableEq, Repr

/-- The framing error codes of R321; codes 6 and 7 are never produced. -/
inductive ErrCode where
  | none
  | timeout
  | sync2
  | header
  | cksum
  | noLF
deriving DecidableEq, Repr

/-- Why a request failed (R41). -/
inductive Reason where
  | nak
  | timeout
deriving DecidableEq, Repr

/-! ## Groups of registers -/

/-- A byte array reached by index: the entries that are not 0, addresses strictly rising. An address that is not listed
reads as 0, the reset value of every cell (R45). -/
abbrev Memory := List Host.Cell

/-- The binary frame assembler (R27 to R30). -/
structure Assembler where
  hdr : Vector Byte 4
  hdrCnt : Nat
  rxClass : Byte
  rxId : Byte
  rxLen : Half
  payload : Memory
  payIdx : Nat
  payRem : Nat
  payOwned : Bool
  ckA : Byte
  ckB : Byte
  rxCk : Vector Byte 2
  ckCnt : Nat
deriving DecidableEq, Repr

/-- The Decoded Fix Record (R35, R36). -/
structure FixRecord where
  latFx : Word
  latStr : Bytes
  lonFx : Word
  lonStr : Bytes
  altM : Word
  altStr : Bytes
  fixQ : BitVec 2
  satsUsedStr : Bytes
  satsTrkStr : Bytes
  spdX1000 : Word
  spdStr : Bytes
  hdgX100 : Word
  hdgStr : Bytes
deriving DecidableEq, Repr

/-- One satellite record `(id, snr)` (R39). -/
structure SvRecord where
  id : Byte
  snr : Byte
deriving DecidableEq, Repr

/-- A response-awaited entry `(cls, id, ts)` (R41). -/
structure AwaitEntry where
  cls : Byte
  id : Byte
  ts : Word
deriving DecidableEq, Repr

/-- A failure entry `(cls, id, reason)` (R41). -/
structure FailEntry where
  cls : Byte
  id : Byte
  reason : Reason
deriving DecidableEq, Repr

/-- The version strings (R43). -/
structure Version where
  sw : Bytes
  hw : Bytes
  valid : Bool
deriving DecidableEq, Repr

/-! ## Ports and results (the model's own) -/

/-- An operation word as an agent presents it on a port (R110, R114). -/
structure PortOp where
  port : Port
  word : Bytes
deriving DecidableEq, Repr

/-- What READ_STATUS returns (R307), in its order. -/
structure Status where
  state : BitVec 3
  inProgress : Bool
  wr : Nat
  sc : Nat
  ms : Nat
  avail : Nat
  rxClass : Byte
  rxId : Byte
  rxLen : Half
  payOwned : Bool
  errCode : BitVec 3
  errLast : BitVec 3
  errCount : Word
  faultReg : BitVec 2
  halted : Bool
  faultClass : Byte
  faultId : Byte
  cntOther : Word
  fieldTrunc : Bool
  nAwaited : Nat
  nFailed : Nat
deriving DecidableEq, Repr

/-- The result of an operation (R112). -/
inductive Result where
  /-- The operation returns nothing. -/
  | none
  /-- `bad_op = 1` (R310). -/
  | badOp
  /-- SEND: `ok`, and the frame emitted on `tx`, if any (R271, R274). -/
  | sent (ok : Bool) (frame : Option Bytes)
  /-- DRAIN_FAILURES, DRAIN_FAILED (R285, R286). -/
  | failures (entries : List FailEntry)
  /-- QUERY_AWAITED (R287). -/
  | count (n : Nat)
  /-- QUERY_FAILED (R288). -/
  | counts (nak timeout : Nat)
  /-- READ_FIX (R301). -/
  | fix (record : FixRecord)
  /-- READ_SV (R302). -/
  | svTable (curSel : Bool) (records : List SvRecord)
  /-- READ_FLAGS (R303). -/
  | flags (newFlags : BitVec 4)
  /-- READ_STATUS (R307). -/
  | status (s : Status)
  /-- READ_VERSION (R305). -/
  | version (v : Version)
deriving DecidableEq, Repr

/-! ## The state -/

/-- The state of the block. -/
structure State where
  /-- The parameters (R7, R8): the model's own field, written by nothing. -/
  cfg : Config
  /-- The operations the agents have presented, in the order they take effect (R70): the model's own field. -/
  inbox : List PortOp
  /-- The result of the last operation (R112): the model's own field. -/
  result : Result
  /-- `buf` (R21). -/
  buf : Memory
  /-- `wr` (R22). -/
  wr : Nat
  /-- `sc` (R22). -/
  sc : Nat
  /-- `ms` (R22). -/
  ms : Nat
  /-- `state` (R24). -/
  fsm : Framing
  /-- `in_progress` (R25). -/
  inProgress : Bool
  /-- `msg_time` (R26). -/
  msgTime : Word
  /-- `hdr` to `ck_cnt` (R27 to R29). -/
  asm : Assembler
  /-- `err_code` (R31). -/
  errCode : ErrCode
  /-- `err_last` (R31). -/
  errLast : ErrCode
  /-- `err_count` (R31). -/
  errCount : Word
  /-- `fault_reg` (R32). -/
  faultReg : BitVec 2
  /-- `halted` (R32). -/
  halted : Bool
  /-- `fault_class` (R33). -/
  faultClass : Byte
  /-- `fault_id` (R33). -/
  faultId : Byte
  /-- `cnt_other` (R34). -/
  cntOther : Word
  /-- `field_trunc` (R34). -/
  fieldTrunc : Bool
  /-- The Decoded Fix Record (R35). -/
  fix : FixRecord
  /-- `new_flags` (R38). -/
  newFlags : BitVec 4
  /-- `sv[0]` (R39). -/
  sv0 : List SvRecord
  /-- `sv[1]` (R39). -/
  sv1 : List SvRecord
  /-- `cur_sel` (R39): false is 0. -/
  curSel : Bool
  /-- `awaited` (R41). -/
  awaited : List AwaitEntry
  /-- `failed` (R41). -/
  failed : List FailEntry
  /-- `ver_sw`, `ver_hw`, `ver_valid` (R43). -/
  ver : Version
deriving DecidableEq, Repr

/-- Why the machine stops with a fault. Neither is a condition of the spec's own (its faults are the bits of
`fault_reg`, R330): both stand for an access to a cell that R60 says does not exist, in a state no run reaches. -/
inductive Fault where
  /-- PUSH or TICK found a cursor outside `0 .. N-1` (R22). Safe: the cursors of every reachable state are in range. -/
  | cursorOutOfRange
  /-- TICK would use a payload index outside `0 .. PAYLOAD_CAP-1` (R28). Safe: R160 rules it out in reachable states. -/
  | payloadIndexOutOfRange
deriving DecidableEq, Repr

/-- Why the machine gives a presented word no meaning. -/
inductive Refusal where
  /-- The instruction has no meaning in this model. Raised by no arm of `exec`: every row has its meaning. Safe. -/
  | notModelled (mnemonic : String)
  /-- `step` found a word that is no operation word: no opcode byte, or a defined opcode with too few or too many
  operand bytes (R110, R111 give such bytes no meaning). Safe: the run stops. -/
  | malformedWord
deriving DecidableEq, Repr

/-! ## Reset -/

/-- The assembler after reset (R45). -/
def Assembler.zero : Assembler where
  hdr := Vector.replicate 4 0
  hdrCnt := 0
  rxClass := 0
  rxId := 0
  rxLen := 0
  payload := []
  payIdx := 0
  payRem := 0
  payOwned := false
  ckA := 0
  ckB := 0
  rxCk := Vector.replicate 2 0
  ckCnt := 0

/-- The Decoded Fix Record zeroed (R37, R45, R308). -/
def FixRecord.zero : FixRecord where
  latFx := 0
  latStr := []
  lonFx := 0
  lonStr := []
  altM := 0
  altStr := []
  fixQ := 0
  satsUsedStr := []
  satsTrkStr := []
  spdX1000 := 0
  spdStr := []
  hdgX100 := 0
  hdgStr := []

/-- A cleared satellite table of `cap` records (R39, R45). -/
def clearedTable (cap : Nat) : List SvRecord := List.replicate cap ⟨0, 0⟩

/-- The state after RESET of a block with parameters `c` (R45, R351). -/
def State.resetOf (c : Config) : State where
  cfg := c
  inbox := []
  result := .none
  buf := []
  wr := 0
  sc := 0
  ms := 0
  fsm := .idle
  inProgress := false
  msgTime := 0
  asm := Assembler.zero
  errCode := .none
  errLast := .none
  errCount := 0
  faultReg := 0
  halted := false
  faultClass := 0
  faultId := 0
  cntOther := 0
  fieldTrunc := false
  fix := FixRecord.zero
  newFlags := 0
  sv0 := clearedTable c.svCap
  sv1 := clearedTable c.svCap
  curSel := false
  awaited := []
  failed := []
  ver := ⟨List.replicate c.verSwLen.toNat 0, List.replicate c.verHwLen.toNat 0, false⟩

/-- The machine right after reset (R45, R350), with the default parameters of R8. -/
def State.reset : State := State.resetOf Config.default

end Sys2Proof.Machine
end

