-- ==== Sys2Proof/Machine/Ops.lean ====
section
/-!
DEFINITION. The shared operations over the state: byte arrays, the ring and its cursors (40_intake_buffer.md), taking a
framing error and returning from it, raising a fatal fault (60_exceptions.md), the Ledger's internal functions
(45_ledger.md), the roles of the satellite tables, and the result of an operation. The meanings are written over these.
-/

namespace Sys2Proof.Machine

/-! ## Byte arrays -/

/-- The byte at an address: the listed one, else 0. -/
def Memory.read : Memory → Nat → Byte
  | [], _ => 0
  | (a, v) :: m, x => if a = x then v else Memory.read m x

/-- Store a byte, keeping the addresses rising and listing no 0. -/
def Memory.write : Memory → Nat → Byte → Memory
  | [], x, b => if b = 0 then [] else [(x, b)]
  | (a, v) :: m, x, b =>
    if x < a then (if b = 0 then (a, v) :: m else (x, b) :: (a, v) :: m)
    else if x = a then (if b = 0 then m else (x, b) :: m)
    else (a, v) :: Memory.write m x b

/-- The canonical form: addresses strictly rising, no listed byte equal to what an unlisted address reads as. -/
abbrev Memory.wf (m : Memory) : Prop := m.Pairwise (fun p q => p.1 < q.1) ∧ ∀ p ∈ m, p.2 ≠ 0

/-- Every listed address lies in `0 .. n-1`. -/
abbrev Memory.within (n : Nat) (m : Memory) : Prop := ∀ p ∈ m, p.1 < n

/-- The bytes at `start .. start+len-1`. -/
def Memory.slice (m : Memory) (start len : Nat) : Bytes := (List.range len).map (fun k => m.read (start + k))

/-! ## The ring (R14, R22, R131 to R136) -/

/-- `next(c)`, the wraparound increment (R14). -/
def nextCell (n c : Nat) : Nat := (c + 1) % n

/-- `dist(a, b)`, the cells from cursor `a` forward to cursor `b` (R14). -/
def dist (n a b : Nat) : Nat := (b + n - a) % n

/-- `len` cells of a ring of `n` cells, from `start` on, in ring order. -/
def Memory.ringSlice (m : Memory) (n start len : Nat) : Bytes :=
  (List.range len).map (fun k => m.read ((start + k) % n))

/-- The three cursors are cursor values (R22). -/
def State.cursorsInRange (s : State) : Bool := s.wr < s.cfg.n && s.sc < s.cfg.n && s.ms < s.cfg.n

/-- `avail` (R135). -/
def State.avail (s : State) : Nat := dist s.cfg.n s.sc s.wr

/-- The bytes from `sc` up to `wr`: what a loop guarded by `sc != wr` can consume (R135). -/
def State.unread (s : State) : Bytes := s.buf.ringSlice s.cfg.n s.sc s.avail

/-- `span()` (R136). -/
def State.span (s : State) : Bytes := s.buf.ringSlice s.cfg.n s.ms (dist s.cfg.n s.ms s.sc)

/-- The body of PUSH (R131, in the order of R72): store, advance, zero the cell moved into. -/
def pushByte (b : Byte) (s : State) : State :=
  { s with
    buf := (s.buf.write s.wr b).write (nextCell s.cfg.n s.wr) 0
    wr := nextCell s.cfg.n s.wr }

/-- The PUSH of this state would be an overrun (R134). -/
def State.overrunsNext (s : State) : Bool := nextCell s.cfg.n s.wr = s.ms

/-- `advance_scan` (R132): `ms` stays. -/
def advanceScan (s : State) : State := { s with sc := nextCell s.cfg.n s.sc }

/-- Consume the byte at `sc`: both cursors step past it (R133, R152, decision D5). -/
def consumeByte (s : State) : State := { s with sc := nextCell s.cfg.n s.sc, ms := nextCell s.cfg.n s.sc }

/-! ## Messages, framing errors and faults -/

/-- Leaving `Idle` for a message (R152). -/
def beginMessage (now : Word) (st : Framing) (s : State) : State :=
  { s with inProgress := true, msgTime := now, fsm := st }

/-- `raise Error(code)` (R15, R322): taking a framing error. Nothing else changes until the Error TICK. -/
def raiseError (code : ErrCode) (s : State) : State := { s with errCode := code, fsm := .error }

/-- The Error TICK (R166, R323): the error is recorded, the payload buffer released, and control returns to `Idle`
(R324: this is the return; nothing is restored). -/
def errorEntry (s : State) : State :=
  { s with
    errLast := s.errCode
    errCount := s.errCount + 1
    asm := { s.asm with payOwned := false }
    inProgress := false
    ms := s.sc
    fsm := .idle }

/-- `check_timeout` (R151): strict. -/
def checkTimeout (now : Word) (s : State) : State :=
  if expired now s.msgTime s.cfg.tRx then raiseError .timeout s else s

/-- `fault(bit)` (R15, R330): the operation that raised it goes on. -/
def raiseFault (bit : BitVec 2) (s : State) : State := { s with faultReg := s.faultReg ||| bit, halted := true }

/-! ## Numbers of enumerations -/

/-- The encoding of `state` (R24). -/
def Framing.code : Framing → BitVec 3
  | .idle => 0
  | .sentenceWait => 1
  | .sentenceLFWait => 2
  | .binSyncWait => 3
  | .binHeaderWait => 4
  | .binPayloadWait => 5
  | .binChecksumWait => 6
  | .error => 7

/-- The numbering of error codes (R321). -/
def ErrCode.code : ErrCode → BitVec 3
  | .none => 0
  | .timeout => 1
  | .sync2 => 2
  | .header => 3
  | .cksum => 4
  | .noLF => 5

/-- The encoding of failure reasons (R41). -/
def Reason.code : Reason → BitVec 2
  | .nak => 1
  | .timeout => 2

/-! ## The Ledger (R281 to R284) -/

/-- The entry has the key `(cls, id)`. -/
def AwaitEntry.hasKey (cls id : Byte) (e : AwaitEntry) : Bool := e.cls = cls && e.id = id

/-- The entry has the key `(cls, id)`. -/
def FailEntry.hasKey (cls id : Byte) (e : FailEntry) : Bool := e.cls = cls && e.id = id

/-- Internal `register` (R281): a full queue is a fault and the entry is not added. -/
def registerEntry (cls id : Byte) (ts : Word) (s : State) : State :=
  if atCapacity s.cfg.awaitCap s.awaited.length then raiseFault FAULT_RESOURCE s
  else { s with awaited := s.awaited ++ [⟨cls, id, ts⟩] }

/-- Internal `resolve` (R282): every entry with the key goes, the others keep their order. -/
def resolveKey (cls id : Byte) (s : State) : State :=
  { s with awaited := s.awaited.filter (fun e => !e.hasKey cls id) }

/-- `fail_add` (R283): a full queue is a fault and the entry is lost. -/
def failAdd (cls id : Byte) (reason : Reason) (s : State) : State :=
  if atCapacity s.cfg.failCap s.failed.length then raiseFault FAULT_RESOURCE s
  else { s with failed := s.failed ++ [⟨cls, id, reason⟩] }

/-- One entry of the sweep's walk (R284). -/
def sweepEntry (now limit : Word) (s : State) (e : AwaitEntry) : State :=
  if expired now e.ts limit then failAdd e.cls e.id .timeout s else { s with awaited := s.awaited ++ [e] }

/-- `ledger_sweep` (R284): empty the queue, then walk the old one, head first. -/
def ledgerSweep (now limit : Word) (s : State) : State :=
  s.awaited.foldl (sweepEntry now limit) { s with awaited := [] }

/-! ## The satellite tables (R39, R215) -/

/-- `sv[cur_sel]`, the table in the "current" role. -/
def State.current (s : State) : List SvRecord := if s.curSel then s.sv1 else s.sv0

/-- `sv[1 - cur_sel]`, the table in the "incoming" role. -/
def State.incoming (s : State) : List SvRecord := if s.curSel then s.sv0 else s.sv1

/-- Write the table in the "incoming" role. -/
def setIncoming (t : List SvRecord) (s : State) : State := if s.curSel then { s with sv0 := t } else { s with sv1 := t }

/-- The swap (R215): invert the roles, then clear the new incoming table. -/
def swapTables (s : State) : State := setIncoming (clearedTable s.cfg.svCap) { s with curSel := !s.curSel }

/-! ## Results and reset -/

/-- The operation returns `r` to its caller (R112). -/
def answer (r : Result) (s : State) : State := { s with result := r }

/-- Every element of state at its reset value (R312); the parameters and the operations still to come are no state of
the block (R44) and stay. -/
def resetState (s : State) : State := { State.resetOf s.cfg with inbox := s.inbox }

end Sys2Proof.Machine
end

