-- ==== Sys2Proof/Machine/Frame.lean ====
section
/-!
DEFINITION. The Binary Decoder (43_binary_decoder.md): `dispatch` and its branches. Each branch is given the class,
identifier and payload of a verified frame; it runs inside a TICK of state `BinChecksumWait` (R164).
-/

namespace Sys2Proof.Machine

/-- ACK-ACK (R244): the key is the first two payload bytes; a shorter payload carries none. -/
def ackFrame (payload : Bytes) (s : State) : State :=
  match payload with
  | cls :: id :: _ => resolveKey cls id s
  | _ => s

/-- ACK-NAK (R245): the failure entry first, whether or not anything was awaited, then the removal. -/
def nakFrame (payload : Bytes) (s : State) : State :=
  match payload with
  | cls :: id :: _ => resolveKey cls id (failAdd cls id .nak s)
  | _ => s

/-- MON-VER (R246): positions at or beyond the received length read as zero. -/
def versionFrame (payload : Bytes) (s : State) : State :=
  resolveKey s.cfg.clsMon s.cfg.idMonVer
    { s with ver := ⟨substring payload s.cfg.verSwOff s.cfg.verSwLen, substring payload s.cfg.verHwOff s.cfg.verHwLen, true⟩ }

/-- An unknown class (R249): a fatal fault that records the frame. -/
def unknownClassFrame (cls id : Byte) (s : State) : State :=
  raiseFault FAULT_CLASS { s with faultClass := cls, faultId := id }

/-- `dispatch` (R243). -/
def dispatchFrame (cls id : Byte) (payload : Bytes) (s : State) : State :=
  match frameKind s.cfg cls id with
  | .ackAck => ackFrame payload s
  | .ackNak => nakFrame payload s
  | .monVer => versionFrame payload s
  | .ackOther => s
  | .monOther => s
  | .cfgAny => s
  | .classUnknown => unknownClassFrame cls id s

/-! ## The instructions -/

/-- ACK_ACK (R244). -/
def execAckAck (payload : Bytes) (s : State) : Host.Outcome State Fault Refusal := .next (ackFrame payload s)

/-- ACK_NAK (R245). -/
def execAckNak (payload : Bytes) (s : State) : Host.Outcome State Fault Refusal := .next (nakFrame payload s)

/-- MON_VER (R246). -/
def execMonVer (payload : Bytes) (s : State) : Host.Outcome State Fault Refusal := .next (versionFrame payload s)

/-- ACK_OTHER (R247): tolerated and ignored. -/
def execAckOther (_id : Byte) (_payload : Bytes) (s : State) : Host.Outcome State Fault Refusal := .next s

/-- MON_OTHER (R247): tolerated and ignored. -/
def execMonOther (_id : Byte) (_payload : Bytes) (s : State) : Host.Outcome State Fault Refusal := .next s

/-- CFG_ANY (R248): ignored, must not trap. -/
def execCfgAny (_cls _id : Byte) (_payload : Bytes) (s : State) : Host.Outcome State Fault Refusal := .next s

/-- CLASS_UNKNOWN (R249): halts the block. -/
def execClassUnknown (cls id : Byte) (_payload : Bytes) (s : State) : Host.Outcome State Fault Refusal :=
  .next (unknownClassFrame cls id s)

end Sys2Proof.Machine
end

