-- ==== Sys2Proof/Machine/Sentence.lean ====
section
/-!
DEFINITION. The Sentence Decoder (42_sentence_decoder.md): `process` and its branches. Each branch is given the span of a
verified sentence; it runs inside a TICK of state `SentenceLFWait` (R190).
-/

namespace Sys2Proof.Machine

/-- What the extraction of these fields does to `field_trunc` (R195): set when one of them lost bytes. -/
def noteTruncation (span : Bytes) (ks : List Int) (s : State) : State :=
  { s with fieldTrunc := s.fieldTrunc || ks.any (fieldTruncated s.cfg span) }

/-- Set a new-data indicator (R38). -/
def raiseFlag (bit : BitVec 4) (s : State) : State := { s with newFlags := s.newFlags ||| bit }

/-! ## Position sentence (R202 to R207) -/

/-- Latitude: only when value and direction are both present (R202). -/
def updateLat (lat ns : Bytes) (s : State) : State :=
  match lat, ns with
  | _ :: _, d :: _ =>
    { s with fix := { s.fix with
        latFx := latlonFx s.cfg lat (d = chS)
        latStr := latlonText lat (d = chS) ++ [d] } }
  | _, _ => s

/-- Longitude: only when value and direction are both present (R202). -/
def updateLon (lon ew : Bytes) (s : State) : State :=
  match lon, ew with
  | _ :: _, d :: _ =>
    { s with fix := { s.fix with
        lonFx := latlonFx s.cfg lon (d = chW)
        lonStr := latlonText lon (d = chW) ++ [d] } }
  | _, _ => s

/-- Altitude (R206). -/
def updateAlt (alt : Bytes) (s : State) : State :=
  match alt with
  | [] => s
  | _ :: _ =>
    { s with fix := { s.fix with
        altM := s32 (parseDec alt 0 true).1 (parseDec alt 0 true).2
        altStr := alt ++ s.cfg.sufAlt } }

/-- Satellites used (R207). -/
def updateUsed (u : Bytes) (s : State) : State :=
  match u with
  | [] => s
  | _ :: _ => { s with fix := { s.fix with satsUsedStr := u } }

/-- The fields a position sentence extracts, the address first. -/
def posFields (c : Config) : List Int := [0, c.fLat, c.fNs, c.fLon, c.fEw, c.fAlt, c.fNused]

/-- POS (R202); `NEW_LOC` whether or not a field was present (R203). -/
def processPos (span : Bytes) (s : State) : State :=
  let f := field s.cfg span
  raiseFlag NEW_LOC (updateUsed (f s.cfg.fNused) (updateAlt (f s.cfg.fAlt)
    (updateLon (f s.cfg.fLon) (f s.cfg.fEw) (updateLat (f s.cfg.fLat) (f s.cfg.fNs)
      (noteTruncation span (posFields s.cfg) s)))))

/-! ## Fix-quality sentence (R210) -/

/-- FIXQ (R210): an absent or unrecognised mode clears the tag (90_conflicts.md C1). -/
def processFixq (span : Bytes) (s : State) : State :=
  let t := noteTruncation span [0, s.cfg.fFixmode] s
  raiseFlag NEW_FIX { t with fix := { t.fix with fixQ := fixTag (field s.cfg span s.cfg.fFixmode) } }

/-! ## Speed/heading sentence (R212) -/

/-- Heading, two implied digits. -/
def updateHdg (h : Bytes) (s : State) : State :=
  match h with
  | [] => s
  | _ :: _ =>
    { s with fix := { s.fix with
        hdgX100 := BitVec.ofNat 32 (parseDec h 2 false).2
        hdgStr := h ++ s.cfg.sufHdg } }

/-- Speed, three implied digits. -/
def updateSpd (v : Bytes) (s : State) : State :=
  match v with
  | [] => s
  | _ :: _ =>
    { s with fix := { s.fix with
        spdX1000 := BitVec.ofNat 32 (parseDec v 3 false).2
        spdStr := v ++ s.cfg.sufSpd } }

/-- SPDHDG (R212). -/
def processSpdhdg (span : Bytes) (s : State) : State :=
  let f := field s.cfg span
  raiseFlag NEW_SPD (updateSpd (f s.cfg.fSpd) (updateHdg (f s.cfg.fHdg)
    (noteTruncation span [0, s.cfg.fHdg, s.cfg.fSpd] s)))

/-! ## Satellites-in-view sentence (R214 to R218) -/

/-- The number of the id field of pair `k` (R96). -/
def svIdField (c : Config) (k : Nat) : Int := c.fSv0 + c.svStride * k

/-- The number of the signal field of pair `k` (R96). -/
def svSnrField (c : Config) (k : Nat) : Int := c.fSv0 + c.svStride * k + c.svSnrOff

/-- `pos` (R214): 0 where the field is absent, a position that changes nothing either way. -/
def seriesPos (c : Config) (span : Bytes) : Nat := (parseDec (field c span c.fSvpos) 0 false).2 % 2 ^ 32

/-- Satellites tracked (R216). -/
def updateTracked (t : Bytes) (s : State) : State :=
  match t with
  | [] => s
  | _ :: _ => { s with fix := { s.fix with satsTrkStr := t } }

/-- Pair `k` of a sentence at position `pos` (R217): skipped where its id is absent, dropped beyond the table. -/
def writePair (span : Bytes) (pos : Nat) (s : State) (k : Nat) : State :=
  match field s.cfg span (svIdField s.cfg k) with
  | [] => s
  | idf@(_ :: _) =>
    if (pos - 1) * 4 + k < s.cfg.svCap then
      setIncoming (s.incoming.set ((pos - 1) * 4 + k)
        ⟨BitVec.ofNat 8 (parseDec idf 0 false).2,
         BitVec.ofNat 8 (parseDec (field s.cfg span (svSnrField s.cfg k)) 0 false).2⟩) s
    else s

/-- The fields a satellites-in-view sentence extracts once its position is known to count. -/
def svFields (c : Config) : List Int :=
  [0, c.fSvpos, c.fSvtot] ++ [0, 1, 2, 3].flatMap (fun k => [svIdField c k, svSnrField c k])

/-- SATS (R214): position absent or 0 changes nothing; position 1 swaps the tables (R215). -/
def processSats (span : Bytes) (s : State) : State :=
  let pos := seriesPos s.cfg span
  if pos = 0 then noteTruncation span [0, s.cfg.fSvpos] s
  else
    let t := noteTruncation span (svFields s.cfg) s
    let t := if pos = 1 then swapTables t else t
    let t := updateTracked (field s.cfg span s.cfg.fSvtot) t
    raiseFlag NEW_SAT ([0, 1, 2, 3].foldl (writePair span pos) t)

/-! ## Any other address (R201) -/

/-- An address that is not in the table: counted and ignored. -/
def processOther (span : Bytes) (s : State) : State :=
  let t := noteTruncation span [0] s
  { t with cntOther := t.cntOther + 1 }

/-- `process` (R200): the address selects the branch. -/
def processSpan (span : Bytes) (s : State) : State :=
  match kindOf s.cfg span with
  | .pos => processPos span s
  | .fixq => processFixq span s
  | .spdhdg => processSpdhdg span s
  | .sats => processSats span s
  | .other => processOther span s

/-! ## The instructions -/

/-- GPGGA (R202). -/
def execGpgga (span : Bytes) (s : State) : Host.Outcome State Fault Refusal := .next (processPos span s)

/-- GPGSA (R210). -/
def execGpgsa (span : Bytes) (s : State) : Host.Outcome State Fault Refusal := .next (processFixq span s)

/-- GPVTG (R212). -/
def execGpvtg (span : Bytes) (s : State) : Host.Outcome State Fault Refusal := .next (processSpdhdg span s)

/-- GPGSV (R214). -/
def execGpgsv (span : Bytes) (s : State) : Host.Outcome State Fault Refusal := .next (processSats span s)

/-- SENTENCE_OTHER (R201). -/
def execSentenceOther (span : Bytes) (s : State) : Host.Outcome State Fault Refusal := .next (processOther span s)

end Sys2Proof.Machine
end

