-- ==== Sys2Proof/Machine/Framing.lean ====
section
/-!
DEFINITION. The Framing State Machine (41_framing_fsm.md): the three lead bytes of `Idle`, one rule per state, and TICK.
A loop guarded by `sc != wr` is a fold over the unread bytes it takes: no rule of the loop writes `buf` or `wr`.
-/

namespace Sys2Proof.Machine

/-! ## Lead bytes (R91, R152) -/

/-- LEAD_SENTENCE (R152): `ms` stays on the `'$'`. -/
def openSentence (now : Word) (s : State) : State := beginMessage now .sentenceWait (advanceScan s)

/-- LEAD_BINARY (R152): both cursors step past the sync byte. -/
def openFrame (now : Word) (s : State) : State := beginMessage now .binSyncWait (consumeByte s)

/-- The lead byte decides (R91, R152). -/
def classifyLead (now : Word) (b : Byte) (s : State) : State :=
  match leadClass s.cfg b with
  | .sentence => openSentence now s
  | .binary => openFrame now s
  | .garbage => consumeByte s

/-- LEAD_SENTENCE. -/
def execLeadSentence (now : Word) (s : State) : Host.Outcome State Fault Refusal := .next (openSentence now s)

/-- LEAD_BINARY. -/
def execLeadBinary (now : Word) (s : State) : Host.Outcome State Fault Refusal := .next (openFrame now s)

/-- LEAD_OTHER: the byte is discarded (R152). -/
def execLeadOther (_b : Byte) (s : State) : Host.Outcome State Fault Refusal := .next (consumeByte s)

/-! ## The states -/

/-- `Idle` (R152): the sweep first (R153); if it faults, no byte is classified. -/
def tickIdle (now : Word) (s : State) : State :=
  let t := ledgerSweep now s.cfg.tResp s
  if t.halted then t
  else
    match t.unread with
    | [] => t
    | b :: _ => classifyLead now b t

/-- One turn of the loop of `SentenceWait` (R154). -/
def sentenceByte (s : State) (b : Byte) : State :=
  if b = chCR then { advanceScan s with fsm := .sentenceLFWait } else advanceScan s

/-- `SentenceWait` (R154): every available byte up to and including the first `CR`; `ms` does not move. -/
def tickSentenceWait (now : Word) (s : State) : State :=
  match s.unread with
  | [] => checkTimeout now s
  | b :: bs => (throughCR (b :: bs)).foldl sentenceByte { s with msgTime := now }

/-- `SentenceLFWait` (R156): the byte at `sc` is examined, not consumed, in both branches. -/
def tickSentenceLFWait (now : Word) (s : State) : State :=
  match s.unread with
  | [] => checkTimeout now s
  | b :: _ =>
    if b = chLF then
      let t := if verify s.span then processSpan s.span s else s
      { t with ms := t.sc, inProgress := false, fsm := .idle }
    else raiseError .noLF { s with ms := s.sc }

/-- `BinSyncWait` (R158): a byte that is not `SYNC2` is not consumed. -/
def tickBinSyncWait (now : Word) (s : State) : State :=
  match s.unread with
  | [] => checkTimeout now s
  | b :: _ =>
    if b = s.cfg.sync2 then
      { consumeByte s with
        msgTime := now
        asm := { s.asm with hdrCnt := 0, ckA := 0, ckB := 0 }
        fsm := .binHeaderWait }
    else raiseError .sync2 s

/-- `cksum_update` (R241). -/
def cksumUpdate (b : Byte) (a : Assembler) : Assembler :=
  { a with ckA := (cksumStep (a.ckA, a.ckB) b).1, ckB := (cksumStep (a.ckA, a.ckB) b).2 }

/-- One turn of a loop that consumes a byte into the assembler (R160, R162, R164). -/
def consumeInto (f : Assembler → Byte → Assembler) (s : State) (b : Byte) : State :=
  { consumeByte s with asm := f s.asm b }

/-- What the loop of `BinHeaderWait` does with a byte (R160). -/
def headerByte (a : Assembler) (b : Byte) : Assembler :=
  cksumUpdate b { a with hdr := a.hdr.setIfInBounds a.hdrCnt b, hdrCnt := a.hdrCnt + 1 }

/-- The fourth header byte (R160): a length above the payload buffer is the malformed header. -/
def finishHeader (s : State) : State :=
  let len := ofLe16 s.asm.hdr[2] s.asm.hdr[3]
  let a := { s.asm with rxClass := s.asm.hdr[0], rxId := s.asm.hdr[1], rxLen := len }
  if s.cfg.payloadCap < len.toNat then raiseError .header { s with asm := a }
  else { s with asm := { a with payOwned := true, payIdx := 0, payRem := len.toNat }, fsm := .binPayloadWait }

/-- `BinHeaderWait` (R160). -/
def tickBinHeaderWait (now : Word) (s : State) : State :=
  match s.unread with
  | [] => checkTimeout now s
  | b :: bs =>
    let t := ((b :: bs).take (4 - s.asm.hdrCnt)).foldl (consumeInto headerByte) { s with msgTime := now }
    if t.asm.hdrCnt = 4 then finishHeader t else t

/-- What the loop of `BinPayloadWait` does with a byte (R162). -/
def payloadByte (a : Assembler) (b : Byte) : Assembler :=
  cksumUpdate b { a with payload := a.payload.write a.payIdx b, payIdx := a.payIdx + 1, payRem := a.payRem - 1 }

/-- The end of `BinPayloadWait` (R162): nothing more to come. -/
def finishPayload (s : State) : State :=
  if s.asm.payRem = 0 then { s with asm := { s.asm with ckCnt := 0 }, fsm := .binChecksumWait } else s

/-- `BinPayloadWait` (R162): an empty payload consumes nothing and tests no timeout (decision D13). A store beyond the
payload buffer stops the machine. -/
def tickBinPayloadWait (now : Word) (s : State) : Host.Outcome State Fault Refusal :=
  if s.asm.payRem = 0 then .next (finishPayload s)
  else
    match s.unread with
    | [] => .next (checkTimeout now s)
    | b :: bs =>
      let taken := (b :: bs).take s.asm.payRem
      if s.asm.payIdx + taken.length ≤ s.cfg.payloadCap then
        .next (finishPayload (taken.foldl (consumeInto payloadByte) { s with msgTime := now }))
      else .fault .payloadIndexOutOfRange

/-- What the loop of `BinChecksumWait` does with a byte (R164): it is not summed. -/
def checksumByte (a : Assembler) (b : Byte) : Assembler :=
  { a with rxCk := a.rxCk.setIfInBounds a.ckCnt b, ckCnt := a.ckCnt + 1 }

/-- The payload of the assembled frame: `payload[0 .. rx_len-1]` (R243). -/
def State.rxPayload (s : State) : Bytes := s.asm.payload.slice 0 s.asm.rxLen.toNat

/-- The received checksum bytes equal the running checksum (R164). -/
def State.checksumMatches (s : State) : Bool := s.asm.rxCk[0] = s.asm.ckA && s.asm.rxCk[1] = s.asm.ckB

/-- What R164 does after `dispatch`, faulted or not: release the buffer and return to `Idle`. -/
def finishFrame (s : State) : State :=
  { s with asm := { s.asm with payOwned := false }, inProgress := false, fsm := .idle }

/-- The second checksum byte (R164). Reading a payload beyond its buffer stops the machine. -/
def finishChecksum (s : State) : Host.Outcome State Fault Refusal :=
  if s.checksumMatches then
    if s.asm.rxLen.toNat ≤ s.cfg.payloadCap then
      .next (finishFrame (dispatchFrame s.asm.rxClass s.asm.rxId s.rxPayload s))
    else .fault .payloadIndexOutOfRange
  else .next (raiseError .cksum s)

/-- `BinChecksumWait` (R164). -/
def tickBinChecksumWait (now : Word) (s : State) : Host.Outcome State Fault Refusal :=
  match s.unread with
  | [] => .next (checkTimeout now s)
  | b :: bs =>
    let t := ((b :: bs).take (2 - s.asm.ckCnt)).foldl (consumeInto checksumByte) { s with msgTime := now }
    if t.asm.ckCnt = 2 then finishChecksum t else .next t

/-! ## TICK (R150) -/

/-- The rule of the current state: exactly one per TICK. -/
def tickState (now : Word) (s : State) : Host.Outcome State Fault Refusal :=
  match s.fsm with
  | .idle => .next (tickIdle now s)
  | .sentenceWait => .next (tickSentenceWait now s)
  | .sentenceLFWait => .next (tickSentenceLFWait now s)
  | .binSyncWait => .next (tickBinSyncWait now s)
  | .binHeaderWait => .next (tickBinHeaderWait now s)
  | .binPayloadWait => tickBinPayloadWait now s
  | .binChecksumWait => tickBinChecksumWait now s
  | .error => .next (errorEntry s)

/-- TICK (R150): nothing while halted (R333). Cursors that are no cells of the ring stop the machine. -/
def execTick (now : Word) (s : State) : Host.Outcome State Fault Refusal :=
  if s.halted then .next (answer .none s)
  else if s.cursorsInRange then tickState now (answer .none s)
  else .fault .cursorOutOfRange

end Sys2Proof.Machine
end

