-- ==== Sys2Proof/Machine/HostOps.lean ====
section
/-!
DEFINITION. The query surface, power and reset operations (46_host_ops.md). All of them work while halted (R311).
-/

namespace Sys2Proof.Machine

/-- NOP (R309). -/
def execNop (s : State) : Host.Outcome State Fault Refusal := .next (answer .none s)

/-- READ_FIX (R301). -/
def execReadFix (s : State) : Host.Outcome State Fault Refusal := .next (answer (.fix s.fix) s)

/-- READ_SV (R302): the table in the "current" role only. -/
def execReadSv (s : State) : Host.Outcome State Fault Refusal := .next (answer (.svTable s.curSel s.current) s)

/-- READ_FLAGS (R303): reading does not clear. -/
def execReadFlags (s : State) : Host.Outcome State Fault Refusal := .next (answer (.flags s.newFlags) s)

/-- CLEAR_FLAGS (R304). -/
def execClearFlags (mask : BitVec 4) (s : State) : Host.Outcome State Fault Refusal :=
  .next (answer .none { s with newFlags := s.newFlags &&& ~~~mask })

/-- The snapshot READ_STATUS takes (R307). -/
def State.status (s : State) : Status where
  state := s.fsm.code
  inProgress := s.inProgress
  wr := s.wr
  sc := s.sc
  ms := s.ms
  avail := s.avail
  rxClass := s.asm.rxClass
  rxId := s.asm.rxId
  rxLen := s.asm.rxLen
  payOwned := s.asm.payOwned
  errCode := s.errCode.code
  errLast := s.errLast.code
  errCount := s.errCount
  faultReg := s.faultReg
  halted := s.halted
  faultClass := s.faultClass
  faultId := s.faultId
  cntOther := s.cntOther
  fieldTrunc := s.fieldTrunc
  nAwaited := s.awaited.length
  nFailed := s.failed.length

/-- READ_STATUS (R307). -/
def execReadStatus (s : State) : Host.Outcome State Fault Refusal := .next (answer (.status s.status) s)

/-- READ_VERSION (R305). -/
def execReadVersion (s : State) : Host.Outcome State Fault Refusal := .next (answer (.version s.ver) s)

/-- POWER_OFF (R308): the Decoded Fix Record and nothing else. -/
def execPowerOff (s : State) : Host.Outcome State Fault Refusal := .next (answer .none { s with fix := FixRecord.zero })

/-- RESET (R312). -/
def execReset (s : State) : Host.Outcome State Fault Refusal := .next (answer .none (resetState s))

/-- RESERVED (R310): a reserved opcode, or a defined one on the wrong port: `bad_op = 1` and nothing else. -/
def execReserved (_port : Port) (_opcode : Byte) (_operands : Bytes) (s : State) : Host.Outcome State Fault Refusal :=
  .next (answer .badOp s)

end Sys2Proof.Machine
end

