-- ==== Sys2Proof/Machine/Intake.lean ====
section
/-!
DEFINITION. The Intake Buffer's port operation (40_intake_buffer.md).
-/

namespace Sys2Proof.Machine

/-- PUSH (R131): performed in every state, halted or not. A write cursor that is no cell of the ring stops the machine. -/
def execPush (b : Byte) (s : State) : Host.Outcome State Fault Refusal :=
  if s.wr < s.cfg.n then .next (answer .none (pushByte b s)) else .fault .cursorOutOfRange

end Sys2Proof.Machine
end

