-- ==== Sys2Proof/Machine/Ledger.lean ====
section
/-!
DEFINITION. The Pending-Request Ledger's port operations (45_ledger.md). REGISTER, RESOLVE and SWEEP do nothing while
halted; the drains and queries work (R291, R311).
-/

namespace Sys2Proof.Machine

/-- REGISTER (R281). -/
def execRegister (cls id : Byte) (ts : Word) (s : State) : Host.Outcome State Fault Refusal :=
  .next (answer .none (if s.halted then s else registerEntry cls id ts s))

/-- RESOLVE (R282). -/
def execResolve (cls id : Byte) (s : State) : Host.Outcome State Fault Refusal :=
  .next (answer .none (if s.halted then s else resolveKey cls id s))

/-- SWEEP (R284). -/
def execSweep (now timeout : Word) (s : State) : Host.Outcome State Fault Refusal :=
  .next (answer .none (if s.halted then s else ledgerSweep now timeout s))

/-- DRAIN_FAILURES (R285). -/
def execDrainFailures (s : State) : Host.Outcome State Fault Refusal :=
  .next (answer (.failures s.failed) { s with failed := [] })

/-- DRAIN_FAILED (R286). -/
def execDrainFailed (cls id : Byte) (s : State) : Host.Outcome State Fault Refusal :=
  .next (answer (.failures (s.failed.filter (fun e => e.hasKey cls id)))
    { s with failed := s.failed.filter (fun e => !e.hasKey cls id) })

/-- QUERY_AWAITED (R287). -/
def execQueryAwaited (cls id : Byte) (s : State) : Host.Outcome State Fault Refusal :=
  .next (answer (.count (s.awaited.countP (fun e => e.hasKey cls id))) s)

/-- QUERY_FAILED (R288). -/
def execQueryFailed (cls id : Byte) (s : State) : Host.Outcome State Fault Refusal :=
  .next (answer (.counts (s.failed.countP (fun e => e.hasKey cls id && e.reason = .nak))
    (s.failed.countP (fun e => e.hasKey cls id && e.reason = .timeout))) s)

end Sys2Proof.Machine
end

