-- ==== Sys2Proof/Machine/Outbound.lean ====
section
/-!
DEFINITION. The Outbound Frame Builder's port operation (44_outbound_builder.md).
-/

namespace Sys2Proof.Machine

/-- SEND refuses the request (R271, first line): halted, or a payload above `TX_PAYLOAD_CAP`. -/
def sendRefused (payload : Bytes) (s : State) : Bool := s.halted || s.cfg.txPayloadCap < payload.length

/-- SEND (R271): the frame is handed over before the entry is registered; registration depends on `expect` alone, and the
result is the transport's answer even when registration faults. -/
def execSend (cls id : Byte) (expect accept : Bool) (now : Word) (payload : Bytes) (s : State) :
    Host.Outcome State Fault Refusal :=
  if sendRefused payload s then .next (answer (.sent false none) s)
  else
    .next (answer (.sent accept (if accept then some (buildFrame s.cfg cls id payload) else none))
      (if expect then registerEntry cls id now s else s))

end Sys2Proof.Machine
end

