-- ==== Sys2Proof/Machine/Dispatch.lean ====
section
/-!
DEFINITION. The meaning of every instruction: one arm per constructor of Instr.
-/

namespace Sys2Proof.Machine

def exec (i : Instr) (s : State) : Host.Outcome State Fault Refusal :=
  match i with
  | .nop => Sys2Proof.Machine.execNop s
  | .push b => Sys2Proof.Machine.execPush b s
  | .tick now => Sys2Proof.Machine.execTick now s
  | .send cls id expect accept now payload => Sys2Proof.Machine.execSend cls id expect accept now payload s
  | .register cls id ts => Sys2Proof.Machine.execRegister cls id ts s
  | .resolve cls id => Sys2Proof.Machine.execResolve cls id s
  | .sweep now timeout => Sys2Proof.Machine.execSweep now timeout s
  | .drainFailures => Sys2Proof.Machine.execDrainFailures s
  | .drainFailed cls id => Sys2Proof.Machine.execDrainFailed cls id s
  | .queryAwaited cls id => Sys2Proof.Machine.execQueryAwaited cls id s
  | .queryFailed cls id => Sys2Proof.Machine.execQueryFailed cls id s
  | .readFix => Sys2Proof.Machine.execReadFix s
  | .readSv => Sys2Proof.Machine.execReadSv s
  | .readFlags => Sys2Proof.Machine.execReadFlags s
  | .clearFlags mask => Sys2Proof.Machine.execClearFlags mask s
  | .readStatus => Sys2Proof.Machine.execReadStatus s
  | .readVersion => Sys2Proof.Machine.execReadVersion s
  | .powerOff => Sys2Proof.Machine.execPowerOff s
  | .reset => Sys2Proof.Machine.execReset s
  | .reserved port opcode operands => Sys2Proof.Machine.execReserved port opcode operands s
  | .leadSentence now => Sys2Proof.Machine.execLeadSentence now s
  | .leadBinary now => Sys2Proof.Machine.execLeadBinary now s
  | .leadOther b => Sys2Proof.Machine.execLeadOther b s
  | .gpgga span => Sys2Proof.Machine.execGpgga span s
  | .gpgsa span => Sys2Proof.Machine.execGpgsa span s
  | .gpvtg span => Sys2Proof.Machine.execGpvtg span s
  | .gpgsv span => Sys2Proof.Machine.execGpgsv span s
  | .sentenceOther span => Sys2Proof.Machine.execSentenceOther span s
  | .ackAck payload => Sys2Proof.Machine.execAckAck payload s
  | .ackNak payload => Sys2Proof.Machine.execAckNak payload s
  | .monVer payload => Sys2Proof.Machine.execMonVer payload s
  | .ackOther id payload => Sys2Proof.Machine.execAckOther id payload s
  | .monOther id payload => Sys2Proof.Machine.execMonOther id payload s
  | .cfgAny cls id payload => Sys2Proof.Machine.execCfgAny cls id payload s
  | .classUnknown cls id payload => Sys2Proof.Machine.execClassUnknown cls id payload s

end Sys2Proof.Machine
end

