-- ==== Sys2Proof/WellFormed.lean ====
section
/-!
DEFINITION. Which terms of Instr are instructions of the block: operands that the encoding can hold and bytes that
select the row the constructor stands for, under the parameters `c`.
-/

namespace Sys2Proof

open Machine

/-- A span as the framing machine hands it over and the decoder accepts it: `verify` holds, the only `CR` is its last
byte (R191), and its address selects `k` (R200). -/
def spanOf (c : Config) (k : Kind) (span : Bytes) : Bool := verify span && throughCR span = span && kindOf c span = k

/-- A payload an inbound frame can carry: its length fits 16 bits (R101) and the payload buffer (R160). -/
def payloadFits (c : Config) (payload : Bytes) : Bool := payload.length < 65536 && payload.length ≤ c.payloadCap

/-- Well-formedness, constructor by constructor. -/
def Instr.wellFormed (c : Config) : Instr → Bool
  | .nop => true
  | .push _ => true
  | .tick _ => true
  | .send _ _ _ _ _ payload => payload.length < 65536
  | .register _ _ _ => true
  | .resolve _ _ => true
  | .sweep _ _ => true
  | .drainFailures => true
  | .drainFailed _ _ => true
  | .queryAwaited _ _ => true
  | .queryFailed _ _ => true
  | .readFix => true
  | .readSv => true
  | .readFlags => true
  | .clearFlags _ => true
  | .readStatus => true
  | .readVersion => true
  | .powerOff => true
  | .reset => true
  | .reserved port opcode _ => opcodePort opcode ≠ some port
  | .leadSentence _ => true
  | .leadBinary _ => leadClass c c.sync1 = .binary
  | .leadOther b => leadClass c b = .garbage
  | .gpgga span => spanOf c .pos span
  | .gpgsa span => spanOf c .fixq span
  | .gpvtg span => spanOf c .spdhdg span
  | .gpgsv span => spanOf c .sats span
  | .sentenceOther span => spanOf c .other span
  | .ackAck payload => payloadFits c payload && frameKind c c.clsAck c.idAckAck = .ackAck
  | .ackNak payload => payloadFits c payload && frameKind c c.clsAck c.idAckNak = .ackNak
  | .monVer payload => payloadFits c payload && frameKind c c.clsMon c.idMonVer = .monVer
  | .ackOther id payload => payloadFits c payload && frameKind c c.clsAck id = .ackOther
  | .monOther id payload => payloadFits c payload && frameKind c c.clsMon id = .monOther
  | .cfgAny cls id payload => payloadFits c payload && frameKind c cls id = .cfgAny
  | .classUnknown cls id payload => payloadFits c payload && frameKind c cls id = .classUnknown

end Sys2Proof
end

