-- ==== Sys2Proof/Decode.lean ====
section
/-!
DEFINITION. The decoder of the four formats (30_encoding.md R90 to R119), total on any bytes and rejecting by name, and
after it the encoder, written from the same tables.
-/

namespace Sys2Proof

open Machine

/-- Why bytes are no instruction of the form they are read in. -/
inductive DecodeError where
  /-- An operation word without its opcode byte (R110). -/
  | noOpcode
  /-- A defined opcode on its own port, followed by too few or too many operand bytes (R110, R111). -/
  | operandBytes
  /-- A lead byte is one byte (R91). -/
  | notOneByte
  /-- The bytes do not end with the `LF` after the first `CR` (R92, R98). -/
  | noLineEnd
  /-- `verify` is false: marker, structure or checksum (R192). -/
  | notVerified
  /-- The bytes do not start with `SYNC1 SYNC2` and a header (R100). -/
  | noHeader
  /-- The declared length exceeds the payload buffer (R101, R160). -/
  | headerTooLong
  /-- The frame does not have `8 + L` bytes (R106). -/
  | frameLength
  /-- The checksum bytes differ from the computed ones (R102). -/
  | frameChecksum
deriving DecidableEq, Repr

/-! ## Operation words (R110, R111) -/

/-- An operation without operands. -/
def decodeNullary (i : Instr) : Bytes → Except DecodeError Instr
  | [] => .ok i
  | _ => .error .operandBytes

/-- An operation whose operands are a class and an identifier. -/
def decodeKey (mk : Byte → Byte → Instr) : Bytes → Except DecodeError Instr
  | [cls, id] => .ok (mk cls id)
  | _ => .error .operandBytes

/-- SEND (R271): the payload has exactly the declared number of bytes. -/
def decodeSend : Bytes → Except DecodeError Instr
  | cls :: id :: l0 :: l1 :: ee :: aa :: n0 :: n1 :: n2 :: n3 :: payload =>
    if payload.length = (ofLe16 l0 l1).toNat then
      .ok (.send cls id (boolOfByte ee) (boolOfByte aa) (ofLe32 n0 n1 n2 n3) payload)
    else .error .operandBytes
  | _ => .error .operandBytes

/-- The operands of a defined opcode (R110, R111). -/
def decodeOperands (op : Byte) (rest : Bytes) : Except DecodeError Instr :=
  match op.toNat with
  | 0x00 => decodeNullary .nop rest
  | 0x01 =>
    match rest with
    | [b] => .ok (.push b)
    | _ => .error .operandBytes
  | 0x02 =>
    match rest with
    | [n0, n1, n2, n3] => .ok (.tick (ofLe32 n0 n1 n2 n3))
    | _ => .error .operandBytes
  | 0x10 => decodeSend rest
  | 0x11 =>
    match rest with
    | [cls, id, t0, t1, t2, t3] => .ok (.register cls id (ofLe32 t0 t1 t2 t3))
    | _ => .error .operandBytes
  | 0x12 => decodeKey .resolve rest
  | 0x13 =>
    match rest with
    | [n0, n1, n2, n3, d0, d1, d2, d3] => .ok (.sweep (ofLe32 n0 n1 n2 n3) (ofLe32 d0 d1 d2 d3))
    | _ => .error .operandBytes
  | 0x14 => decodeNullary .drainFailures rest
  | 0x15 => decodeKey .drainFailed rest
  | 0x16 => decodeKey .queryAwaited rest
  | 0x17 => decodeKey .queryFailed rest
  | 0x20 => decodeNullary .readFix rest
  | 0x21 => decodeNullary .readSv rest
  | 0x22 => decodeNullary .readFlags rest
  | 0x23 =>
    match rest with
    | [mm] => .ok (.clearFlags (mm.setWidth 4))
    | _ => .error .operandBytes
  | 0x24 => decodeNullary .readStatus rest
  | 0x25 => decodeNullary .readVersion rest
  | 0x30 => decodeNullary .powerOff rest
  | 0x3F => decodeNullary .reset rest
  | _ => .error .noOpcode

/-- An operation word presented on a port. An opcode that is not defined on that port is RESERVED there, whatever
follows it (R113, R114, R310). -/
def decodeOp (port : Port) : Bytes → Except DecodeError Instr
  | [] => .error .noOpcode
  | op :: rest => if opcodePort op = some port then decodeOperands op rest else .ok (.reserved port op rest)

/-! ## Lead bytes, sentences and frames -/

/-- The instruction a lead byte selects, at a TICK of time `now` (R91, R152). -/
def leadInstr (c : Config) (now : Word) (b : Byte) : Instr :=
  match leadClass c b with
  | .sentence => .leadSentence now
  | .binary => .leadBinary now
  | .garbage => .leadOther b

/-- One lead byte. -/
def decodeLead (c : Config) (now : Word) : Bytes → Except DecodeError Instr
  | [b] => .ok (leadInstr c now b)
  | _ => .error .notOneByte

/-- The instruction a verified span selects (R200). -/
def sentenceInstr (c : Config) (span : Bytes) : Instr :=
  match kindOf c span with
  | .pos => .gpgga span
  | .fixq => .gpgsa span
  | .spdhdg => .gpvtg span
  | .sats => .gpgsv span
  | .other => .sentenceOther span

/-- A sentence as it stands on the wire, `'$'` to `LF` (R92, R98, R156). -/
def decodeSentence (c : Config) (bs : Bytes) : Except DecodeError Instr :=
  if afterCR bs = [chLF] then
    (if verify (throughCR bs) then .ok (sentenceInstr c (throughCR bs)) else .error .notVerified)
  else .error .noLineEnd

/-- The instruction a verified frame selects (R243). -/
def frameInstr (c : Config) (cls id : Byte) (payload : Bytes) : Instr :=
  match frameKind c cls id with
  | .ackAck => .ackAck payload
  | .ackNak => .ackNak payload
  | .monVer => .monVer payload
  | .ackOther => .ackOther id payload
  | .monOther => .monOther id payload
  | .cfgAny => .cfgAny cls id payload
  | .classUnknown => .classUnknown cls id payload

/-- The part of a frame after its header: `len` payload bytes and the two checksum bytes (R106, R164). -/
def decodeFrameRest (c : Config) (cls id l0 l1 : Byte) (rest : Bytes) : Except DecodeError Instr :=
  if c.payloadCap < (ofLe16 l0 l1).toNat then .error .headerTooLong
  else
    match rest.drop (ofLe16 l0 l1).toNat with
    | [a, b] =>
      if (a, b) = cksum ([cls, id, l0, l1] ++ rest.take (ofLe16 l0 l1).toNat) then
        .ok (frameInstr c cls id (rest.take (ofLe16 l0 l1).toNat))
      else .error .frameChecksum
    | _ => .error .frameLength

/-- A frame as it stands on the wire, `SYNC1` to `CK_B` (R100). -/
def decodeFrame (c : Config) : Bytes → Except DecodeError Instr
  | s1 :: s2 :: cls :: id :: l0 :: l1 :: rest =>
    if s1 = c.sync1 ∧ s2 = c.sync2 then decodeFrameRest c cls id l0 l1 rest else .error .noHeader
  | _ => .error .noHeader

/-- The decoder: the bytes of one instruction, read in one form. -/
def decode (c : Config) (f : Form) (bs : Bytes) : Except DecodeError Instr :=
  match f with
  | .op port => decodeOp port bs
  | .lead now => decodeLead c now bs
  | .sentence => decodeSentence c bs
  | .frame => decodeFrame c bs

/-! ## The encoder -/

/-- The bytes of an instruction in its own form (`Instr.form`). -/
def encode (c : Config) : Instr → Bytes
  | .nop => [0x00]
  | .push b => [0x01, b]
  | .tick now => 0x02 :: le32 now
  | .send cls id expect accept now payload =>
    [0x10, cls, id] ++ le16 (BitVec.ofNat 16 payload.length) ++ [byteOfBool expect, byteOfBool accept] ++ le32 now ++ payload
  | .register cls id ts => [0x11, cls, id] ++ le32 ts
  | .resolve cls id => [0x12, cls, id]
  | .sweep now timeout => 0x13 :: (le32 now ++ le32 timeout)
  | .drainFailures => [0x14]
  | .drainFailed cls id => [0x15, cls, id]
  | .queryAwaited cls id => [0x16, cls, id]
  | .queryFailed cls id => [0x17, cls, id]
  | .readFix => [0x20]
  | .readSv => [0x21]
  | .readFlags => [0x22]
  | .clearFlags mask => [0x23, mask.setWidth 8]
  | .readStatus => [0x24]
  | .readVersion => [0x25]
  | .powerOff => [0x30]
  | .reset => [0x3F]
  | .reserved _ opcode operands => opcode :: operands
  | .leadSentence _ => [chDollar]
  | .leadBinary _ => [c.sync1]
  | .leadOther b => [b]
  | .gpgga span => span ++ [chLF]
  | .gpgsa span => span ++ [chLF]
  | .gpvtg span => span ++ [chLF]
  | .gpgsv span => span ++ [chLF]
  | .sentenceOther span => span ++ [chLF]
  | .ackAck payload => buildFrame c c.clsAck c.idAckAck payload
  | .ackNak payload => buildFrame c c.clsAck c.idAckNak payload
  | .monVer payload => buildFrame c c.clsMon c.idMonVer payload
  | .ackOther id payload => buildFrame c c.clsAck id payload
  | .monOther id payload => buildFrame c c.clsMon id payload
  | .cfgAny cls id payload => buildFrame c cls id payload
  | .classUnknown cls id payload => buildFrame c cls id payload

/-! ## Words of the opcode table -/

/-- How many operand bytes follow a defined opcode whose operands are all zero (R110). -/
def operandCount (op : Byte) : Nat :=
  match op.toNat with
  | 0x01 => 1
  | 0x02 => 4
  | 0x10 => 10
  | 0x11 => 6
  | 0x12 => 2
  | 0x13 => 8
  | 0x15 => 2
  | 0x16 => 2
  | 0x17 => 2
  | 0x23 => 1
  | _ => 0

/-- The instruction of an answer, none of a rejection. -/
def accepted : Except DecodeError Instr → Option Instr
  | .ok i => some i
  | .error _ => none

/-- A one-byte table word. Formats OP and LEAD both have one-byte rows and the word does not say which is meant
(assumption 3): an opcode of R110 is read as one, on its own port; else `SYNC1` as a lead byte; else RESERVED. -/
def decodeTableByte (b : Byte) : Option Instr :=
  match opcodePort b with
  | some port => accepted (decode .default (.op port) (b :: List.replicate (operandCount b) 0))
  | none => if b = Config.default.sync1 then accepted (decode .default (.lead 0) [b]) else accepted (decode .default (.op .host) [b])

/-- A four-byte table word: the first bytes of a frame, its first byte most significant (R119). The rest of the frame
is zero but for the checksum bytes, without which the block would not take it for a frame (assumption 4). -/
def decodeTableFrame (w : Nat) : Option Instr :=
  match bigEndian 4 w with
  | [s1, s2, cls, id] =>
    accepted (decode .default .frame [s1, s2, cls, id, 0, 0, (cksum [cls, id, 0, 0]).1, (cksum [cls, id, 0, 0]).2])
  | _ => none

/-- A six-byte table word: the first bytes of a sentence, its first byte most significant (R119), closed by the
checksum and the line end (assumption 4). -/
def decodeTableSentence (w : Nat) : Option Instr :=
  accepted (decode .default .sentence
    (bigEndian 6 w ++ [chStar] ++ hex2 (xorAll ((bigEndian 6 w).drop 1)) ++ [chCR, chLF]))

/-- The instruction the decoder reads from a word of spec/opcode_table.json, with the parameters at their defaults:
formats OP and LEAD have one-byte rows, FRAME four-byte rows, SENTENCE six-byte rows (R119). -/
def decodeTableWord (nbits w : Nat) : Option Instr :=
  match nbits with
  | 8 => decodeTableByte (BitVec.ofNat 8 w)
  | 32 => decodeTableFrame w
  | 48 => decodeTableSentence w
  | _ => none

end Sys2Proof
end

