-- ==== Sys2Proof/Machine/Fetch.lean ====
section
/-!
DEFINITION. Where a step finds its operation, and how an instruction is put there. The block fetches nothing: agents
present operations on its ports (20_memory.md R69, R70), and a wire instruction is what a TICK finds in the ring and the
assembler (R76). Assumptions 2 and 4.
-/

namespace Sys2Proof.Machine

/-- The next operation presented, and the state without it. -/
def nextOp (s : State) : Option (PortOp × State) :=
  match s.inbox with
  | [] => none
  | o :: rest => some (o, { s with inbox := rest })

/-- The operation word presented on its port, decoded. -/
def PortOp.decoded (c : Config) (o : PortOp) : Except DecodeError Instr := decode c (.op o.port) o.word

/-- Present an operation ahead of those that wait. -/
def present (o : PortOp) (s : State) : State := { s with inbox := o :: s.inbox }

/-- TICK `now` as the scheduler presents it. -/
def tickOp (now : Word) : PortOp := ⟨.consumer, 0x02 :: le32 now⟩

/-- Store bytes at consecutive cells of a ring of `n` cells. -/
def Memory.writeRing (n : Nat) : Memory → Nat → Bytes → Memory
  | m, _, [] => m
  | m, a, b :: bs => Memory.writeRing n (m.write a b) (nextCell n a) bs

/-- A lead byte as the only unread byte, in `Idle`, with a TICK presented. -/
def placeLead (now : Word) (bs : Bytes) (s : State) : State :=
  present (tickOp now) { s with
    halted := false
    fsm := .idle
    inProgress := false
    buf := s.buf.writeRing s.cfg.n s.sc bs
    ms := s.sc
    wr := (s.sc + bs.length) % s.cfg.n }

/-- A sentence in the ring with only its `LF` unread, in `SentenceLFWait`, with a TICK presented. -/
def placeSentence (bs : Bytes) (s : State) : State :=
  present (tickOp s.msgTime) { s with
    halted := false
    fsm := .sentenceLFWait
    inProgress := true
    buf := s.buf.writeRing s.cfg.n s.sc bs
    ms := s.sc
    sc := (s.sc + (bs.length - 1)) % s.cfg.n
    wr := (s.sc + bs.length) % s.cfg.n }

/-- The assembler with header and payload received and the checksum bytes still to come (R160, R162). -/
def assembled (cls id l0 l1 : Byte) (payload : Bytes) (a : Assembler) : Assembler :=
  { a with
    hdr := #v[cls, id, l0, l1]
    hdrCnt := 4
    rxClass := cls
    rxId := id
    rxLen := ofLe16 l0 l1
    payload := Memory.writeRing (payload.length + 1) [] 0 payload
    payIdx := payload.length
    payRem := 0
    payOwned := true
    ckA := (cksum ([cls, id, l0, l1] ++ payload)).1
    ckB := (cksum ([cls, id, l0, l1] ++ payload)).2
    ckCnt := 0 }

/-- A frame with only its two checksum bytes unread, in `BinChecksumWait`, with a TICK presented. -/
def placeFrame (bs : Bytes) (s : State) : State :=
  match bs with
  | _ :: _ :: cls :: id :: l0 :: l1 :: rest =>
    present (tickOp s.msgTime) { s with
      halted := false
      fsm := .binChecksumWait
      inProgress := true
      buf := s.buf.writeRing s.cfg.n s.sc (rest.drop (ofLe16 l0 l1).toNat)
      ms := s.sc
      wr := (s.sc + 2) % s.cfg.n
      asm := assembled cls id l0 l1 (rest.take (ofLe16 l0 l1).toNat) s.asm }
  | _ => s

/-- Put an instruction where the very next step finds it: an operation word on its port, a wire instruction in the ring
and the assembler with the TICK that decodes it. -/
def place (i : Instr) (s : State) : State :=
  match i.form with
  | .op port => present ⟨port, encode s.cfg i⟩ s
  | .lead now => placeLead now (encode s.cfg i) s
  | .sentence => placeSentence (encode s.cfg i) s
  | .frame => placeFrame (encode s.cfg i) s

end Sys2Proof.Machine
end

