-- ==== Sys2Proof/Machine/Step.lean ====
section
/-!
DEFINITION. One step: one operation of one agent takes its whole effect (20_memory.md R70).
-/

namespace Sys2Proof.Machine

/-- The next operation presented is taken and decoded on its port, and its meaning is applied. With no operation
presented nothing happens: the block does nothing of its own accord (R337). A word that is no operation word is refused. -/
def step (s : State) : Host.Outcome State Fault Refusal :=
  match nextOp s with
  | none => .next s
  | some (o, t) =>
    match o.decoded t.cfg with
    | .ok i => exec i t
    | .error _ => .refused .malformedWord

/-- The state whose next step runs the instruction of a table word (`decodeTableWord`). -/
def State.withFetchWord (s : State) (nbits w : Nat) : State :=
  match decodeTableWord nbits w with
  | none => s
  | some i => place i s

end Sys2Proof.Machine
end

