-- ==== Sys2Proof/Safety.lean ====
section
/-!
DEFINITION. What holds of every state of a sound run, in the terms the statements use: the invariants of 10_state.md R22
to R43, 41_framing_fsm.md R169, R170, 43_binary_decoder.md R240 to R251 and 60_exceptions.md R333, and the agents'
ownership of the state (R336).
-/

namespace Sys2Proof.Machine

/-- Byte arrays in canonical form inside their index spaces (R60), cursors inside the ring (R22). -/
structure RingOk (s : State) : Prop where
  buf_wf : Memory.wf s.buf
  buf_within : Memory.within s.cfg.n s.buf
  payload_wf : Memory.wf s.asm.payload
  payload_within : Memory.within s.cfg.payloadCap s.asm.payload
  wr_lt : s.wr < s.cfg.n
  sc_lt : s.sc < s.cfg.n
  ms_lt : s.ms < s.cfg.n

/-- The states that own the payload buffer (R251). -/
def Framing.owning : Framing → Bool
  | .binPayloadWait | .binChecksumWait => true
  | .idle | .sentenceWait | .sentenceLFWait | .binSyncWait | .binHeaderWait | .error => false

/-- The states in which `ms = sc` (R169). -/
def Framing.anchored : Framing → Bool
  | .idle | .binSyncWait | .binHeaderWait | .binPayloadWait | .binChecksumWait => true
  | .sentenceWait | .sentenceLFWait | .error => false

/-- Cursors, `in_progress`, ownership and the error code against the framing state (R169, R170, R251, R322). -/
structure FramingOk (s : State) : Prop where
  anchored : s.fsm.anchored = true → s.ms = s.sc
  progress : s.inProgress = true ↔ s.fsm ≠ .idle
  owned : s.fsm.owning = true → s.asm.payOwned = true
  released : s.asm.payOwned = true → s.fsm.owning = true ∨ s.fsm = .error
  coded : s.fsm = .error → s.errCode ≠ .none

/-- The header, once it is complete, is what the assembler holds, and the length is acceptable (R27, R160). -/
structure HeaderHeld (s : State) : Prop where
  count : s.asm.hdrCnt = 4
  cls : s.asm.rxClass = s.asm.hdr[0]
  id : s.asm.rxId = s.asm.hdr[1]
  len : s.asm.rxLen = ofLe16 s.asm.hdr[2] s.asm.hdr[3]
  fits : s.asm.rxLen.toNat ≤ s.cfg.payloadCap

/-- The two running accumulators together (R29). -/
def Assembler.ck (a : Assembler) : Byte × Byte := (a.ckA, a.ckB)

/-- The bytes the running checksum of a complete header and `k` payload bytes covers (R164). -/
def State.covered (s : State) (k : Nat) : Bytes := s.asm.hdr.toList ++ s.asm.payload.slice 0 k

/-- The assembler in the three states in which it means something (R30): counts in range, and the running checksum equal
to the one recomputed over the bytes received (R164, R242). -/
structure AssemblerOk (s : State) : Prop where
  header : s.fsm = .binHeaderWait → s.asm.hdrCnt < 4 ∧ s.asm.ck = cksum (s.asm.hdr.toList.take s.asm.hdrCnt)
  payload : s.fsm = .binPayloadWait → HeaderHeld s ∧ s.asm.payIdx + s.asm.payRem = s.asm.rxLen.toNat ∧
    s.asm.ck = cksum (s.covered s.asm.payIdx)
  checksum : s.fsm = .binChecksumWait → HeaderHeld s ∧ s.asm.ckCnt < 2 ∧
    s.asm.ck = cksum (s.covered s.asm.rxLen.toNat)

/-- `halted` and the fault register (R32, R33, R333): at most one bit, set together with `halted`; the class fault, which a
TICK alone raises, halts in `Idle` with the buffer released (a full queue can halt in any state: assumption 8). -/
structure FaultOk (s : State) : Prop where
  together : s.halted = true ↔ s.faultReg ≠ 0
  single : s.faultReg ≠ FAULT_CLASS ||| FAULT_RESOURCE
  unset : s.faultReg ≠ FAULT_CLASS → s.faultClass = 0 ∧ s.faultId = 0
  idle : s.faultReg = FAULT_CLASS → s.fsm = .idle ∧ s.asm.payOwned = false

/-- A queue of `len` entries within a capacity; `none` is no bound (R8). -/
def withinCap (cap : Option Nat) (len : Nat) : Prop := ∀ k ∈ cap, len ≤ k

/-- Table and queue sizes, and the fix tag (R35, R39, R41, R43). -/
structure TablesOk (s : State) : Prop where
  sv0 : s.sv0.length = s.cfg.svCap
  sv1 : s.sv1.length = s.cfg.svCap
  awaited : withinCap s.cfg.awaitCap s.awaited.length
  failed : withinCap s.cfg.failCap s.failed.length
  sw : s.ver.sw.length = s.cfg.verSwLen.toNat
  hw : s.ver.hw.length = s.cfg.verHwLen.toNat
  tag : s.fix.fixQ ≠ FIX_2D ||| FIX_3D

/-- The lengths of the display strings (R36). -/
structure TextOk (s : State) : Prop where
  lat : s.fix.latStr.length ≤ s.cfg.maxField + 7
  lon : s.fix.lonStr.length ≤ s.cfg.maxField + 7
  alt : s.fix.altStr.length ≤ s.cfg.maxField + s.cfg.sufAlt.length
  spd : s.fix.spdStr.length ≤ s.cfg.maxField + s.cfg.sufSpd.length
  hdg : s.fix.hdgStr.length ≤ s.cfg.maxField + s.cfg.sufHdg.length
  used : s.fix.satsUsedStr.length ≤ s.cfg.maxField
  tracked : s.fix.satsTrkStr.length ≤ s.cfg.maxField

/-- Everything above but the text lengths, which need a configured `MAX_FIELD`. -/
structure Sound (s : State) : Prop where
  ring : RingOk s
  framing : FramingOk s
  assembler : AssemblerOk s
  fault : FaultOk s
  tables : TablesOk s

/-- The order of the cursors (R23): `ms`, then `sc`, then `wr`, in at most `N - 1` cells. -/
def CursorOrder (s : State) : Prop := dist s.cfg.n s.ms s.sc + dist s.cfg.n s.sc s.wr ≤ s.cfg.n - 1

/-- A sentence in progress starts at its `'$'` (R169). -/
def SentenceAnchored (s : State) : Prop :=
  s.fsm = .sentenceWait ∨ s.fsm = .sentenceLFWait → s.buf.read s.ms = chDollar ∧ 1 ≤ dist s.cfg.n s.ms s.sc

/-- The instruction is an overrunning PUSH in this state (R134). -/
def overruns (s : State) : Instr → Bool
  | .push _ => s.overrunsNext
  | .nop | .tick _ | .send .. | .register .. | .resolve .. | .sweep .. | .drainFailures | .drainFailed .. => false
  | .queryAwaited .. | .queryFailed .. | .readFix | .readSv | .readFlags | .clearFlags _ | .readStatus => false
  | .readVersion | .powerOff | .reset | .reserved .. | .leadSentence _ | .leadBinary _ | .leadOther _ => false
  | .gpgga _ | .gpgsa _ | .gpvtg _ | .gpgsv _ | .sentenceOther _ => false
  | .ackAck _ | .ackNak _ | .monVer _ | .ackOther .. | .monOther .. | .cfgAny .. | .classUnknown .. => false

/-- The instruction is an operation of a port: what `step` can run (R110). -/
def isOperation (i : Instr) : Bool :=
  match i.form with
  | .op _ => true
  | .lead _ | .sentence | .frame => false

/-- TICKs at the given times, one after another, and nothing else; none when one of them does not complete. -/
def tickRun : List Word → State → Option State
  | [], s => some s
  | now :: rest, s =>
    match exec (.tick now) s with
    | .next t => tickRun rest t
    | .fault _ => none
    | .refused _ => none

/-- Times that each come more than `limit` after the one before (R173: "with `now` advancing") and by less than `2^31`
(the clock of R16). -/
def spacedBy (limit : Word) : Word → List Word → Prop
  | _, [] => True
  | t, now :: rest => expired now t limit = true ∧ (age now t).toNat < 2 ^ 31 ∧ spacedBy limit now rest

/-- A TICK of this state runs the rule of `st` (R150): not halted, the cursors are cells of the ring. -/
def State.runs (s : State) (st : Framing) : Prop := s.halted = false ∧ s.cursorsInRange = true ∧ s.fsm = st

/-- The operation is a TICK, or a PUSH of a byte that is neither `'$'` nor `SYNC1` (R172). -/
def isGarbageTraffic (c : Config) (o : PortOp) : Prop :=
  (∃ now, o = tickOp now) ∨ ∃ b, leadClass c b = .garbage ∧ o = ⟨.producer, [0x01, b]⟩

end Sys2Proof.Machine
end

