-- ==== Sys2Proof/Certificates/Slice0/Obligations.lean ====
section
/-!
DEFINITION. The statements put to the provers: encodings, what each instruction does and leaves alone, where a TICK
completes and where it stops, the invariants every step keeps, and the run properties the spec states.
-/

open Sys2Proof Sys2Proof.Machine

/-! ## Encodings -/

/-- R110, R111, R91, R92, R100: five words written out from the encoding tables decode to what they stand for. -/
def Obligations.WrittenWordsDecode : Prop :=
  decode .default (.op .consumer) [0x02, 0x6F, 0, 0, 0] = .ok (.tick 111) ∧
  decode .default (.op .host) [0x10, 0x06, 0x24, 0x01, 0x00, 0x01, 0x00, 0x07, 0, 0, 0, 0xAA] =
    .ok (.send 0x06 0x24 true false 7 [0xAA]) ∧
  decode .default (.lead 9) [0xB5] = .ok (.leadBinary 9) ∧
  decode .default .sentence
      [0x24, 0x47, 0x50, 0x47, 0x53, 0x41, 0x2C, 0x41, 0x2C, 0x33, 0x2A, 0x33, 0x30, 0x0D, 0x0A] =
    .ok (.gpgsa [0x24, 0x47, 0x50, 0x47, 0x53, 0x41, 0x2C, 0x41, 0x2C, 0x33, 0x2A, 0x33, 0x30, 0x0D]) ∧
  decode .default .frame [0xB5, 0x62, 0x05, 0x00, 0x02, 0x00, 0x06, 0x01, 0x0E, 0x33] = .ok (.ackNak [0x06, 0x01])

/-- R110, R91, R92, R100: what the encoder writes for a well-formed instruction, the decoder reads back, with every
operand at every value the encoding admits, under any parameters. -/
def Obligations.EncodedInstructionDecodesBack : Prop :=
  ∀ (c : Config) (i : Instr), i.wellFormed c = true → decode c i.form (encode c i) = .ok i

/-- R110, R114, R91, R95, R103: what the decoder accepts is well-formed, and a wire instruction is written by exactly the
bytes it was read from. (Operation words have ignored bits, R111, so only wire instructions are unique.) -/
def Obligations.AcceptedBytesAreWellFormed : Prop :=
  ∀ (c : Config) (f : Form) (bs : Bytes) (i : Instr), decode c f bs = .ok i →
    i.wellFormed c = true ∧ ((∀ port, f ≠ .op port) → encode c i = bs)

/-- R310: an opcode that is not defined on the port it is presented on is refused with `bad_op = 1`, whatever follows it,
and changes no state; no defined operation answers `bad_op = 1`. Which opcodes are defined, and on which port, is the table
of R110. -/
def Obligations.OpcodeOffItsPortIsRefused : Prop :=
  (∀ (port : Port) (op : Byte), opcodePort op = some port ↔
    port = .producer ∧ op = 0x01 ∨ port = .consumer ∧ op = 0x02 ∨
      port = .host ∧ op ∈ ([0x00, 0x10, 0x11, 0x12, 0x13, 0x14, 0x15, 0x16, 0x17, 0x20, 0x21, 0x22, 0x23, 0x24, 0x25, 0x30,
        0x3F] : Bytes)) ∧
  ∀ (c : Config) (port : Port) (op : Byte) (rest : Bytes), opcodePort op ≠ some port →
    decode c (.op port) (op :: rest) = .ok (.reserved port op rest) ∧
    (∀ s : State, exec (.reserved port op rest) s = .next { s with result := .badOp }) ∧
    ∀ (i : Instr) (s t : State), isOperation i = true → exec i s = .next t → t.result = .badOp →
      ∃ p o bs, i = .reserved p o bs

/-! ## The step -/

/-- R70: one step takes one operation of one agent and applies its whole meaning. That operations are presented through
`inbox`, that nothing happens without one and that bytes which are no operation word are refused are the model's choices
(assumption 2). -/
def Obligations.StepRunsPresentedOperation : Prop :=
  (∀ (s : State) (o : PortOp) (rest : List PortOp) (i : Instr), s.inbox = o :: rest →
    decode s.cfg (.op o.port) o.word = .ok i → step s = exec i { s with inbox := rest }) ∧
  (∀ s : State, s.inbox = [] → step s = .next s) ∧
  ∀ (s : State) (o : PortOp) (rest : List PortOp) (e : DecodeError), s.inbox = o :: rest →
    decode s.cfg (.op o.port) o.word = .error e → step s = .refused .malformedWord

/-! ## The intake buffer -/

/-- R131: PUSH stores the byte at `wr`, advances `wr`, zeroes the cell moved into, and changes nothing else; in a ring of
one cell the zeroing is what remains. -/
def Obligations.PushStoresByteAndZeroesNext : Prop :=
  (∀ (c : Config) (b : Byte), decode c (.op .producer) [0x01, b] = .ok (.push b)) ∧
  ∀ (s : State) (b : Byte), s.wr < s.cfg.n → Memory.wf s.buf →
    ∃ t, exec (.push b) s = .next t ∧
      t = { s with result := .none, buf := t.buf, wr := nextCell s.cfg.n s.wr } ∧
      t.buf.read (nextCell s.cfg.n s.wr) = 0 ∧
      (nextCell s.cfg.n s.wr ≠ s.wr → t.buf.read s.wr = b) ∧
      ∀ a, a ≠ s.wr → a ≠ nextCell s.cfg.n s.wr → t.buf.read a = s.buf.read a

/-- R134: an overrunning PUSH leaves `wr = ms` with that cell zeroed; with `ms = sc` the buffer then looks empty. -/
def Obligations.OverrunLosesTheOldestByte : Prop :=
  ∀ (s : State) (b : Byte), s.cursorsInRange = true → Memory.wf s.buf → s.overrunsNext = true →
    ∃ t, exec (.push b) s = .next t ∧ t.wr = t.ms ∧ t.ms = s.ms ∧ t.sc = s.sc ∧ t.buf.read s.ms = 0 ∧
      (s.ms = s.sc → t.avail = 0)

/-! ## Where a TICK completes and where it stops -/

/-- R150: a TICK completes while halted, and otherwise wherever the cursors are cells of the ring and the payload indices
are those of a payload that fits its buffer (R28, R160); its time is little-endian (R111). -/
def Obligations.TickCompletes : Prop :=
  (∀ (c : Config) (n0 n1 n2 n3 : Byte),
    decode c (.op .consumer) [0x02, n0, n1, n2, n3] = .ok (.tick (n3 ++ n2 ++ n1 ++ n0))) ∧
  ∀ (s : State) (now : Word),
    s.halted = true ∨ (s.cursorsInRange = true ∧
      (s.fsm = .binPayloadWait → s.asm.payIdx + s.asm.payRem ≤ s.cfg.payloadCap) ∧
      (s.fsm = .binChecksumWait → s.asm.rxLen.toNat ≤ s.cfg.payloadCap)) →
    ∃ t, exec (.tick now) s = .next t

/-- The model's choice (assumption 6): in states no run reaches, an access to a cell that R60 does not have is a fault. -/
def Obligations.AccessOutsideArraysStops : Prop :=
  (∀ (s : State) (b : Byte), s.cfg.n ≤ s.wr → exec (.push b) s = .fault .cursorOutOfRange) ∧
  (∀ (s : State) (now : Word), s.halted = false → s.cursorsInRange = false →
    exec (.tick now) s = .fault .cursorOutOfRange) ∧
  (∀ (s : State) (now : Word), s.runs .binPayloadWait → s.sc ≠ s.wr → 0 < s.asm.payRem →
    s.cfg.payloadCap < s.asm.payIdx + min s.asm.payRem s.avail →
    exec (.tick now) s = .fault .payloadIndexOutOfRange) ∧
  ∀ (s : State) (now : Word) (rest : Bytes), s.runs .binChecksumWait → s.asm.ckCnt = 0 →
    s.unread = s.asm.ckA :: s.asm.ckB :: rest → s.cfg.payloadCap < s.asm.rxLen.toNat →
    exec (.tick now) s = .fault .payloadIndexOutOfRange

/-! ## The states of the framing machine -/

/-- R151: a TICK of a waiting state with no byte does nothing until strictly more than `T_RX` has passed since `msg_time`;
then it raises the timeout. -/
def Obligations.StarvedTickTimesOutStrictly : Prop :=
  ∀ (s : State) (now : Word), s.halted = false → s.cursorsInRange = true → s.sc = s.wr →
    s.fsm ≠ .idle → s.fsm ≠ .error → (s.fsm = .binPayloadWait → 0 < s.asm.payRem) →
    exec (.tick now) s = .next (if s.cfg.tRx < now - s.msgTime
      then { s with result := .none, errCode := .timeout, fsm := .error } else { s with result := .none })

/-- R152, R153: an `Idle` TICK sweeps the Ledger with `T_RESP`; unless that halted the block, the lead byte, if there is
one, has its meaning. -/
def Obligations.IdleTickSweepsThenClassifies : Prop :=
  ∀ (s : State) (now : Word), s.runs .idle →
    exec (.tick now) s =
      if (ledgerSweep now s.cfg.tResp s).halted = true then
        .next { ledgerSweep now s.cfg.tResp s with result := .none }
      else
        match s.unread with
        | [] => .next { ledgerSweep now s.cfg.tResp s with result := .none }
        | b :: _ => exec (leadInstr s.cfg now b) { ledgerSweep now s.cfg.tResp s with result := .none }

/-- R152, R91: `'$'`, tested first, opens a sentence with `ms` left on it, `SYNC1` opens a frame, any other byte is stepped
past. -/
def Obligations.LeadBytesOpenMessages : Prop :=
  (∀ (c : Config) (now : Word) (b : Byte),
    leadInstr c now b =
      (if b = 0x24 then .leadSentence now else if b = c.sync1 then .leadBinary now else .leadOther b) ∧
    decode c (.lead now) [b] = .ok (leadInstr c now b)) ∧
  (∀ (s : State) (now : Word), exec (.leadSentence now) s = .next { s with
    sc := nextCell s.cfg.n s.sc, inProgress := true, msgTime := now, fsm := .sentenceWait }) ∧
  (∀ (s : State) (now : Word), exec (.leadBinary now) s = .next { s with
    sc := nextCell s.cfg.n s.sc, ms := nextCell s.cfg.n s.sc, inProgress := true, msgTime := now, fsm := .binSyncWait }) ∧
  ∀ (s : State) (b : Byte), exec (.leadOther b) s = .next { s with
    sc := nextCell s.cfg.n s.sc, ms := nextCell s.cfg.n s.sc }

/-- R154: every available byte up to and including the first `CR` is consumed, `ms` does not move, and only a `CR` moves
the machine on. The available bytes are the cells from `sc` up to `wr` (R135), the span those from `ms` up to `sc` (R136). -/
def Obligations.SentenceTickConsumesThroughCR : Prop :=
  (∀ (s : State) (now : Word), s.runs .sentenceWait → s.sc ≠ s.wr →
    exec (.tick now) s = .next { s with
      result := .none
      msgTime := now
      sc := (s.sc + (throughCR s.unread).length) % s.cfg.n
      fsm := if 0x0D ∈ s.unread then .sentenceLFWait else .sentenceWait }) ∧
  (∀ bs : Bytes, throughCR bs = bs.takeWhile (· ≠ 0x0D) ++ if 0x0D ∈ bs then [0x0D] else []) ∧
  ∀ s : State,
    s.unread.length = (s.wr + s.cfg.n - s.sc) % s.cfg.n ∧
    (∀ k, k < s.unread.length → s.unread[k]? = some (s.buf.read ((s.sc + k) % s.cfg.n))) ∧
    s.span.length = (s.sc + s.cfg.n - s.ms) % s.cfg.n ∧
    ∀ k, k < s.span.length → s.span[k]? = some (s.buf.read ((s.ms + k) % s.cfg.n))

/-- R156, R190: at an `LF` the instruction of a verified span has its meaning and the machine returns to `Idle`; a span
that fails `verify` is dropped without a code; any other byte raises `ERR_NO_LF`. The byte itself is not consumed. Which
instruction a span has is decided by its field 0: the first entry of `ADDR_TABLE` equal to it (R95, R200; under
`MAX_FIELD = 5` see assumption 9), and SENTENCE_OTHER where none is (R201). -/
def Obligations.LineFeedDecidesSentence : Prop :=
  (∀ (s : State) (now : Word) (b : Byte) (rest : Bytes), s.runs .sentenceLFWait → s.unread = b :: rest →
    (b = 0x0A → verify s.span = true → ∃ u,
      exec (sentenceInstr s.cfg s.span) { s with result := .none } = .next u ∧
      exec (.tick now) s = .next { u with ms := s.sc, inProgress := false, fsm := .idle }) ∧
    (b = 0x0A → verify s.span = false →
      exec (.tick now) s = .next { s with result := .none, ms := s.sc, inProgress := false, fsm := .idle }) ∧
    (b ≠ 0x0A →
      exec (.tick now) s = .next { s with result := .none, ms := s.sc, errCode := .noLF, fsm := .error })) ∧
  ∀ (c : Config) (span : Bytes),
    (field c span 0 = c.addrPos → sentenceInstr c span = .gpgga span) ∧
    (field c span 0 ≠ c.addrPos → field c span 0 = c.addrFixq → sentenceInstr c span = .gpgsa span) ∧
    (field c span 0 ≠ c.addrPos → field c span 0 ≠ c.addrFixq → field c span 0 = c.addrSpdhdg →
      sentenceInstr c span = .gpvtg span) ∧
    (field c span 0 ≠ c.addrPos → field c span 0 ≠ c.addrFixq → field c span 0 ≠ c.addrSpdhdg →
      field c span 0 = c.addrSats → sentenceInstr c span = .gpgsv span) ∧
    (field c span 0 ∉ [c.addrPos, c.addrFixq, c.addrSpdhdg, c.addrSats] → sentenceInstr c span = .sentenceOther span)

/-- R158: `SYNC2` is consumed and clears the header count and the running checksum; any other byte is left in the ring
and raises `ERR_SYNC2`. -/
def Obligations.SecondSyncByteStartsHeader : Prop :=
  ∀ (s : State) (now : Word) (b : Byte) (rest : Bytes), s.runs .binSyncWait → s.unread = b :: rest →
    (b = s.cfg.sync2 → exec (.tick now) s = .next { s with
      result := .none
      sc := nextCell s.cfg.n s.sc
      ms := nextCell s.cfg.n s.sc
      msgTime := now
      asm := { s.asm with hdrCnt := 0, ckA := 0, ckB := 0 }
      fsm := .binHeaderWait }) ∧
    (b ≠ s.cfg.sync2 → exec (.tick now) s = .next { s with result := .none, errCode := .sync2, fsm := .error })

/-- R160, R27: however many header bytes have come before, the waiting ones, up to the fourth, are consumed, stored in order
and summed. With fewer than four the machine keeps waiting; at the fourth the little-endian length is read, and the payload
buffer is taken or `ERR_HEADER` raised. -/
def Obligations.FourHeaderBytesSetLength : Prop :=
  ∀ (s : State) (now : Word) (taken : Bytes), s.runs .binHeaderWait → s.asm.hdrCnt < 4 → s.sc ≠ s.wr →
    taken = s.unread.take (4 - s.asm.hdrCnt) →
    ∃ t, exec (.tick now) s = .next t ∧
      t = { s with
        result := .none, sc := t.sc, ms := t.ms, msgTime := now, asm := t.asm, fsm := t.fsm, errCode := t.errCode } ∧
      t.sc = (s.sc + taken.length) % s.cfg.n ∧ t.ms = t.sc ∧
      t.asm = { s.asm with
        hdr := t.asm.hdr, hdrCnt := s.asm.hdrCnt + taken.length
        rxClass := t.asm.rxClass, rxId := t.asm.rxId, rxLen := t.asm.rxLen
        ckA := (taken.foldl cksumStep s.asm.ck).1, ckB := (taken.foldl cksumStep s.asm.ck).2
        payOwned := t.asm.payOwned, payIdx := t.asm.payIdx, payRem := t.asm.payRem } ∧
      (∀ k, k < 4 → t.asm.hdr.toList.getD k 0 =
        if s.asm.hdrCnt ≤ k ∧ k < s.asm.hdrCnt + taken.length then taken.getD (k - s.asm.hdrCnt) 0
        else s.asm.hdr.toList.getD k 0) ∧
      (s.asm.hdrCnt + taken.length < 4 → t.fsm = .binHeaderWait ∧ t.errCode = s.errCode ∧
        t.asm.rxClass = s.asm.rxClass ∧ t.asm.rxId = s.asm.rxId ∧ t.asm.rxLen = s.asm.rxLen ∧
        t.asm.payOwned = s.asm.payOwned ∧ t.asm.payIdx = s.asm.payIdx ∧ t.asm.payRem = s.asm.payRem) ∧
      (s.asm.hdrCnt + taken.length = 4 →
        t.asm.rxClass = t.asm.hdr[0] ∧ t.asm.rxId = t.asm.hdr[1] ∧
        t.asm.rxLen.toNat = t.asm.hdr[2].toNat + 256 * t.asm.hdr[3].toNat ∧
        (t.asm.rxLen.toNat ≤ s.cfg.payloadCap → t.fsm = .binPayloadWait ∧ t.errCode = s.errCode ∧
          t.asm.payOwned = true ∧ t.asm.payIdx = 0 ∧ t.asm.payRem = t.asm.rxLen.toNat) ∧
        (s.cfg.payloadCap < t.asm.rxLen.toNat → t.fsm = .error ∧ t.errCode = .header ∧
          t.asm.payOwned = s.asm.payOwned ∧ t.asm.payIdx = s.asm.payIdx ∧ t.asm.payRem = s.asm.payRem))

/-- R162: the waiting payload bytes, up to the count still to come, are copied and summed in order; at the last one the
machine waits for the checksum. Every other byte of the payload buffer stays. -/
def Obligations.PayloadTickCopiesBytes : Prop :=
  ∀ (s : State) (now : Word) (taken : Bytes), s.runs .binPayloadWait → Memory.wf s.asm.payload →
    s.asm.payIdx + s.asm.payRem ≤ s.cfg.payloadCap → 0 < s.asm.payRem → s.sc ≠ s.wr →
    taken = s.unread.take s.asm.payRem →
    ∃ t, exec (.tick now) s = .next t ∧
      t = { s with
        result := .none
        sc := (s.sc + taken.length) % s.cfg.n
        ms := (s.sc + taken.length) % s.cfg.n
        msgTime := now
        fsm := if s.asm.payRem = taken.length then .binChecksumWait else .binPayloadWait
        asm := { s.asm with
          payload := t.asm.payload
          payIdx := s.asm.payIdx + taken.length
          payRem := s.asm.payRem - taken.length
          ckA := (taken.foldl cksumStep s.asm.ck).1
          ckB := (taken.foldl cksumStep s.asm.ck).2
          ckCnt := if s.asm.payRem = taken.length then 0 else s.asm.ckCnt } } ∧
      (∀ k, k < taken.length → t.asm.payload.read (s.asm.payIdx + k) = taken.getD k 0) ∧
      ∀ a, a < s.asm.payIdx ∨ s.asm.payIdx + taken.length ≤ a → t.asm.payload.read a = s.asm.payload.read a

/-- R162, decision D13: an empty rest of a payload takes one TICK that consumes nothing and tests no timeout. -/
def Obligations.EmptyPayloadTickGoesOn : Prop :=
  ∀ (s : State) (now : Word), s.runs .binPayloadWait → s.asm.payRem = 0 →
    exec (.tick now) s = .next { s with
      result := .none, asm := { s.asm with ckCnt := 0 }, fsm := .binChecksumWait }

/-- R164: a checksum byte that comes alone is stored and waited on. With the second one, whether both wait or the first came
in an earlier TICK, bytes equal to the running checksum let the frame's instruction have its meaning, after which the buffer
is released and the machine is in `Idle`; other bytes raise `ERR_CKSUM`. Which instruction a frame has is decided by its
class, then its identifier (R103, R243); a class outside `KNOWN_CLASSES` is the unknown one (R249). -/
def Obligations.ChecksumBytesDecideFrame : Prop :=
  (∀ (c : Config) (cls id : Byte) (payload : Bytes), frameInstr c cls id payload =
    if cls = c.clsAck then
      if id = c.idAckAck then .ackAck payload else if id = c.idAckNak then .ackNak payload else .ackOther id payload
    else if cls = c.clsMon then if id = c.idMonVer then .monVer payload else .monOther id payload
    else if cls ∈ c.knownClasses then .cfgAny cls id payload
    else .classUnknown cls id payload) ∧
  (∀ (s : State) (now : Word) (a : Byte), s.runs .binChecksumWait → s.asm.ckCnt = 0 → s.unread = [a] →
    exec (.tick now) s = .next { s with
      result := .none, msgTime := now, sc := (s.sc + 1) % s.cfg.n, ms := (s.sc + 1) % s.cfg.n
      asm := { s.asm with rxCk := #v[a, s.asm.rxCk[1]], ckCnt := 1 } }) ∧
  ∀ (s : State) (now : Word) (a b : Byte) (rest : Bytes) (k : Nat), s.runs .binChecksumWait →
    (s.asm.ckCnt = 0 ∧ s.unread = a :: b :: rest ∧ k = 2) ∨
      (s.asm.ckCnt = 1 ∧ s.asm.rxCk[0] = a ∧ s.unread = b :: rest ∧ k = 1) →
    ((a, b) = s.asm.ck → s.asm.rxLen.toNat ≤ s.cfg.payloadCap → ∃ u,
      exec (frameInstr s.cfg s.asm.rxClass s.asm.rxId s.rxPayload) { s with
        result := .none, msgTime := now, sc := (s.sc + k) % s.cfg.n, ms := (s.sc + k) % s.cfg.n
        asm := { s.asm with rxCk := #v[a, b], ckCnt := 2 } } = .next u ∧
      exec (.tick now) s = .next { u with
        asm := { u.asm with payOwned := false }, inProgress := false, fsm := .idle }) ∧
    ((a, b) ≠ s.asm.ck → exec (.tick now) s = .next { s with
      result := .none, msgTime := now, sc := (s.sc + k) % s.cfg.n, ms := (s.sc + k) % s.cfg.n
      asm := { s.asm with rxCk := #v[a, b], ckCnt := 2 }, errCode := .cksum, fsm := .error })

/-- R166: the Error TICK records the code, counts it, releases the payload buffer, clears `in_progress`, closes the span
and goes to `Idle`, whatever bytes wait and whatever the time. -/
def Obligations.ErrorTickRecordsAndReturns : Prop :=
  ∀ (s : State) (now : Word), s.runs .error →
    exec (.tick now) s = .next { s with
      result := .none
      errLast := s.errCode
      errCount := s.errCount + 1
      asm := { s.asm with payOwned := false }
      inProgress := false
      ms := s.sc
      fsm := .idle }

/-- R168, R321: from each state a TICK goes only where the table goes, with the code the table gives, and a timeout only
with no byte and an age above `T_RX`; only the Error TICK counts an error (R323). -/
def Obligations.TransitionsFollowTheTable : Prop :=
  ∀ (s t : State) (now : Word), s.halted = false → exec (.tick now) s = .next t →
    t.errCount = (if s.fsm = .error then s.errCount + 1 else s.errCount) ∧
    ((t.fsm = .error → s.fsm ≠ .error → t.errCode = .timeout → s.sc = s.wr ∧ s.cfg.tRx < now - s.msgTime) ∧
    match s.fsm with
    | .idle => t.fsm = .idle ∨ t.fsm = .sentenceWait ∨ t.fsm = .binSyncWait
    | .sentenceWait => t.fsm = .sentenceWait ∨ t.fsm = .sentenceLFWait ∨ t.fsm = .error ∧ t.errCode = .timeout
    | .sentenceLFWait =>
      t.fsm = .sentenceLFWait ∨ t.fsm = .idle ∨ t.fsm = .error ∧ (t.errCode = .timeout ∨ t.errCode = .noLF)
    | .binSyncWait =>
      t.fsm = .binSyncWait ∨ t.fsm = .binHeaderWait ∨ t.fsm = .error ∧ (t.errCode = .timeout ∨ t.errCode = .sync2)
    | .binHeaderWait =>
      t.fsm = .binHeaderWait ∨ t.fsm = .binPayloadWait ∨ t.fsm = .error ∧ (t.errCode = .timeout ∨ t.errCode = .header)
    | .binPayloadWait => t.fsm = .binPayloadWait ∨ t.fsm = .binChecksumWait ∨ t.fsm = .error ∧ t.errCode = .timeout
    | .binChecksumWait =>
      t.fsm = .binChecksumWait ∨ t.fsm = .idle ∨ t.fsm = .error ∧ (t.errCode = .timeout ∨ t.errCode = .cksum)
    | .error => t.fsm = .idle)

/-! ## The sentence decoder -/

/-- R193: a sentence built with the right checksum verifies, and changing one byte strictly between the marker and the
asterisk makes `verify` false. R192, exactly: `'$'`, a body without `'*'`, `'*'`, two digits in `0..9` or `A..F` (R94) and
`CR`, where the digits give the exclusive-or of the body. -/
def Obligations.VerifyAcceptsBuiltRejectsChanged : Prop :=
  (∀ span : Bytes, verify span = true ↔ ∃ (body : Bytes) (h1 h2 : Byte) (v1 v2 : Nat),
    span = [0x24] ++ body ++ [0x2A, h1, h2, 0x0D] ∧ 0x2A ∉ body ∧
    (0x30 ≤ h1.toNat ∧ h1.toNat ≤ 0x39 ∧ v1 = h1.toNat - 0x30 ∨
      0x41 ≤ h1.toNat ∧ h1.toNat ≤ 0x46 ∧ v1 = h1.toNat - 0x41 + 10) ∧
    (0x30 ≤ h2.toNat ∧ h2.toNat ≤ 0x39 ∧ v2 = h2.toNat - 0x30 ∨
      0x41 ≤ h2.toNat ∧ h2.toNat ≤ 0x46 ∧ v2 = h2.toNat - 0x41 + 10) ∧
    (body.foldl (· ^^^ ·) 0).toNat = 16 * v1 + v2) ∧
  (∀ (addr : Bytes) (fields : List Bytes), chStar ∉ sentenceBody addr fields →
    verify (sentenceSpan addr fields) = true) ∧
  ∀ (span : Bytes) (k : Nat) (b : Byte), verify span = true → k < (bodyOf span).length →
    (bodyOf span).getD k 0 ≠ b → verify (span.set (k + 1) b) = false

/-- R93, R195: field 0 of a built sentence is its address and field `k + 1` its `k`-th field, each cut to `MAX_FIELD`, with
the truncation flag exactly when bytes were cut off; fields that do not exist, the checksum digits among them, are empty. A
comma, an asterisk or a `CR` ends a field. A number below 0 gives what 0 gives (assumption 16). -/
def Obligations.FieldsOfBuiltSentence : Prop :=
  (∀ b : Byte, stopsField b = true ↔ b = 0x2C ∨ b = 0x2A ∨ b = 0x0D) ∧
  ∀ (c : Config) (addr : Bytes) (fields : List Bytes), (∀ b ∈ addr, stopsField b = false) →
    (∀ f ∈ fields, ∀ b ∈ f, stopsField b = false) →
    field c (sentenceSpan addr fields) 0 = addr.take c.maxField ∧
    (fieldTruncated c (sentenceSpan addr fields) 0 = true ↔ c.maxField < addr.length) ∧
    (∀ k : Nat, field c (sentenceSpan addr fields) (k + 1) = (fields.getD k []).take c.maxField ∧
      (fieldTruncated c (sentenceSpan addr fields) (k + 1) = true ↔ c.maxField < (fields.getD k []).length)) ∧
    ∀ k : Int, k < 0 → field c (sentenceSpan addr fields) k = field c (sentenceSpan addr fields) 0 ∧
      fieldTruncated c (sentenceSpan addr fields) k = fieldTruncated c (sentenceSpan addr fields) 0

/-- R202, R203, R206, R207: what a position sentence writes: each coordinate only when value and direction are present,
altitude and satellites used only when present, `NEW_LOC` always, and nothing else. Then the numbers and texts: the
fixed-point value of a coordinate (R204), its display string (R205, R198), and the final reduction to 32 bits (R10). What
number a field gives is stated in SpeedHeadingSentenceUpdatesRecord. That reading the fields is what sets `field_trunc` is
assumption 7, and that `div` rounds toward zero under a negative `K_MIN` too is assumption 16. -/
def Obligations.PositionSentenceUpdatesRecord : Prop :=
  (∀ (s : State) (span lat ns lon ew alt used : Bytes),
    lat = field s.cfg span s.cfg.fLat → ns = field s.cfg span s.cfg.fNs →
    lon = field s.cfg span s.cfg.fLon → ew = field s.cfg span s.cfg.fEw →
    alt = field s.cfg span s.cfg.fAlt → used = field s.cfg span s.cfg.fNused →
    exec (.gpgga span) s = .next { s with
      fieldTrunc := s.fieldTrunc || [0, s.cfg.fLat, s.cfg.fNs, s.cfg.fLon, s.cfg.fEw, s.cfg.fAlt, s.cfg.fNused].any
        (fieldTruncated s.cfg span)
      newFlags := s.newFlags ||| 0b0001
      fix := { s.fix with
        latFx := if lat = [] ∨ ns = [] then s.fix.latFx else latlonFx s.cfg lat (ns.head? = some 0x53)
        latStr := if lat = [] ∨ ns = [] then s.fix.latStr else latlonText lat (ns.head? = some 0x53) ++ ns.take 1
        lonFx := if lon = [] ∨ ew = [] then s.fix.lonFx else latlonFx s.cfg lon (ew.head? = some 0x57)
        lonStr := if lon = [] ∨ ew = [] then s.fix.lonStr else latlonText lon (ew.head? = some 0x57) ++ ew.take 1
        altM := if alt = [] then s.fix.altM else s32 (parseDec alt 0 true).1 (parseDec alt 0 true).2
        altStr := if alt = [] then s.fix.altStr else alt ++ s.cfg.sufAlt
        satsUsedStr := if used = [] then s.fix.satsUsedStr else used } }) ∧
  (∀ (c : Config) (f : Bytes) (negative : Bool) (v deg m10k : Nat), v = (parseDec f 4 false).2 → deg = v / 1000000 →
    m10k = v % 1000000 →
    latlonFx c f negative = s32 negative (deg * c.kDeg + (m10k * c.kMin).tdiv 10000) ∧
    latlonText f negative = (if negative then [0x2D] else []) ++ dec deg ++ [0x2E] ++
      List.replicate (5 - (dec (m10k / 6)).length) 0x30 ++ dec (m10k / 6)) ∧
  (∀ v : Nat, dec v = if v = 0 then [0x30] else (Nat.digits 10 v).reverse.map (fun d => BitVec.ofNat 8 (0x30 + d))) ∧
  ∀ (negative : Bool) (v : Int), s32 negative v = if negative then -BitVec.ofInt 32 v else BitVec.ofInt 32 v

/-- R208: the source's end-to-end sentence, from the reset state, gives the values worked out there. -/
def Obligations.SourcePositionSentence : Prop :=
  exec (.gpgga
    [0x24, 0x47, 0x50, 0x47, 0x47, 0x41, 0x2C, 0x31, 0x32, 0x33, 0x35, 0x31, 0x39, 0x2C, 0x34, 0x38, 0x30, 0x37, 0x2E,
     0x30, 0x33, 0x38, 0x2C, 0x4E, 0x2C, 0x30, 0x31, 0x31, 0x33, 0x31, 0x2E, 0x30, 0x30, 0x30, 0x2C, 0x45, 0x2C, 0x31,
     0x2C, 0x30, 0x38, 0x2C, 0x30, 0x2E, 0x39, 0x2C, 0x35, 0x34, 0x35, 0x2E, 0x34, 0x2C, 0x4D, 0x2C, 0x34, 0x36, 0x2E,
     0x39, 0x2C, 0x4D, 0x2C, 0x2C, 0x2A, 0x34, 0x37, 0x0D]) State.reset =
    .next { State.reset with
      newFlags := 0b0001
      fix := { FixRecord.zero with
        latFx := 574061714
        latStr := [0x34, 0x38, 0x2E, 0x31, 0x31, 0x37, 0x33, 0x30, 0x4E]
        lonFx := 137399175
        lonStr := [0x31, 0x31, 0x2E, 0x35, 0x31, 0x36, 0x36, 0x36, 0x45]
        altM := 545
        altStr := [0x35, 0x34, 0x35, 0x2E, 0x34, 0x6D]
        satsUsedStr := [0x30, 0x38] } }

/-- R210: exactly `"2"` and `"3"` select a tag, anything else and an absent field clear it; `NEW_FIX` is set. That reading
the fields is what sets `field_trunc` is assumption 7. -/
def Obligations.FixModeSelectsTag : Prop :=
  ∀ (s : State) (span : Bytes), exec (.gpgsa span) s = .next { s with
    fieldTrunc := s.fieldTrunc || (fieldTruncated s.cfg span 0 || fieldTruncated s.cfg span s.cfg.fFixmode)
    newFlags := s.newFlags ||| 0b0010
    fix := { s.fix with
      fixQ := if field s.cfg span s.cfg.fFixmode = [0x32] then 0b01
        else if field s.cfg span s.cfg.fFixmode = [0x33] then 0b10 else 0b00 } }

/-- R212, R197: heading with two and speed with three implied digits, each only when present; `NEW_SPD` is set (that reading
the fields is what sets `field_trunc` is assumption 7). Then what number a decimal field gives, in any sentence: its leading
digits and, after a `'.'`, its fraction cut (not rounded) to `p` places, scaled by `10^p`; whatever fits nowhere is ignored;
a leading `'-'` counts only where signs are read. -/
def Obligations.SpeedHeadingSentenceUpdatesRecord : Prop :=
  (∀ (s : State) (span hdg spd : Bytes), hdg = field s.cfg span s.cfg.fHdg → spd = field s.cfg span s.cfg.fSpd →
    exec (.gpvtg span) s = .next { s with
      fieldTrunc := s.fieldTrunc || (fieldTruncated s.cfg span 0 ||
        (fieldTruncated s.cfg span s.cfg.fHdg || fieldTruncated s.cfg span s.cfg.fSpd))
      newFlags := s.newFlags ||| 0b0100
      fix := { s.fix with
        hdgX100 := if hdg = [] then s.fix.hdgX100 else BitVec.ofNat 32 (parseDec hdg 2 false).2
        hdgStr := if hdg = [] then s.fix.hdgStr else hdg ++ s.cfg.sufHdg
        spdX1000 := if spd = [] then s.fix.spdX1000 else BitVec.ofNat 32 (parseDec spd 3 false).2
        spdStr := if spd = [] then s.fix.spdStr else spd ++ s.cfg.sufSpd } }) ∧
  (∀ (ints fracs : List Nat) (tail : Bytes) (p : Nat), (∀ d ∈ ints ++ fracs, d < 10) →
    (∀ b ∈ tail.head?, ¬(0x30 ≤ b.toNat ∧ b.toNat ≤ 0x39)) →
    (tail.head? ≠ some 0x2E →
      parseDec (ints.map (fun d => BitVec.ofNat 8 (0x30 + d)) ++ tail) p false =
        (false, Nat.ofDigits 10 ints.reverse * 10 ^ p)) ∧
    parseDec (ints.map (fun d => BitVec.ofNat 8 (0x30 + d)) ++
        0x2E :: fracs.map (fun d => BitVec.ofNat 8 (0x30 + d)) ++ tail) p false =
      (false, Nat.ofDigits 10 ints.reverse * 10 ^ p + Nat.ofDigits 10 fracs.reverse * 10 ^ p / 10 ^ fracs.length)) ∧
  ∀ (f : Bytes) (p : Nat), parseDec (0x2D :: f) p true = (true, (parseDec f p false).2) ∧
    (f.head? ≠ some 0x2D → parseDec f p true = parseDec f p false)

/-- R214 to R218: a position absent or 0 changes nothing but the sticky `field_trunc` (R195, R34, assumption 7: set when the
address or the position field lost bytes, kept otherwise); position 1 turns the incoming table into the current one and
starts from a cleared table; each present pair lands in its slot, every other slot stays, and `field_trunc` is set when any
field read lost bytes. -/
def Obligations.SatelliteSentenceFillsIncoming : Prop :=
  ∀ (s : State) (span : Bytes) (pos : Nat) (idOf snrOf : Nat → Int),
    s.sv0.length = s.cfg.svCap → s.sv1.length = s.cfg.svCap →
    pos = (parseDec (field s.cfg span s.cfg.fSvpos) 0 false).2 % 2 ^ 32 →
    (∀ k : Nat, idOf k = s.cfg.fSv0 + s.cfg.svStride * k) → (∀ k, snrOf k = idOf k + s.cfg.svSnrOff) →
    ∃ t, exec (.gpgsv span) s = .next t ∧
      (pos = 0 → t = { s with
        fieldTrunc := s.fieldTrunc || (fieldTruncated s.cfg span 0 || fieldTruncated s.cfg span s.cfg.fSvpos) }) ∧
      (0 < pos →
        t = { s with
          fieldTrunc := s.fieldTrunc || (fieldTruncated s.cfg span 0 || fieldTruncated s.cfg span s.cfg.fSvpos ||
            fieldTruncated s.cfg span s.cfg.fSvtot || [0, 1, 2, 3].any (fun k =>
              fieldTruncated s.cfg span (idOf k) || fieldTruncated s.cfg span (snrOf k)))
          newFlags := s.newFlags ||| 0b1000, sv0 := t.sv0, sv1 := t.sv1, curSel := t.curSel
          fix := { s.fix with
            satsTrkStr :=
              if field s.cfg span s.cfg.fSvtot = [] then s.fix.satsTrkStr else field s.cfg span s.cfg.fSvtot } } ∧
        t.curSel = (if pos = 1 then !s.curSel else s.curSel) ∧
        t.current = (if pos = 1 then s.incoming else s.current) ∧
        t.incoming.length = s.cfg.svCap ∧
        (∀ k, k < 4 → (pos - 1) * 4 + k < s.cfg.svCap → field s.cfg span (idOf k) ≠ [] →
          t.incoming[(pos - 1) * 4 + k]? = some
            ⟨BitVec.ofNat 8 (parseDec (field s.cfg span (idOf k)) 0 false).2,
             BitVec.ofNat 8 (parseDec (field s.cfg span (snrOf k)) 0 false).2⟩) ∧
        ∀ j, j < s.cfg.svCap →
          (∀ k, k < 4 → j = (pos - 1) * 4 + k → field s.cfg span (idOf k) = []) →
          t.incoming[j]? = (if pos = 1 then some ⟨0, 0⟩ else s.incoming[j]?))

/-- R201: a verified sentence of an unknown address is counted; reading the address can set `field_trunc`
(assumption 7). -/
def Obligations.UnknownAddressIsCounted : Prop :=
  ∀ (s : State) (span : Bytes), exec (.sentenceOther span) s = .next { s with
    fieldTrunc := s.fieldTrunc || fieldTruncated s.cfg span 0
    cntOther := s.cntOther + 1 }

/-! ## The binary decoder -/

/-- R242: the closed form of the two accumulators. -/
def Obligations.ChecksumClosedForm : Prop :=
  ∀ bs : Bytes,
    (cksum bs).1.toNat = (bs.map BitVec.toNat).sum % 256 ∧
    (cksum bs).2.toNat = ((List.range bs.length).map (fun k => (bs.length - k) * (bs.getD k 0).toNat)).sum % 256

/-- R250: a frame the builder makes is accepted by the decoder, and dropping the last byte of the summed range changes the
checksum but for a zero byte at a zero first accumulator (90_conflicts.md C8). -/
def Obligations.BuiltFrameReverifies : Prop :=
  (∀ (c : Config) (cls id : Byte) (payload : Bytes), payload.length < 65536 → payload.length ≤ c.payloadCap →
    decode c .frame (buildFrame c cls id payload) = .ok (frameInstr c cls id payload)) ∧
  ∀ (bs : Bytes) (x : Byte), cksum (bs ++ [x]) = cksum bs ↔ x = 0 ∧ (cksum (bs ++ [x])).1 = 0

/-- R244: an acknowledgement removes every awaited entry with the key in its first two payload bytes; a shorter payload
changes nothing. -/
def Obligations.AckRemovesEveryMatch : Prop :=
  (∀ (s : State) (cls id : Byte) (rest : Bytes), exec (.ackAck (cls :: id :: rest)) s =
    .next { s with awaited := s.awaited.filter (fun e => ¬(e.cls = cls ∧ e.id = id)) }) ∧
  ∀ (s : State) (payload : Bytes), payload.length < 2 → exec (.ackAck payload) s = .next s

/-- R245, R283: a negative acknowledgement appends a failure entry, or halts the block when there is no room, and removes
every awaited entry with its key either way. -/
def Obligations.NakRecordsFailure : Prop :=
  (∀ (s : State) (cls id : Byte) (rest : Bytes), atCapacity s.cfg.failCap s.failed.length = false →
    exec (.ackNak (cls :: id :: rest)) s = .next { s with
      failed := s.failed ++ [⟨cls, id, .nak⟩]
      awaited := s.awaited.filter (fun e => ¬(e.cls = cls ∧ e.id = id)) }) ∧
  (∀ (s : State) (cls id : Byte) (rest : Bytes), atCapacity s.cfg.failCap s.failed.length = true →
    exec (.ackNak (cls :: id :: rest)) s = .next { s with
      faultReg := s.faultReg ||| 0b10
      halted := true
      awaited := s.awaited.filter (fun e => ¬(e.cls = cls ∧ e.id = id)) }) ∧
  ∀ (s : State) (payload : Bytes), payload.length < 2 → exec (.ackNak payload) s = .next s

/-- R246, R43: the version strings have the configured lengths and hold the payload's bytes at the configured offsets, 0
beyond its end; the poll's own awaited entries are removed. Two corners are the model's: a negative length gives an empty
array (assumption 16), and a position before the payload, which only a negative offset reaches, gives a free value, of
which nothing is stated (assumption 17). -/
def Obligations.VersionFrameFillsStrings : Prop :=
  ∀ (s : State) (payload : Bytes), ∃ t, exec (.monVer payload) s = .next t ∧
    t = { s with
      ver := t.ver
      awaited := s.awaited.filter (fun e => ¬(e.cls = s.cfg.clsMon ∧ e.id = s.cfg.idMonVer)) } ∧
    t.ver.valid = true ∧ t.ver.sw.length = s.cfg.verSwLen.toNat ∧ t.ver.hw.length = s.cfg.verHwLen.toNat ∧
    (∀ k : Nat, k < s.cfg.verSwLen → 0 ≤ s.cfg.verSwOff + k → t.ver.sw[k]? =
      some (if s.cfg.verSwOff + k < payload.length then payload.getD (s.cfg.verSwOff + k).toNat 0 else 0)) ∧
    ∀ k : Nat, k < s.cfg.verHwLen → 0 ≤ s.cfg.verHwOff + k → t.ver.hw[k]? =
      some (if s.cfg.verHwOff + k < payload.length then payload.getD (s.cfg.verHwOff + k).toNat 0 else 0)

/-- R247, R248, R249: frames of known classes that mean nothing change nothing; a frame of an unknown class is recorded
and halts the block. -/
def Obligations.OtherFramesIgnoredOrFatal : Prop :=
  (∀ (s : State) (id : Byte) (payload : Bytes), exec (.ackOther id payload) s = .next s ∧
    exec (.monOther id payload) s = .next s) ∧
  (∀ (s : State) (cls id : Byte) (payload : Bytes), exec (.cfgAny cls id payload) s = .next s) ∧
  ∀ (s : State) (cls id : Byte) (payload : Bytes), exec (.classUnknown cls id payload) s = .next { s with
    faultClass := cls, faultId := id, faultReg := s.faultReg ||| 0b01, halted := true }

/-! ## The outbound builder and the ledger -/

/-- R271, R111: SEND is refused while halted or for a payload above `TX_PAYLOAD_CAP`; otherwise the frame is emitted
exactly when the transport accepts, and an expected response is registered, or halts the block when there is no room,
whatever the transport answers. -/
def Obligations.SendEmitsAndRegisters : Prop :=
  (∀ (c : Config) (cls id l0 l1 ee aa n0 n1 n2 n3 : Byte) (p : Bytes), p.length = l0.toNat + 256 * l1.toNat →
    decode c (.op .host) ([0x10, cls, id, l0, l1, ee, aa, n0, n1, n2, n3] ++ p) =
      .ok (.send cls id (ee.getLsbD 0) (aa.getLsbD 0) (n3 ++ n2 ++ n1 ++ n0) p)) ∧
  ∀ (s : State) (cls id : Byte) (expect accept : Bool) (now : Word) (p : Bytes),
    (s.halted = true ∨ s.cfg.txPayloadCap < p.length →
      exec (.send cls id expect accept now p) s = .next { s with result := .sent false none }) ∧
    (s.halted = false → p.length ≤ s.cfg.txPayloadCap →
      exec (.send cls id expect accept now p) s = .next
        (let r : Result := .sent accept (if accept then some (buildFrame s.cfg cls id p) else none)
         if expect = false then { s with result := r }
         else if atCapacity s.cfg.awaitCap s.awaited.length = true then
           { s with result := r, faultReg := s.faultReg ||| 0b10, halted := true }
         else { s with result := r, awaited := s.awaited ++ [⟨cls, id, now⟩] }))

/-- R281, R282: REGISTER appends an entry, or halts the block when there is no room; RESOLVE removes every entry with the
key; while halted neither does anything. There is no room at `AWAIT_CAP` entries, and always room where it is `inf` (R8). -/
def Obligations.RegisterAppendsResolveRemoves : Prop :=
  (∀ len : Nat, atCapacity none len = false ∧ ∀ k : Nat, atCapacity (some k) len = true ↔ k ≤ len) ∧
  (∀ (c : Config) (cls id t0 t1 t2 t3 : Byte),
    decode c (.op .host) [0x11, cls, id, t0, t1, t2, t3] = .ok (.register cls id (t3 ++ t2 ++ t1 ++ t0)) ∧
    decode c (.op .host) [0x12, cls, id] = .ok (.resolve cls id)) ∧
  (∀ (s : State) (cls id : Byte) (ts : Word), s.halted = true →
    exec (.register cls id ts) s = .next { s with result := .none } ∧
    exec (.resolve cls id) s = .next { s with result := .none }) ∧
  (∀ (s : State) (cls id : Byte) (ts : Word), s.halted = false →
    atCapacity s.cfg.awaitCap s.awaited.length = false →
    exec (.register cls id ts) s = .next { s with result := .none, awaited := s.awaited ++ [⟨cls, id, ts⟩] }) ∧
  (∀ (s : State) (cls id : Byte) (ts : Word), s.halted = false →
    atCapacity s.cfg.awaitCap s.awaited.length = true →
    exec (.register cls id ts) s =
      .next { s with result := .none, faultReg := s.faultReg ||| 0b10, halted := true }) ∧
  ∀ (s : State) (cls id : Byte), s.halted = false → exec (.resolve cls id) s = .next { s with
    result := .none, awaited := s.awaited.filter (fun e => ¬(e.cls = cls ∧ e.id = id)) }

/-- R284, R283: SWEEP moves every entry strictly older than the limit to the failure queue, in order, and keeps the others
in order; what finds no room is lost and the block halts; while halted it does nothing. -/
def Obligations.SweepMovesExpiredEntries : Prop :=
  (∀ (c : Config) (n0 n1 n2 n3 d0 d1 d2 d3 : Byte),
    decode c (.op .host) [0x13, n0, n1, n2, n3, d0, d1, d2, d3] =
      .ok (.sweep (n3 ++ n2 ++ n1 ++ n0) (d3 ++ d2 ++ d1 ++ d0))) ∧
  (∀ (s : State) (now limit : Word), s.halted = true → exec (.sweep now limit) s = .next { s with result := .none }) ∧
  (∀ (s : State) (now limit : Word), s.halted = false →
    (∀ k, s.cfg.failCap = some k →
      s.failed.length + (s.awaited.filter (fun e : AwaitEntry => limit < now - e.ts)).length ≤ k) →
    exec (.sweep now limit) s = .next { s with
      result := .none
      awaited := s.awaited.filter (fun e => ¬(limit < now - e.ts))
      failed := s.failed ++ (s.awaited.filter (fun e : AwaitEntry => limit < now - e.ts)).map (fun e => FailEntry.mk e.cls e.id .timeout) }) ∧
  ∀ (s : State) (now limit : Word) (k : Nat), s.halted = false → s.cfg.failCap = some k → s.failed.length ≤ k →
    k < s.failed.length + (s.awaited.filter (fun e : AwaitEntry => limit < now - e.ts)).length →
    exec (.sweep now limit) s = .next { s with
      result := .none
      awaited := s.awaited.filter (fun e => ¬(limit < now - e.ts))
      failed := (s.failed ++
        (s.awaited.filter (fun e : AwaitEntry => limit < now - e.ts)).map (fun e => FailEntry.mk e.cls e.id .timeout)).take k
      faultReg := s.faultReg ||| 0b10
      halted := true }

/-- R289: an entry registered at `T` stays at `sweep(T + D - 1, D)` and at `sweep(T + D, D)`, and is a timeout failure after
`sweep(T + D + 1, D)`, also across the wrap of the clock. -/
def Obligations.TimeoutBoundaryOfSweep : Prop :=
  ∀ (s : State) (cls id : Byte) (t d : Word), s.halted = false → s.awaited = [⟨cls, id, t⟩] →
    atCapacity s.cfg.failCap s.failed.length = false →
    (d ≠ 0 → exec (.sweep (t + d - 1) d) s = .next { s with result := .none }) ∧
    exec (.sweep (t + d) d) s = .next { s with result := .none } ∧
    (d + 1 ≠ 0 → exec (.sweep (t + d + 1) d) s = .next { s with
      result := .none, awaited := [], failed := s.failed ++ [⟨cls, id, .timeout⟩] })

/-- R285, R286: the drains return what they remove, in order, in every state. -/
def Obligations.DrainsReturnWhatTheyRemove : Prop :=
  (∀ (c : Config) (cls id : Byte), decode c (.op .host) [0x14] = .ok .drainFailures ∧
    decode c (.op .host) [0x15, cls, id] = .ok (.drainFailed cls id)) ∧
  (∀ s : State, exec .drainFailures s = .next { s with result := .failures s.failed, failed := [] }) ∧
  ∀ (s : State) (cls id : Byte), exec (.drainFailed cls id) s = .next { s with
    result := .failures (s.failed.filter (fun e => e.cls = cls ∧ e.id = id))
    failed := s.failed.filter (fun e => ¬(e.cls = cls ∧ e.id = id)) }

/-- R287, R288: the queries count the entries with the key, by reason for the failures, and change nothing. -/
def Obligations.QueriesCountByKey : Prop :=
  (∀ (c : Config) (cls id : Byte), decode c (.op .host) [0x16, cls, id] = .ok (.queryAwaited cls id) ∧
    decode c (.op .host) [0x17, cls, id] = .ok (.queryFailed cls id)) ∧
  ∀ (s : State) (cls id : Byte),
    exec (.queryAwaited cls id) s = .next { s with
      result := .count (s.awaited.filter (fun e => e.cls = cls ∧ e.id = id)).length } ∧
    exec (.queryFailed cls id) s = .next { s with
      result := .counts (s.failed.filter (fun e => (e.cls = cls ∧ e.id = id) ∧ e.reason = .nak)).length
        (s.failed.filter (fun e => (e.cls = cls ∧ e.id = id) ∧ e.reason = .timeout)).length }

/-! ## Host operations -/

/-- R309, R301, R302, R303, R305, R307: NOP and the reads change nothing but the result, which is the snapshot each rule
lists. READ_STATUS returns the framing states numbered as in R24 and the error codes as in R321. -/
def Obligations.ReadsReturnSnapshots : Prop :=
  (∀ c : Config,
    decode c (.op .host) [0x00] = .ok .nop ∧ decode c (.op .host) [0x20] = .ok .readFix ∧
    decode c (.op .host) [0x21] = .ok .readSv ∧ decode c (.op .host) [0x22] = .ok .readFlags ∧
    decode c (.op .host) [0x24] = .ok .readStatus ∧ decode c (.op .host) [0x25] = .ok .readVersion) ∧
  [Framing.idle, .sentenceWait, .sentenceLFWait, .binSyncWait, .binHeaderWait, .binPayloadWait, .binChecksumWait,
    .error].map Framing.code = [0, 1, 2, 3, 4, 5, 6, 7] ∧
  [ErrCode.none, .timeout, .sync2, .header, .cksum, .noLF].map ErrCode.code = [0, 1, 2, 3, 4, 5] ∧
  ∀ s : State,
    exec .nop s = .next { s with result := .none } ∧
    exec .readFix s = .next { s with result := .fix s.fix } ∧
    exec .readSv s = .next { s with result := .svTable s.curSel (if s.curSel then s.sv1 else s.sv0) } ∧
    exec .readFlags s = .next { s with result := .flags s.newFlags } ∧
    exec .readVersion s = .next { s with result := .version s.ver } ∧
    exec .readStatus s = .next { s with
      result := .status {
        state := s.fsm.code
        inProgress := s.inProgress
        wr := s.wr
        sc := s.sc
        ms := s.ms
        avail := dist s.cfg.n s.sc s.wr
        rxClass := s.asm.rxClass
        rxId := s.asm.rxId
        rxLen := s.asm.rxLen
        payOwned := s.asm.payOwned
        errCode := s.errCode.code
        errLast := s.errLast.code
        errCount := s.errCount
        faultReg := s.faultReg
        halted := s.halted
        faultClass := s.faultClass
        faultId := s.faultId
        cntOther := s.cntOther
        fieldTrunc := s.fieldTrunc
        nAwaited := s.awaited.length
        nFailed := s.failed.length } }

/-- R304, R111: CLEAR_FLAGS clears the indicators whose bit of the operand byte is 1, ignores bits 7 to 4 and leaves
everything else. -/
def Obligations.ClearFlagsClearsMaskedBits : Prop :=
  (∀ (c : Config) (mm : Byte), decode c (.op .host) [0x23, mm] = .ok (.clearFlags (mm.setWidth 4))) ∧
  ∀ (s : State) (mask : BitVec 4), ∃ t, exec (.clearFlags mask) s = .next t ∧
    t = { s with result := .none, newFlags := t.newFlags } ∧
    ∀ k, t.newFlags.getLsbD k = (s.newFlags.getLsbD k && !mask.getLsbD k)

/-- R308: POWER_OFF zeroes the Decoded Fix Record and nothing else. -/
def Obligations.PowerOffZeroesRecord : Prop :=
  (∀ c : Config, decode c (.op .host) [0x30] = .ok .powerOff) ∧
  ∀ s : State, exec .powerOff s = .next { s with
      result := .none
      fix := {
        latFx := 0
        latStr := []
        lonFx := 0
        lonStr := []
        altM := 0
        altStr := []
        fixQ := 0
        satsUsedStr := []
        satsTrkStr := []
        spdX1000 := 0
        spdStr := []
        hdgX100 := 0
        hdgStr := [] } }

/-- R312, R45: RESET gives every element of state the value of the table, in every state; the parameters stay. That
operations already presented stay is the model's choice (assumption 2), and a negative version length gives an empty array
(assumption 16). -/
def Obligations.ResetGivesTableValues : Prop :=
  (∀ c : Config, decode c (.op .host) [0x3F] = .ok .reset) ∧
  ∀ s : State, exec .reset s = .next {
      cfg := s.cfg
      inbox := s.inbox
      result := .none
      buf := []
      wr := 0
      sc := 0
      ms := 0
      fsm := .idle
      inProgress := false
      msgTime := 0
      asm := {
        hdr := #v[0, 0, 0, 0]
        hdrCnt := 0
        rxClass := 0
        rxId := 0
        rxLen := 0
        payload := []
        payIdx := 0
        payRem := 0
        payOwned := false
        ckA := 0
        ckB := 0
        rxCk := #v[0, 0]
        ckCnt := 0 }
      errCode := .none
      errLast := .none
      errCount := 0
      faultReg := 0
      halted := false
      faultClass := 0
      faultId := 0
      cntOther := 0
      fieldTrunc := false
      fix := {
        latFx := 0
        latStr := []
        lonFx := 0
        lonStr := []
        altM := 0
        altStr := []
        fixQ := 0
        satsUsedStr := []
        satsTrkStr := []
        spdX1000 := 0
        spdStr := []
        hdgX100 := 0
        hdgStr := [] }
      newFlags := 0
      sv0 := List.replicate s.cfg.svCap ⟨0, 0⟩
      sv1 := List.replicate s.cfg.svCap ⟨0, 0⟩
      curSel := false
      awaited := []
      failed := []
      ver := ⟨List.replicate s.cfg.verSwLen.toNat 0, List.replicate s.cfg.verHwLen.toNat 0, false⟩ }

/-! ## Halting, ownership -/

/-- R311, R333: while halted, TICK, REGISTER, RESOLVE and SWEEP change nothing, SEND is refused, and only RESET ends the
halt. The block halts in the state the faulting operation leaves: in `Idle`, the payload buffer released, where a TICK
raised the fault; in the framing state it was in where a host operation did (assumption 8). -/
def Obligations.HaltedEngineStops : Prop :=
  (∀ s : State, s.halted = true →
    (∀ now, exec (.tick now) s = .next { s with result := .none }) ∧
    (∀ cls id ts, exec (.register cls id ts) s = .next { s with result := .none }) ∧
    (∀ cls id, exec (.resolve cls id) s = .next { s with result := .none }) ∧
    (∀ now limit, exec (.sweep now limit) s = .next { s with result := .none }) ∧
    (∀ cls id expect accept now p,
      exec (.send cls id expect accept now p) s = .next { s with result := .sent false none }) ∧
    ∀ i t, exec i s = .next t → t.halted = false → i = .reset) ∧
  (∀ (s t : State) (now : Word), FramingOk s → s.halted = false → exec (.tick now) s = .next t → t.halted = true →
    t.fsm = .idle ∧ t.asm.payOwned = false) ∧
  ∀ (i : Instr) (s t : State), i.form = .op .host → s.halted = false → exec i s = .next t → t.halted = true →
    t.fsm = s.fsm ∧ t.asm = s.asm

/-- R330: the fault bits and `halted` are sticky; no instruction but RESET clears any of them. -/
def Obligations.FaultsAreSticky : Prop :=
  ∀ (i : Instr) (s t : State), i ≠ .reset → exec i s = .next t →
    (s.halted = true → t.halted = true) ∧ s.faultReg &&& ~~~t.faultReg = 0

/-- R336: the "written by" column of the ownership table, for every operation but RESET, which writes everything; and no
operation at all writes the parameters (R7). -/
def Obligations.StateIsWrittenByItsOwners : Prop :=
  (∀ (i : Instr) (s t : State), exec i s = .next t → t.cfg = s.cfg) ∧
  ∀ (i : Instr) (s t : State), isOperation i = true → i ≠ .reset → exec i s = .next t →
    (t.buf ≠ s.buf ∨ t.wr ≠ s.wr → ∃ b, i = .push b) ∧
    (t.sc ≠ s.sc ∨ t.ms ≠ s.ms ∨ t.fsm ≠ s.fsm ∨ t.inProgress ≠ s.inProgress ∨ t.msgTime ≠ s.msgTime ∨
      t.asm ≠ s.asm ∨ t.errCode ≠ s.errCode ∨ t.errLast ≠ s.errLast ∨ t.errCount ≠ s.errCount ∨
      t.cntOther ≠ s.cntOther ∨ t.fieldTrunc ≠ s.fieldTrunc ∨ t.faultClass ≠ s.faultClass ∨ t.faultId ≠ s.faultId ∨
      t.sv0 ≠ s.sv0 ∨ t.sv1 ≠ s.sv1 ∨ t.curSel ≠ s.curSel ∨ t.ver ≠ s.ver → ∃ now, i = .tick now) ∧
    (t.faultReg ≠ s.faultReg ∨ t.halted ≠ s.halted →
      (∃ now, i = .tick now) ∨ (∃ cls id expect accept now p, i = .send cls id expect accept now p) ∨
      (∃ cls id ts, i = .register cls id ts) ∨ ∃ now limit, i = .sweep now limit) ∧
    (t.fix ≠ s.fix → (∃ now, i = .tick now) ∨ i = .powerOff) ∧
    (t.newFlags ≠ s.newFlags → (∃ now, i = .tick now) ∨ ∃ mask, i = .clearFlags mask) ∧
    (t.awaited ≠ s.awaited →
      (∃ now, i = .tick now) ∨ (∃ cls id expect accept now p, i = .send cls id expect accept now p) ∨
      (∃ cls id ts, i = .register cls id ts) ∨ (∃ cls id, i = .resolve cls id) ∨ ∃ now limit, i = .sweep now limit) ∧
    (t.failed ≠ s.failed →
      (∃ now, i = .tick now) ∨ (∃ now limit, i = .sweep now limit) ∨ i = .drainFailures ∨
      ∃ cls id, i = .drainFailed cls id)

/-! ## Invariants that every step keeps -/

/-- R350, R351: the reset state of any ring of at least one cell meets every invariant. -/
def Obligations.ResetStateIsSound : Prop :=
  ∀ c : Config, 0 < c.n → Sound (State.resetOf c) ∧ TextOk (State.resetOf c) ∧ CursorOrder (State.resetOf c) ∧
    SentenceAnchored (State.resetOf c)

/-- R22, R60: cursors stay cells of the ring, the byte arrays stay canonical and inside their index spaces. -/
def Obligations.StepKeepsRing : Prop := ∀ s t : State, RingOk s → step s = .next t → RingOk t

/-- R169, R170, R251: cursors, `in_progress` and buffer ownership stay in step with the framing state. -/
def Obligations.StepKeepsFraming : Prop := ∀ s t : State, FramingOk s → step s = .next t → FramingOk t

/-- R164, R242: the running checksum stays the one recomputed over the bytes received so far, and the counts stay those of
the header. -/
def Obligations.StepKeepsRunningChecksum : Prop :=
  ∀ s t : State, RingOk s → AssemblerOk s → step s = .next t → AssemblerOk t

/-- R333, R33: at most one fault bit is ever set, together with `halted`; `fault_class`, `fault_id` only with the class fault;
and a block halted by the class fault is in `Idle` with the payload buffer released. -/
def Obligations.StepKeepsSingleFault : Prop := ∀ s t : State, FaultOk s → step s = .next t → FaultOk t

/-- R35, R39, R41, R43: table sizes, queue capacities and the range of the fix tag. A version string of a negative length
is empty (assumption 16). -/
def Obligations.StepKeepsTables : Prop := ∀ s t : State, TablesOk s → step s = .next t → TablesOk t

/-- R36: the lengths of the display strings, for a `MAX_FIELD` within its constraint (R8). -/
def Obligations.StepKeepsTextLengths : Prop :=
  ∀ s t : State, 5 ≤ s.cfg.maxField → TextOk s → step s = .next t → TextOk t

/-- R23, R169: unless the operation is an overrunning PUSH, `ms`, `sc` and `wr` stay in ring order within `N - 1` cells, and
a sentence in progress still starts at its `'$'`. -/
def Obligations.StepKeepsCursorOrder : Prop :=
  ∀ (s t : State) (o : PortOp) (rest : List PortOp) (i : Instr), RingOk s → FramingOk s → CursorOrder s →
    SentenceAnchored s → s.inbox = o :: rest → decode s.cfg (.op o.port) o.word = .ok i → overruns s i = false →
    step s = .next t → CursorOrder t ∧ SentenceAnchored t

/-! ## Runs -/

/-- R172: TICKs and pushes of bytes that are neither `'$'` nor `SYNC1`, in any number and order, never leave `Idle`, never
take the payload buffer and record no error; and with nothing awaited, as many TICKs as unread bytes empty the ring. -/
def Obligations.GarbageNeverLeavesIdle : Prop :=
  (∀ (c : Config) (ops : List PortOp), 0 < c.n → (∀ o ∈ ops, isGarbageTraffic c o) →
    ∃ t : State, Sys2Proof.core.run ops.length ({ State.resetOf c with inbox := ops } : State) = .next t ∧
      t.fsm = .idle ∧ t.asm.payOwned = false ∧ t.errCount = 0 ∧ t.inProgress = false) ∧
  ∀ (s : State) (times : List Word), s.runs .idle → s.ms = s.sc → s.awaited = [] →
    (∀ b ∈ s.unread, leadClass s.cfg b = .garbage) → times.length = s.avail →
    ∃ t, tickRun times s = some t ∧ t.fsm = .idle ∧ t.sc = s.wr ∧ t.wr = s.wr

/-- R173: from every sound state that is not halted, six TICKs at times spaced by more than `T_RX` are enough to come
through `Idle`, whatever bytes wait. -/
def Obligations.ReturnsToIdle : Prop :=
  ∀ (s : State) (times : List Word), Sound s → s.halted = false → times.length = 6 →
    spacedBy s.cfg.tRx s.msgTime times →
    ∃ k ≤ 6, ∃ t, tickRun (times.take k) s = some t ∧ t.fsm = .idle

/-- R152, R154, R156: a verified sentence waiting whole in the ring has its meaning in three TICKs and leaves the machine
in `Idle` before its `LF`. -/
def Obligations.WaitingSentenceRuns : Prop :=
  ∀ (s : State) (span rest : Bytes) (t1 t2 t3 : Word), s.runs .idle → s.ms = s.sc → s.awaited = [] →
    verify span = true → throughCR span = span → s.unread = span ++ chLF :: rest →
    ∃ u, exec (sentenceInstr s.cfg span) { s with
        result := .none, sc := (s.sc + span.length) % s.cfg.n, inProgress := true, msgTime := t2
        fsm := .sentenceLFWait } = .next u ∧
      tickRun [t1, t2, t3] s = some { u with ms := u.sc, inProgress := false, fsm := .idle }

/-- R240, R250: a frame the builder makes, waiting whole in the ring, is assembled with its class, identifier and payload
in four TICKs and has its meaning in the fifth, which releases the buffer and returns to `Idle`. -/
def Obligations.WaitingBuiltFrameRuns : Prop :=
  ∀ (s : State) (cls id : Byte) (payload rest : Bytes) (t1 t2 t3 t4 t5 : Word), s.runs .idle → s.ms = s.sc →
    s.awaited = [] → s.cfg.sync1 ≠ chDollar → Memory.wf s.asm.payload → payload.length < 65536 →
    payload.length ≤ s.cfg.payloadCap → s.unread = buildFrame s.cfg cls id payload ++ rest →
    ∃ u v, u = { s with
        result := .none, sc := (s.sc + (8 + payload.length)) % s.cfg.n, ms := (s.sc + (8 + payload.length)) % s.cfg.n
        inProgress := true, msgTime := t5, fsm := .binChecksumWait, asm := u.asm } ∧
      u.asm.rxClass = cls ∧ u.asm.rxId = id ∧ u.rxPayload = payload ∧
      exec (frameInstr s.cfg cls id payload) u = .next v ∧
      tickRun [t1, t2, t3, t4, t5] s = some { v with
        asm := { v.asm with payOwned := false }, inProgress := false, fsm := .idle }
end

