-- ==== Sys2Proof/Laws/Codec.lean ====
section
/-!
SUPPORT. The operand forms of the encodings: little-endian operands, line ends, the structure `verify` accepts, hexadecimal
digits, and the running checksum.
-/

namespace Sys2Proof.Machine

/-! ## Operands of operation words (R111) -/

theorem le32_eq (v : Word) :
    le32 v = [v.setWidth 8, (v >>> 8).setWidth 8, (v >>> 16).setWidth 8, (v >>> 24).setWidth 8] := rfl

theorem le16_eq (v : Half) : le16 v = [v.setWidth 8, (v >>> 8).setWidth 8] := rfl

/-- Concatenation with a byte below. -/
theorem toNat_append_byte {w : Nat} (hi : BitVec w) (lo : Byte) : (hi ++ lo).toNat = lo.toNat + 256 * hi.toNat := by
  rw [BitVec.toNat_append, ← Nat.shiftLeft_add_eq_or_of_lt lo.isLt, Nat.shiftLeft_eq]
  omega

/-- `rx_len = hdr[2] + 256 * hdr[3]` (R27, R64). -/
theorem ofLe16_toNat (lo hi : Byte) : (ofLe16 lo hi).toNat = lo.toNat + 256 * hi.toNat := toNat_append_byte hi lo

theorem ofLe32_toNat (b0 b1 b2 b3 : Byte) :
    (ofLe32 b0 b1 b2 b3).toNat = b0.toNat + 256 * (b1.toNat + 256 * (b2.toNat + 256 * b3.toNat)) := by
  rw [ofLe32, toNat_append_byte, toNat_append_byte, toNat_append_byte]

theorem ofLe32_le32 (v : Word) :
    ofLe32 (v.setWidth 8) ((v >>> 8).setWidth 8) ((v >>> 16).setWidth 8) ((v >>> 24).setWidth 8) = v := by
  refine BitVec.eq_of_toNat_eq ?_
  rw [ofLe32_toNat]
  simp only [BitVec.toNat_setWidth, BitVec.toNat_ushiftRight, Nat.shiftRight_eq_div_pow]
  omega

theorem ofLe16_le16 (v : Half) : ofLe16 (v.setWidth 8) ((v >>> 8).setWidth 8) = v := by
  refine BitVec.eq_of_toNat_eq ?_
  rw [ofLe16_toNat]
  simp only [BitVec.toNat_setWidth, BitVec.toNat_ushiftRight, Nat.shiftRight_eq_div_pow]
  omega

theorem le16_ofLe16 (lo hi : Byte) : le16 (ofLe16 lo hi) = [lo, hi] := by
  have h := ofLe16_toNat lo hi
  have hlo : (ofLe16 lo hi).setWidth 8 = lo := BitVec.eq_of_toNat_eq (by rw [BitVec.toNat_setWidth, h]; omega)
  have hhi : (ofLe16 lo hi >>> 8).setWidth 8 = hi := BitVec.eq_of_toNat_eq (by
    rw [BitVec.toNat_setWidth, BitVec.toNat_ushiftRight, h, Nat.shiftRight_eq_div_pow]; omega)
  rw [le16_eq, hlo, hhi]

/-- The length bytes of a payload that fits 16 bits. -/
theorem ofLe16_length (n : Nat) (h : n < 65536) :
    (ofLe16 ((BitVec.ofNat 16 n).setWidth 8) ((BitVec.ofNat 16 n >>> 8).setWidth 8)).toNat = n := by
  rw [ofLe16_le16, BitVec.toNat_ofNat, Nat.mod_eq_of_lt h]

@[simp] theorem boolOfByte_byteOfBool (b : Bool) : boolOfByte (byteOfBool b) = b := by cases b <;> rfl

/-! ## Line ends (R98) -/

/-- A byte sequence with a `CR` is its part through the first `CR` and the rest. -/
theorem throughCR_append_afterCR (bs : Bytes) : throughCR bs ++ afterCR bs = bs := by
  induction bs with
  | nil => rfl
  | cons b bs ih =>
    unfold throughCR afterCR
    split <;> simp [ih]

theorem throughCR_of_mem {bs rest : Bytes} (h : chCR ∈ bs) : throughCR (bs ++ rest) = throughCR bs := by
  induction bs with
  | nil => simp at h
  | cons b bs ih =>
    rw [List.cons_append, throughCR, throughCR]
    split
    · rfl
    · rename_i hb
      rw [ih (by simpa [Ne.symm hb] using h)]

theorem afterCR_of_mem {bs rest : Bytes} (h : chCR ∈ bs) : afterCR (bs ++ rest) = afterCR bs ++ rest := by
  induction bs with
  | nil => simp at h
  | cons b bs ih =>
    rw [List.cons_append, afterCR, afterCR]
    split
    · rfl
    · rename_i hb
      rw [ih (by simpa [Ne.symm hb] using h)]

/-- The only `CR` of a part through the first `CR` is its last byte. -/
theorem throughCR_throughCR (bs : Bytes) : throughCR (throughCR bs) = throughCR bs := by
  induction bs with
  | nil => rfl
  | cons b bs ih =>
    by_cases h : b = chCR <;> simp [throughCR, h, ih]

theorem afterCR_throughCR (bs : Bytes) : afterCR (throughCR bs) = [] := by
  induction bs with
  | nil => rfl
  | cons b bs ih =>
    by_cases h : b = chCR <;> simp [throughCR, afterCR, h, ih]

theorem mem_throughCR (bs : Bytes) : chCR ∈ throughCR bs ↔ chCR ∈ bs := by
  induction bs with
  | nil => rfl
  | cons b bs ih =>
    by_cases h : b = chCR
    · simp [throughCR, h]
    · simp [throughCR, h, ih]

theorem throughCR_length_le (bs : Bytes) : (throughCR bs).length ≤ bs.length := by
  conv_rhs => rw [← throughCR_append_afterCR bs]
  simp

/-! ## What `verify` accepts (R192) -/

/-- A verified span is `'$'`, a body without asterisk, the asterisk, two digits of the body's exclusive-or and `CR`. -/
theorem verify_iff (span : Bytes) : verify span = true ↔
    ∃ body h1 h2 v1 v2, span = chDollar :: body ++ [chStar, h1, h2, chCR] ∧ chStar ∉ body ∧
      hexval h1 = some v1 ∧ hexval h2 = some v2 ∧ (xorAll body).toNat = 16 * v1 + v2 := by
  constructor
  · intro h
    unfold verify at h
    split at h
    · cases h
    rename_i hn
    push Not at hn
    obtain ⟨hlen, hd⟩ := hn
    cases span with
    | nil => simp at hlen
    | cons d tail =>
      obtain rfl : d = chDollar := by simpa using hd
      have hsplit : bodyOf (chDollar :: tail) ++ trailerOf (chDollar :: tail) = tail := List.takeWhile_append_dropWhile
      split at h
      · rename_i st h1 h2 e htr
        split at h
        · rename_i v1 v2 hv1 hv2
          simp only [decide_eq_true_eq] at h
          have hst : st = chStar := by
            have := List.head?_dropWhile_not (p := fun b => decide (b ≠ chStar)) ((chDollar :: tail).drop 1)
            unfold trailerOf at htr
            rw [htr] at this
            simpa using this
          have hbody : chStar ∉ bodyOf (chDollar :: tail) := fun hm => by
            have := List.mem_takeWhile_imp hm
            simp at this
          refine ⟨_, h1, h2, v1, v2, ?_, hbody, hv1, hv2, h.2⟩
          rw [htr, hst, h.1] at hsplit
          rw [List.cons_append, hsplit]
        · cases h
      · cases h
  · rintro ⟨body, h1, h2, v1, v2, rfl, hb, hv1, hv2, hx⟩
    have hall : ∀ b ∈ body, decide (b ≠ chStar) = true := fun b hm => by
      simp only [decide_eq_true_eq]; rintro rfl; exact hb hm
    have hbody : bodyOf (chDollar :: body ++ [chStar, h1, h2, chCR]) = body := by
      unfold bodyOf
      simp only [List.cons_append, List.drop_succ_cons, List.drop_zero]
      rw [List.takeWhile_append_of_pos hall]; simp
    have htr : trailerOf (chDollar :: body ++ [chStar, h1, h2, chCR]) = [chStar, h1, h2, chCR] := by
      unfold trailerOf
      simp only [List.cons_append, List.drop_succ_cons, List.drop_zero]
      rw [List.dropWhile_append_of_pos hall]; simp
    unfold verify
    rw [if_neg (by simp), htr, hbody]
    simp [hv1, hv2, hx]

/-- A verified span ends in `CR`. -/
theorem mem_of_verify {span : Bytes} (h : verify span = true) : chCR ∈ span := by
  obtain ⟨body, h1, h2, v1, v2, rfl, -⟩ := (verify_iff span).mp h
  simp

/-! ## Hexadecimal digits (R94, R99) -/

theorem hexval_hexDigit : ∀ v < 16, hexval (hexDigit v) = some v := by decide

/-! ## The checksum (R241, R242) -/

theorem cksum_append (as bs : Bytes) : cksum (as ++ bs) = bs.foldl cksumStep (cksum as) := List.foldl_append

@[simp] theorem cksum_nil : cksum [] = (0, 0) := rfl

theorem frameBody_eq (cls id : Byte) (payload : Bytes) : frameBody cls id payload =
    cls :: id :: (BitVec.ofNat 16 payload.length).setWidth 8 :: (BitVec.ofNat 16 payload.length >>> 8).setWidth 8 ::
      payload := rfl

end Sys2Proof.Machine
end

