-- ==== Sys2Proof/Laws/State.lean ====
section
/-!
SUPPORT. One lemma per field of State and per update of the shared operations, all true by unfolding, so that no later
proof unfolds a record update.
-/

namespace Sys2Proof.Machine

variable (s : State) (r : Result) (b c i : Byte) (now : Word) (st : Framing) (code : ErrCode) (bit : BitVec 2)
  (p : Bytes) (ks : List Int) (mask : BitVec 4)

/-! ## The result of an operation (R112) -/

@[simp] theorem answer_cfg : (answer r s).cfg = s.cfg := rfl
@[simp] theorem answer_inbox : (answer r s).inbox = s.inbox := rfl
@[simp] theorem answer_result : (answer r s).result = r := rfl
@[simp] theorem answer_buf : (answer r s).buf = s.buf := rfl
@[simp] theorem answer_wr : (answer r s).wr = s.wr := rfl
@[simp] theorem answer_sc : (answer r s).sc = s.sc := rfl
@[simp] theorem answer_ms : (answer r s).ms = s.ms := rfl
@[simp] theorem answer_fsm : (answer r s).fsm = s.fsm := rfl
@[simp] theorem answer_inProgress : (answer r s).inProgress = s.inProgress := rfl
@[simp] theorem answer_msgTime : (answer r s).msgTime = s.msgTime := rfl
@[simp] theorem answer_asm : (answer r s).asm = s.asm := rfl
@[simp] theorem answer_errCode : (answer r s).errCode = s.errCode := rfl
@[simp] theorem answer_errLast : (answer r s).errLast = s.errLast := rfl
@[simp] theorem answer_errCount : (answer r s).errCount = s.errCount := rfl
@[simp] theorem answer_faultReg : (answer r s).faultReg = s.faultReg := rfl
@[simp] theorem answer_halted : (answer r s).halted = s.halted := rfl
@[simp] theorem answer_faultClass : (answer r s).faultClass = s.faultClass := rfl
@[simp] theorem answer_faultId : (answer r s).faultId = s.faultId := rfl
@[simp] theorem answer_cntOther : (answer r s).cntOther = s.cntOther := rfl
@[simp] theorem answer_fieldTrunc : (answer r s).fieldTrunc = s.fieldTrunc := rfl
@[simp] theorem answer_fix : (answer r s).fix = s.fix := rfl
@[simp] theorem answer_newFlags : (answer r s).newFlags = s.newFlags := rfl
@[simp] theorem answer_sv0 : (answer r s).sv0 = s.sv0 := rfl
@[simp] theorem answer_sv1 : (answer r s).sv1 = s.sv1 := rfl
@[simp] theorem answer_curSel : (answer r s).curSel = s.curSel := rfl
@[simp] theorem answer_awaited : (answer r s).awaited = s.awaited := rfl
@[simp] theorem answer_failed : (answer r s).failed = s.failed := rfl
@[simp] theorem answer_ver : (answer r s).ver = s.ver := rfl

/-! ## PUSH (R131) -/

@[simp] theorem pushByte_cfg : (pushByte b s).cfg = s.cfg := rfl
@[simp] theorem pushByte_inbox : (pushByte b s).inbox = s.inbox := rfl
@[simp] theorem pushByte_result : (pushByte b s).result = s.result := rfl
@[simp] theorem pushByte_buf : (pushByte b s).buf = (s.buf.write s.wr b).write (nextCell s.cfg.n s.wr) 0 := rfl
@[simp] theorem pushByte_wr : (pushByte b s).wr = nextCell s.cfg.n s.wr := rfl
@[simp] theorem pushByte_sc : (pushByte b s).sc = s.sc := rfl
@[simp] theorem pushByte_ms : (pushByte b s).ms = s.ms := rfl
@[simp] theorem pushByte_fsm : (pushByte b s).fsm = s.fsm := rfl
@[simp] theorem pushByte_inProgress : (pushByte b s).inProgress = s.inProgress := rfl
@[simp] theorem pushByte_msgTime : (pushByte b s).msgTime = s.msgTime := rfl
@[simp] theorem pushByte_asm : (pushByte b s).asm = s.asm := rfl
@[simp] theorem pushByte_errCode : (pushByte b s).errCode = s.errCode := rfl
@[simp] theorem pushByte_errLast : (pushByte b s).errLast = s.errLast := rfl
@[simp] theorem pushByte_errCount : (pushByte b s).errCount = s.errCount := rfl
@[simp] theorem pushByte_faultReg : (pushByte b s).faultReg = s.faultReg := rfl
@[simp] theorem pushByte_halted : (pushByte b s).halted = s.halted := rfl
@[simp] theorem pushByte_faultClass : (pushByte b s).faultClass = s.faultClass := rfl
@[simp] theorem pushByte_faultId : (pushByte b s).faultId = s.faultId := rfl
@[simp] theorem pushByte_cntOther : (pushByte b s).cntOther = s.cntOther := rfl
@[simp] theorem pushByte_fieldTrunc : (pushByte b s).fieldTrunc = s.fieldTrunc := rfl
@[simp] theorem pushByte_fix : (pushByte b s).fix = s.fix := rfl
@[simp] theorem pushByte_newFlags : (pushByte b s).newFlags = s.newFlags := rfl
@[simp] theorem pushByte_sv0 : (pushByte b s).sv0 = s.sv0 := rfl
@[simp] theorem pushByte_sv1 : (pushByte b s).sv1 = s.sv1 := rfl
@[simp] theorem pushByte_curSel : (pushByte b s).curSel = s.curSel := rfl
@[simp] theorem pushByte_awaited : (pushByte b s).awaited = s.awaited := rfl
@[simp] theorem pushByte_failed : (pushByte b s).failed = s.failed := rfl
@[simp] theorem pushByte_ver : (pushByte b s).ver = s.ver := rfl

/-! ## `advance_scan` (R132) -/

@[simp] theorem advanceScan_cfg : (advanceScan s).cfg = s.cfg := rfl
@[simp] theorem advanceScan_inbox : (advanceScan s).inbox = s.inbox := rfl
@[simp] theorem advanceScan_result : (advanceScan s).result = s.result := rfl
@[simp] theorem advanceScan_buf : (advanceScan s).buf = s.buf := rfl
@[simp] theorem advanceScan_wr : (advanceScan s).wr = s.wr := rfl
@[simp] theorem advanceScan_sc : (advanceScan s).sc = nextCell s.cfg.n s.sc := rfl
@[simp] theorem advanceScan_ms : (advanceScan s).ms = s.ms := rfl
@[simp] theorem advanceScan_fsm : (advanceScan s).fsm = s.fsm := rfl
@[simp] theorem advanceScan_inProgress : (advanceScan s).inProgress = s.inProgress := rfl
@[simp] theorem advanceScan_msgTime : (advanceScan s).msgTime = s.msgTime := rfl
@[simp] theorem advanceScan_asm : (advanceScan s).asm = s.asm := rfl
@[simp] theorem advanceScan_errCode : (advanceScan s).errCode = s.errCode := rfl
@[simp] theorem advanceScan_errLast : (advanceScan s).errLast = s.errLast := rfl
@[simp] theorem advanceScan_errCount : (advanceScan s).errCount = s.errCount := rfl
@[simp] theorem advanceScan_faultReg : (advanceScan s).faultReg = s.faultReg := rfl
@[simp] theorem advanceScan_halted : (advanceScan s).halted = s.halted := rfl
@[simp] theorem advanceScan_faultClass : (advanceScan s).faultClass = s.faultClass := rfl
@[simp] theorem advanceScan_faultId : (advanceScan s).faultId = s.faultId := rfl
@[simp] theorem advanceScan_cntOther : (advanceScan s).cntOther = s.cntOther := rfl
@[simp] theorem advanceScan_fieldTrunc : (advanceScan s).fieldTrunc = s.fieldTrunc := rfl
@[simp] theorem advanceScan_fix : (advanceScan s).fix = s.fix := rfl
@[simp] theorem advanceScan_newFlags : (advanceScan s).newFlags = s.newFlags := rfl
@[simp] theorem advanceScan_sv0 : (advanceScan s).sv0 = s.sv0 := rfl
@[simp] theorem advanceScan_sv1 : (advanceScan s).sv1 = s.sv1 := rfl
@[simp] theorem advanceScan_curSel : (advanceScan s).curSel = s.curSel := rfl
@[simp] theorem advanceScan_awaited : (advanceScan s).awaited = s.awaited := rfl
@[simp] theorem advanceScan_failed : (advanceScan s).failed = s.failed := rfl
@[simp] theorem advanceScan_ver : (advanceScan s).ver = s.ver := rfl

/-! ## Stepping past a byte (R133) -/

@[simp] theorem consumeByte_cfg : (consumeByte s).cfg = s.cfg := rfl
@[simp] theorem consumeByte_inbox : (consumeByte s).inbox = s.inbox := rfl
@[simp] theorem consumeByte_result : (consumeByte s).result = s.result := rfl
@[simp] theorem consumeByte_buf : (consumeByte s).buf = s.buf := rfl
@[simp] theorem consumeByte_wr : (consumeByte s).wr = s.wr := rfl
@[simp] theorem consumeByte_sc : (consumeByte s).sc = nextCell s.cfg.n s.sc := rfl
@[simp] theorem consumeByte_ms : (consumeByte s).ms = nextCell s.cfg.n s.sc := rfl
@[simp] theorem consumeByte_fsm : (consumeByte s).fsm = s.fsm := rfl
@[simp] theorem consumeByte_inProgress : (consumeByte s).inProgress = s.inProgress := rfl
@[simp] theorem consumeByte_msgTime : (consumeByte s).msgTime = s.msgTime := rfl
@[simp] theorem consumeByte_asm : (consumeByte s).asm = s.asm := rfl
@[simp] theorem consumeByte_errCode : (consumeByte s).errCode = s.errCode := rfl
@[simp] theorem consumeByte_errLast : (consumeByte s).errLast = s.errLast := rfl
@[simp] theorem consumeByte_errCount : (consumeByte s).errCount = s.errCount := rfl
@[simp] theorem consumeByte_faultReg : (consumeByte s).faultReg = s.faultReg := rfl
@[simp] theorem consumeByte_halted : (consumeByte s).halted = s.halted := rfl
@[simp] theorem consumeByte_faultClass : (consumeByte s).faultClass = s.faultClass := rfl
@[simp] theorem consumeByte_faultId : (consumeByte s).faultId = s.faultId := rfl
@[simp] theorem consumeByte_cntOther : (consumeByte s).cntOther = s.cntOther := rfl
@[simp] theorem consumeByte_fieldTrunc : (consumeByte s).fieldTrunc = s.fieldTrunc := rfl
@[simp] theorem consumeByte_fix : (consumeByte s).fix = s.fix := rfl
@[simp] theorem consumeByte_newFlags : (consumeByte s).newFlags = s.newFlags := rfl
@[simp] theorem consumeByte_sv0 : (consumeByte s).sv0 = s.sv0 := rfl
@[simp] theorem consumeByte_sv1 : (consumeByte s).sv1 = s.sv1 := rfl
@[simp] theorem consumeByte_curSel : (consumeByte s).curSel = s.curSel := rfl
@[simp] theorem consumeByte_awaited : (consumeByte s).awaited = s.awaited := rfl
@[simp] theorem consumeByte_failed : (consumeByte s).failed = s.failed := rfl
@[simp] theorem consumeByte_ver : (consumeByte s).ver = s.ver := rfl

/-! ## Leaving `Idle` (R152) -/

@[simp] theorem beginMessage_cfg : (beginMessage now st s).cfg = s.cfg := rfl
@[simp] theorem beginMessage_inbox : (beginMessage now st s).inbox = s.inbox := rfl
@[simp] theorem beginMessage_result : (beginMessage now st s).result = s.result := rfl
@[simp] theorem beginMessage_buf : (beginMessage now st s).buf = s.buf := rfl
@[simp] theorem beginMessage_wr : (beginMessage now st s).wr = s.wr := rfl
@[simp] theorem beginMessage_sc : (beginMessage now st s).sc = s.sc := rfl
@[simp] theorem beginMessage_ms : (beginMessage now st s).ms = s.ms := rfl
@[simp] theorem beginMessage_fsm : (beginMessage now st s).fsm = st := rfl
@[simp] theorem beginMessage_inProgress : (beginMessage now st s).inProgress = true := rfl
@[simp] theorem beginMessage_msgTime : (beginMessage now st s).msgTime = now := rfl
@[simp] theorem beginMessage_asm : (beginMessage now st s).asm = s.asm := rfl
@[simp] theorem beginMessage_errCode : (beginMessage now st s).errCode = s.errCode := rfl
@[simp] theorem beginMessage_errLast : (beginMessage now st s).errLast = s.errLast := rfl
@[simp] theorem beginMessage_errCount : (beginMessage now st s).errCount = s.errCount := rfl
@[simp] theorem beginMessage_faultReg : (beginMessage now st s).faultReg = s.faultReg := rfl
@[simp] theorem beginMessage_halted : (beginMessage now st s).halted = s.halted := rfl
@[simp] theorem beginMessage_faultClass : (beginMessage now st s).faultClass = s.faultClass := rfl
@[simp] theorem beginMessage_faultId : (beginMessage now st s).faultId = s.faultId := rfl
@[simp] theorem beginMessage_cntOther : (beginMessage now st s).cntOther = s.cntOther := rfl
@[simp] theorem beginMessage_fieldTrunc : (beginMessage now st s).fieldTrunc = s.fieldTrunc := rfl
@[simp] theorem beginMessage_fix : (beginMessage now st s).fix = s.fix := rfl
@[simp] theorem beginMessage_newFlags : (beginMessage now st s).newFlags = s.newFlags := rfl
@[simp] theorem beginMessage_sv0 : (beginMessage now st s).sv0 = s.sv0 := rfl
@[simp] theorem beginMessage_sv1 : (beginMessage now st s).sv1 = s.sv1 := rfl
@[simp] theorem beginMessage_curSel : (beginMessage now st s).curSel = s.curSel := rfl
@[simp] theorem beginMessage_awaited : (beginMessage now st s).awaited = s.awaited := rfl
@[simp] theorem beginMessage_failed : (beginMessage now st s).failed = s.failed := rfl
@[simp] theorem beginMessage_ver : (beginMessage now st s).ver = s.ver := rfl

/-! ## Taking a framing error (R322) -/

@[simp] theorem raiseError_cfg : (raiseError code s).cfg = s.cfg := rfl
@[simp] theorem raiseError_inbox : (raiseError code s).inbox = s.inbox := rfl
@[simp] theorem raiseError_result : (raiseError code s).result = s.result := rfl
@[simp] theorem raiseError_buf : (raiseError code s).buf = s.buf := rfl
@[simp] theorem raiseError_wr : (raiseError code s).wr = s.wr := rfl
@[simp] theorem raiseError_sc : (raiseError code s).sc = s.sc := rfl
@[simp] theorem raiseError_ms : (raiseError code s).ms = s.ms := rfl
@[simp] theorem raiseError_fsm : (raiseError code s).fsm = .error := rfl
@[simp] theorem raiseError_inProgress : (raiseError code s).inProgress = s.inProgress := rfl
@[simp] theorem raiseError_msgTime : (raiseError code s).msgTime = s.msgTime := rfl
@[simp] theorem raiseError_asm : (raiseError code s).asm = s.asm := rfl
@[simp] theorem raiseError_errCode : (raiseError code s).errCode = code := rfl
@[simp] theorem raiseError_errLast : (raiseError code s).errLast = s.errLast := rfl
@[simp] theorem raiseError_errCount : (raiseError code s).errCount = s.errCount := rfl
@[simp] theorem raiseError_faultReg : (raiseError code s).faultReg = s.faultReg := rfl
@[simp] theorem raiseError_halted : (raiseError code s).halted = s.halted := rfl
@[simp] theorem raiseError_faultClass : (raiseError code s).faultClass = s.faultClass := rfl
@[simp] theorem raiseError_faultId : (raiseError code s).faultId = s.faultId := rfl
@[simp] theorem raiseError_cntOther : (raiseError code s).cntOther = s.cntOther := rfl
@[simp] theorem raiseError_fieldTrunc : (raiseError code s).fieldTrunc = s.fieldTrunc := rfl
@[simp] theorem raiseError_fix : (raiseError code s).fix = s.fix := rfl
@[simp] theorem raiseError_newFlags : (raiseError code s).newFlags = s.newFlags := rfl
@[simp] theorem raiseError_sv0 : (raiseError code s).sv0 = s.sv0 := rfl
@[simp] theorem raiseError_sv1 : (raiseError code s).sv1 = s.sv1 := rfl
@[simp] theorem raiseError_curSel : (raiseError code s).curSel = s.curSel := rfl
@[simp] theorem raiseError_awaited : (raiseError code s).awaited = s.awaited := rfl
@[simp] theorem raiseError_failed : (raiseError code s).failed = s.failed := rfl
@[simp] theorem raiseError_ver : (raiseError code s).ver = s.ver := rfl

/-! ## The Error TICK (R323) -/

@[simp] theorem errorEntry_cfg : (errorEntry s).cfg = s.cfg := rfl
@[simp] theorem errorEntry_inbox : (errorEntry s).inbox = s.inbox := rfl
@[simp] theorem errorEntry_result : (errorEntry s).result = s.result := rfl
@[simp] theorem errorEntry_buf : (errorEntry s).buf = s.buf := rfl
@[simp] theorem errorEntry_wr : (errorEntry s).wr = s.wr := rfl
@[simp] theorem errorEntry_sc : (errorEntry s).sc = s.sc := rfl
@[simp] theorem errorEntry_ms : (errorEntry s).ms = s.sc := rfl
@[simp] theorem errorEntry_fsm : (errorEntry s).fsm = .idle := rfl
@[simp] theorem errorEntry_inProgress : (errorEntry s).inProgress = false := rfl
@[simp] theorem errorEntry_msgTime : (errorEntry s).msgTime = s.msgTime := rfl
@[simp] theorem errorEntry_asm : (errorEntry s).asm = { s.asm with payOwned := false } := rfl
@[simp] theorem errorEntry_errCode : (errorEntry s).errCode = s.errCode := rfl
@[simp] theorem errorEntry_errLast : (errorEntry s).errLast = s.errCode := rfl
@[simp] theorem errorEntry_errCount : (errorEntry s).errCount = s.errCount + 1 := rfl
@[simp] theorem errorEntry_faultReg : (errorEntry s).faultReg = s.faultReg := rfl
@[simp] theorem errorEntry_halted : (errorEntry s).halted = s.halted := rfl
@[simp] theorem errorEntry_faultClass : (errorEntry s).faultClass = s.faultClass := rfl
@[simp] theorem errorEntry_faultId : (errorEntry s).faultId = s.faultId := rfl
@[simp] theorem errorEntry_cntOther : (errorEntry s).cntOther = s.cntOther := rfl
@[simp] theorem errorEntry_fieldTrunc : (errorEntry s).fieldTrunc = s.fieldTrunc := rfl
@[simp] theorem errorEntry_fix : (errorEntry s).fix = s.fix := rfl
@[simp] theorem errorEntry_newFlags : (errorEntry s).newFlags = s.newFlags := rfl
@[simp] theorem errorEntry_sv0 : (errorEntry s).sv0 = s.sv0 := rfl
@[simp] theorem errorEntry_sv1 : (errorEntry s).sv1 = s.sv1 := rfl
@[simp] theorem errorEntry_curSel : (errorEntry s).curSel = s.curSel := rfl
@[simp] theorem errorEntry_awaited : (errorEntry s).awaited = s.awaited := rfl
@[simp] theorem errorEntry_failed : (errorEntry s).failed = s.failed := rfl
@[simp] theorem errorEntry_ver : (errorEntry s).ver = s.ver := rfl

/-! ## A fatal fault (R330) -/

@[simp] theorem raiseFault_cfg : (raiseFault bit s).cfg = s.cfg := rfl
@[simp] theorem raiseFault_inbox : (raiseFault bit s).inbox = s.inbox := rfl
@[simp] theorem raiseFault_result : (raiseFault bit s).result = s.result := rfl
@[simp] theorem raiseFault_buf : (raiseFault bit s).buf = s.buf := rfl
@[simp] theorem raiseFault_wr : (raiseFault bit s).wr = s.wr := rfl
@[simp] theorem raiseFault_sc : (raiseFault bit s).sc = s.sc := rfl
@[simp] theorem raiseFault_ms : (raiseFault bit s).ms = s.ms := rfl
@[simp] theorem raiseFault_fsm : (raiseFault bit s).fsm = s.fsm := rfl
@[simp] theorem raiseFault_inProgress : (raiseFault bit s).inProgress = s.inProgress := rfl
@[simp] theorem raiseFault_msgTime : (raiseFault bit s).msgTime = s.msgTime := rfl
@[simp] theorem raiseFault_asm : (raiseFault bit s).asm = s.asm := rfl
@[simp] theorem raiseFault_errCode : (raiseFault bit s).errCode = s.errCode := rfl
@[simp] theorem raiseFault_errLast : (raiseFault bit s).errLast = s.errLast := rfl
@[simp] theorem raiseFault_errCount : (raiseFault bit s).errCount = s.errCount := rfl
@[simp] theorem raiseFault_faultReg : (raiseFault bit s).faultReg = (s.faultReg ||| bit) := rfl
@[simp] theorem raiseFault_halted : (raiseFault bit s).halted = true := rfl
@[simp] theorem raiseFault_faultClass : (raiseFault bit s).faultClass = s.faultClass := rfl
@[simp] theorem raiseFault_faultId : (raiseFault bit s).faultId = s.faultId := rfl
@[simp] theorem raiseFault_cntOther : (raiseFault bit s).cntOther = s.cntOther := rfl
@[simp] theorem raiseFault_fieldTrunc : (raiseFault bit s).fieldTrunc = s.fieldTrunc := rfl
@[simp] theorem raiseFault_fix : (raiseFault bit s).fix = s.fix := rfl
@[simp] theorem raiseFault_newFlags : (raiseFault bit s).newFlags = s.newFlags := rfl
@[simp] theorem raiseFault_sv0 : (raiseFault bit s).sv0 = s.sv0 := rfl
@[simp] theorem raiseFault_sv1 : (raiseFault bit s).sv1 = s.sv1 := rfl
@[simp] theorem raiseFault_curSel : (raiseFault bit s).curSel = s.curSel := rfl
@[simp] theorem raiseFault_awaited : (raiseFault bit s).awaited = s.awaited := rfl
@[simp] theorem raiseFault_failed : (raiseFault bit s).failed = s.failed := rfl
@[simp] theorem raiseFault_ver : (raiseFault bit s).ver = s.ver := rfl

/-! ## `resolve` (R282) -/

@[simp] theorem resolveKey_cfg : (resolveKey c i s).cfg = s.cfg := rfl
@[simp] theorem resolveKey_inbox : (resolveKey c i s).inbox = s.inbox := rfl
@[simp] theorem resolveKey_result : (resolveKey c i s).result = s.result := rfl
@[simp] theorem resolveKey_buf : (resolveKey c i s).buf = s.buf := rfl
@[simp] theorem resolveKey_wr : (resolveKey c i s).wr = s.wr := rfl
@[simp] theorem resolveKey_sc : (resolveKey c i s).sc = s.sc := rfl
@[simp] theorem resolveKey_ms : (resolveKey c i s).ms = s.ms := rfl
@[simp] theorem resolveKey_fsm : (resolveKey c i s).fsm = s.fsm := rfl
@[simp] theorem resolveKey_inProgress : (resolveKey c i s).inProgress = s.inProgress := rfl
@[simp] theorem resolveKey_msgTime : (resolveKey c i s).msgTime = s.msgTime := rfl
@[simp] theorem resolveKey_asm : (resolveKey c i s).asm = s.asm := rfl
@[simp] theorem resolveKey_errCode : (resolveKey c i s).errCode = s.errCode := rfl
@[simp] theorem resolveKey_errLast : (resolveKey c i s).errLast = s.errLast := rfl
@[simp] theorem resolveKey_errCount : (resolveKey c i s).errCount = s.errCount := rfl
@[simp] theorem resolveKey_faultReg : (resolveKey c i s).faultReg = s.faultReg := rfl
@[simp] theorem resolveKey_halted : (resolveKey c i s).halted = s.halted := rfl
@[simp] theorem resolveKey_faultClass : (resolveKey c i s).faultClass = s.faultClass := rfl
@[simp] theorem resolveKey_faultId : (resolveKey c i s).faultId = s.faultId := rfl
@[simp] theorem resolveKey_cntOther : (resolveKey c i s).cntOther = s.cntOther := rfl
@[simp] theorem resolveKey_fieldTrunc : (resolveKey c i s).fieldTrunc = s.fieldTrunc := rfl
@[simp] theorem resolveKey_fix : (resolveKey c i s).fix = s.fix := rfl
@[simp] theorem resolveKey_newFlags : (resolveKey c i s).newFlags = s.newFlags := rfl
@[simp] theorem resolveKey_sv0 : (resolveKey c i s).sv0 = s.sv0 := rfl
@[simp] theorem resolveKey_sv1 : (resolveKey c i s).sv1 = s.sv1 := rfl
@[simp] theorem resolveKey_curSel : (resolveKey c i s).curSel = s.curSel := rfl
@[simp] theorem resolveKey_awaited : (resolveKey c i s).awaited = s.awaited.filter (fun e => !e.hasKey c i) := rfl
@[simp] theorem resolveKey_failed : (resolveKey c i s).failed = s.failed := rfl
@[simp] theorem resolveKey_ver : (resolveKey c i s).ver = s.ver := rfl

/-! ## The sticky truncation flag (R195) -/

@[simp] theorem noteTruncation_cfg : (noteTruncation p ks s).cfg = s.cfg := rfl
@[simp] theorem noteTruncation_inbox : (noteTruncation p ks s).inbox = s.inbox := rfl
@[simp] theorem noteTruncation_result : (noteTruncation p ks s).result = s.result := rfl
@[simp] theorem noteTruncation_buf : (noteTruncation p ks s).buf = s.buf := rfl
@[simp] theorem noteTruncation_wr : (noteTruncation p ks s).wr = s.wr := rfl
@[simp] theorem noteTruncation_sc : (noteTruncation p ks s).sc = s.sc := rfl
@[simp] theorem noteTruncation_ms : (noteTruncation p ks s).ms = s.ms := rfl
@[simp] theorem noteTruncation_fsm : (noteTruncation p ks s).fsm = s.fsm := rfl
@[simp] theorem noteTruncation_inProgress : (noteTruncation p ks s).inProgress = s.inProgress := rfl
@[simp] theorem noteTruncation_msgTime : (noteTruncation p ks s).msgTime = s.msgTime := rfl
@[simp] theorem noteTruncation_asm : (noteTruncation p ks s).asm = s.asm := rfl
@[simp] theorem noteTruncation_errCode : (noteTruncation p ks s).errCode = s.errCode := rfl
@[simp] theorem noteTruncation_errLast : (noteTruncation p ks s).errLast = s.errLast := rfl
@[simp] theorem noteTruncation_errCount : (noteTruncation p ks s).errCount = s.errCount := rfl
@[simp] theorem noteTruncation_faultReg : (noteTruncation p ks s).faultReg = s.faultReg := rfl
@[simp] theorem noteTruncation_halted : (noteTruncation p ks s).halted = s.halted := rfl
@[simp] theorem noteTruncation_faultClass : (noteTruncation p ks s).faultClass = s.faultClass := rfl
@[simp] theorem noteTruncation_faultId : (noteTruncation p ks s).faultId = s.faultId := rfl
@[simp] theorem noteTruncation_cntOther : (noteTruncation p ks s).cntOther = s.cntOther := rfl
@[simp] theorem noteTruncation_fieldTrunc : (noteTruncation p ks s).fieldTrunc =
  (s.fieldTrunc || ks.any (fieldTruncated s.cfg p)) := rfl
@[simp] theorem noteTruncation_fix : (noteTruncation p ks s).fix = s.fix := rfl
@[simp] theorem noteTruncation_newFlags : (noteTruncation p ks s).newFlags = s.newFlags := rfl
@[simp] theorem noteTruncation_sv0 : (noteTruncation p ks s).sv0 = s.sv0 := rfl
@[simp] theorem noteTruncation_sv1 : (noteTruncation p ks s).sv1 = s.sv1 := rfl
@[simp] theorem noteTruncation_curSel : (noteTruncation p ks s).curSel = s.curSel := rfl
@[simp] theorem noteTruncation_awaited : (noteTruncation p ks s).awaited = s.awaited := rfl
@[simp] theorem noteTruncation_failed : (noteTruncation p ks s).failed = s.failed := rfl
@[simp] theorem noteTruncation_ver : (noteTruncation p ks s).ver = s.ver := rfl

/-! ## Setting an indicator (R38) -/

@[simp] theorem raiseFlag_cfg : (raiseFlag mask s).cfg = s.cfg := rfl
@[simp] theorem raiseFlag_inbox : (raiseFlag mask s).inbox = s.inbox := rfl
@[simp] theorem raiseFlag_result : (raiseFlag mask s).result = s.result := rfl
@[simp] theorem raiseFlag_buf : (raiseFlag mask s).buf = s.buf := rfl
@[simp] theorem raiseFlag_wr : (raiseFlag mask s).wr = s.wr := rfl
@[simp] theorem raiseFlag_sc : (raiseFlag mask s).sc = s.sc := rfl
@[simp] theorem raiseFlag_ms : (raiseFlag mask s).ms = s.ms := rfl
@[simp] theorem raiseFlag_fsm : (raiseFlag mask s).fsm = s.fsm := rfl
@[simp] theorem raiseFlag_inProgress : (raiseFlag mask s).inProgress = s.inProgress := rfl
@[simp] theorem raiseFlag_msgTime : (raiseFlag mask s).msgTime = s.msgTime := rfl
@[simp] theorem raiseFlag_asm : (raiseFlag mask s).asm = s.asm := rfl
@[simp] theorem raiseFlag_errCode : (raiseFlag mask s).errCode = s.errCode := rfl
@[simp] theorem raiseFlag_errLast : (raiseFlag mask s).errLast = s.errLast := rfl
@[simp] theorem raiseFlag_errCount : (raiseFlag mask s).errCount = s.errCount := rfl
@[simp] theorem raiseFlag_faultReg : (raiseFlag mask s).faultReg = s.faultReg := rfl
@[simp] theorem raiseFlag_halted : (raiseFlag mask s).halted = s.halted := rfl
@[simp] theorem raiseFlag_faultClass : (raiseFlag mask s).faultClass = s.faultClass := rfl
@[simp] theorem raiseFlag_faultId : (raiseFlag mask s).faultId = s.faultId := rfl
@[simp] theorem raiseFlag_cntOther : (raiseFlag mask s).cntOther = s.cntOther := rfl
@[simp] theorem raiseFlag_fieldTrunc : (raiseFlag mask s).fieldTrunc = s.fieldTrunc := rfl
@[simp] theorem raiseFlag_fix : (raiseFlag mask s).fix = s.fix := rfl
@[simp] theorem raiseFlag_newFlags : (raiseFlag mask s).newFlags = (s.newFlags ||| mask) := rfl
@[simp] theorem raiseFlag_sv0 : (raiseFlag mask s).sv0 = s.sv0 := rfl
@[simp] theorem raiseFlag_sv1 : (raiseFlag mask s).sv1 = s.sv1 := rfl
@[simp] theorem raiseFlag_curSel : (raiseFlag mask s).curSel = s.curSel := rfl
@[simp] theorem raiseFlag_awaited : (raiseFlag mask s).awaited = s.awaited := rfl
@[simp] theorem raiseFlag_failed : (raiseFlag mask s).failed = s.failed := rfl
@[simp] theorem raiseFlag_ver : (raiseFlag mask s).ver = s.ver := rfl

/-! ## What follows `dispatch` (R164) -/

@[simp] theorem finishFrame_cfg : (finishFrame s).cfg = s.cfg := rfl
@[simp] theorem finishFrame_inbox : (finishFrame s).inbox = s.inbox := rfl
@[simp] theorem finishFrame_result : (finishFrame s).result = s.result := rfl
@[simp] theorem finishFrame_buf : (finishFrame s).buf = s.buf := rfl
@[simp] theorem finishFrame_wr : (finishFrame s).wr = s.wr := rfl
@[simp] theorem finishFrame_sc : (finishFrame s).sc = s.sc := rfl
@[simp] theorem finishFrame_ms : (finishFrame s).ms = s.ms := rfl
@[simp] theorem finishFrame_fsm : (finishFrame s).fsm = .idle := rfl
@[simp] theorem finishFrame_inProgress : (finishFrame s).inProgress = false := rfl
@[simp] theorem finishFrame_msgTime : (finishFrame s).msgTime = s.msgTime := rfl
@[simp] theorem finishFrame_asm : (finishFrame s).asm = { s.asm with payOwned := false } := rfl
@[simp] theorem finishFrame_errCode : (finishFrame s).errCode = s.errCode := rfl
@[simp] theorem finishFrame_errLast : (finishFrame s).errLast = s.errLast := rfl
@[simp] theorem finishFrame_errCount : (finishFrame s).errCount = s.errCount := rfl
@[simp] theorem finishFrame_faultReg : (finishFrame s).faultReg = s.faultReg := rfl
@[simp] theorem finishFrame_halted : (finishFrame s).halted = s.halted := rfl
@[simp] theorem finishFrame_faultClass : (finishFrame s).faultClass = s.faultClass := rfl
@[simp] theorem finishFrame_faultId : (finishFrame s).faultId = s.faultId := rfl
@[simp] theorem finishFrame_cntOther : (finishFrame s).cntOther = s.cntOther := rfl
@[simp] theorem finishFrame_fieldTrunc : (finishFrame s).fieldTrunc = s.fieldTrunc := rfl
@[simp] theorem finishFrame_fix : (finishFrame s).fix = s.fix := rfl
@[simp] theorem finishFrame_newFlags : (finishFrame s).newFlags = s.newFlags := rfl
@[simp] theorem finishFrame_sv0 : (finishFrame s).sv0 = s.sv0 := rfl
@[simp] theorem finishFrame_sv1 : (finishFrame s).sv1 = s.sv1 := rfl
@[simp] theorem finishFrame_curSel : (finishFrame s).curSel = s.curSel := rfl
@[simp] theorem finishFrame_awaited : (finishFrame s).awaited = s.awaited := rfl
@[simp] theorem finishFrame_failed : (finishFrame s).failed = s.failed := rfl
@[simp] theorem finishFrame_ver : (finishFrame s).ver = s.ver := rfl

end Sys2Proof.Machine
end

