-- ==== Sys2Proof/Laws/Ledger.lean ====
section
/-!
SUPPORT. The Ledger's internal functions (45_ledger.md): for each, once, everything it can do.
-/

namespace Sys2Proof.Machine

/-! ## Capacities -/

@[simp] theorem atCapacity_none (len : Nat) : atCapacity none len = false := rfl

@[simp] theorem atCapacity_some (k len : Nat) : atCapacity (some k) len = decide (k ≤ len) := rfl

/-- With room for one more entry, the longer queue is within the capacity. -/
theorem withinCap_succ {cap : Option Nat} {len : Nat} (h : atCapacity cap len = false) : withinCap cap (len + 1) := by
  cases cap with
  | none => intro k hk; simp at hk
  | some k => intro j hj; simp at h hj; omega

theorem withinCap_mono {cap : Option Nat} {a b : Nat} (h : withinCap cap b) (hab : a ≤ b) : withinCap cap a :=
  fun k hk => hab.trans (h k hk)

/-! ## Entries -/

variable (s : State) (cls id : Byte)

/-- `register` (R281): the entry is appended, or the block halts. -/
theorem registerEntry_cases (ts : Word) :
    atCapacity s.cfg.awaitCap s.awaited.length = false ∧
      registerEntry cls id ts s = { s with awaited := s.awaited ++ [⟨cls, id, ts⟩] } ∨
    atCapacity s.cfg.awaitCap s.awaited.length = true ∧ registerEntry cls id ts s = raiseFault FAULT_RESOURCE s := by
  unfold registerEntry
  cases atCapacity s.cfg.awaitCap s.awaited.length <;> simp

/-- `fail_add` (R283): the entry is appended, or the block halts. -/
theorem failAdd_cases (r : Reason) :
    atCapacity s.cfg.failCap s.failed.length = false ∧
      failAdd cls id r s = { s with failed := s.failed ++ [⟨cls, id, r⟩] } ∨
    atCapacity s.cfg.failCap s.failed.length = true ∧ failAdd cls id r s = raiseFault FAULT_RESOURCE s := by
  unfold failAdd
  cases atCapacity s.cfg.failCap s.failed.length <;> simp

/-! ## The sweep (R284) -/

/-- What a sweep can do to everything but `awaited`: entries appended to `failed`, within its capacity, and perhaps the
resource fault. -/
structure SweptFrom (s t : State) : Prop where
  frame : t = { s with awaited := t.awaited, failed := t.failed, faultReg := t.faultReg, halted := t.halted }
  fault : t.faultReg = s.faultReg ∧ t.halted = s.halted ∨ t.faultReg = s.faultReg ||| FAULT_RESOURCE ∧ t.halted = true
  failed : ∃ added, t.failed = s.failed ++ added
  within : withinCap s.cfg.failCap s.failed.length → withinCap s.cfg.failCap t.failed.length

theorem or_or_same (a b : BitVec 2) : a ||| b ||| b = a ||| b := by rw [BitVec.or_assoc, BitVec.or_self]

theorem SweptFrom.refl (s : State) : SweptFrom s s := ⟨rfl, .inl ⟨rfl, rfl⟩, ⟨[], by simp⟩, fun h => h⟩

theorem SweptFrom.trans {s t u : State} (h : SweptFrom s t) (h' : SweptFrom t u) : SweptFrom s u := by
  have hc : t.cfg = s.cfg := by rw [h.frame]
  refine ⟨?_, ?_, ?_, fun hw => ?_⟩
  · rw [h'.frame, h.frame]
  · rcases h'.fault with ⟨h1, h2⟩ | ⟨h1, h2⟩
    · rw [h1, h2]; exact h.fault
    · rcases h.fault with ⟨h3, h4⟩ | ⟨h3, h4⟩
      · exact .inr ⟨by rw [h1, h3], h2⟩
      · exact .inr ⟨by rw [h1, h3, or_or_same], h2⟩
  · obtain ⟨a, ha⟩ := h.failed
    obtain ⟨b, hb⟩ := h'.failed
    exact ⟨a ++ b, by rw [hb, ha, List.append_assoc]⟩
  · exact hc ▸ h'.within (hc ▸ h.within hw)

theorem sweptFrom_awaited (l : List AwaitEntry) : SweptFrom s { s with awaited := l } :=
  ⟨rfl, .inl ⟨rfl, rfl⟩, ⟨[], by simp⟩, fun h => h⟩

theorem sweptFrom_failAdd (r : Reason) : SweptFrom s (failAdd cls id r s) := by
  rcases failAdd_cases s cls id r with ⟨hc, he⟩ | ⟨-, he⟩ <;> rw [he]
  · exact ⟨rfl, .inl ⟨rfl, rfl⟩, ⟨[_], rfl⟩, fun _ => by simpa using withinCap_succ hc⟩
  · exact ⟨rfl, .inr ⟨rfl, rfl⟩, ⟨[], by simp⟩, fun h => h⟩

@[simp] theorem failAdd_awaited (r : Reason) : (failAdd cls id r s).awaited = s.awaited := by
  rcases failAdd_cases s cls id r with ⟨-, he⟩ | ⟨-, he⟩ <;> simp [he]

theorem sweptFrom_sweepEntry (now limit : Word) (e : AwaitEntry) : SweptFrom s (sweepEntry now limit s e) := by
  unfold sweepEntry
  split
  · exact sweptFrom_failAdd s e.cls e.id .timeout
  · exact sweptFrom_awaited s _

theorem sweepEntry_awaited (now limit : Word) (e : AwaitEntry) :
    (sweepEntry now limit s e).awaited = s.awaited ++ [e].filter (fun e => !expired now e.ts limit) := by
  unfold sweepEntry
  cases h : expired now e.ts limit <;> simp [h]

theorem sweptFrom_fold (now limit : Word) (es : List AwaitEntry) : SweptFrom s (es.foldl (sweepEntry now limit) s) := by
  induction es generalizing s with
  | nil => exact .refl s
  | cons e es ih => exact (sweptFrom_sweepEntry s now limit e).trans (ih _)

theorem sweepFold_awaited (now limit : Word) (es : List AwaitEntry) :
    (es.foldl (sweepEntry now limit) s).awaited = s.awaited ++ es.filter (fun e => !expired now e.ts limit) := by
  induction es generalizing s with
  | nil => simp
  | cons e es ih => rw [List.foldl_cons, ih, sweepEntry_awaited, List.append_assoc, ← List.filter_append]; rfl

/-- The whole sweep. -/
theorem sweptFrom_ledgerSweep (now limit : Word) : SweptFrom s (ledgerSweep now limit s) :=
  (sweptFrom_awaited s []).trans (sweptFrom_fold _ now limit s.awaited)

/-- What stays in the queue: the entries not older than the limit, in order. -/
@[simp] theorem ledgerSweep_awaited (now limit : Word) :
    (ledgerSweep now limit s).awaited = s.awaited.filter (fun e => !expired now e.ts limit) := by
  unfold ledgerSweep
  rw [sweepFold_awaited, List.nil_append]

/-- Nothing awaited, nothing swept. -/
theorem ledgerSweep_nil (now limit : Word) (h : s.awaited = []) : ledgerSweep now limit s = s := by
  unfold ledgerSweep
  rw [h, List.foldl_nil, ← h]

/-- A sweep that did not halt the block raised no fault. -/
theorem ledgerSweep_running (now limit : Word) (h : (ledgerSweep now limit s).halted = false) :
    (ledgerSweep now limit s).faultReg = s.faultReg ∧ s.halted = false := by
  rcases (sweptFrom_ledgerSweep s now limit).fault with ⟨h1, h2⟩ | ⟨-, h2⟩
  · exact ⟨h1, h2 ▸ h⟩
  · rw [h2] at h; cases h

/-! ## The result field -/

/-- The result of the last operation plays no part in the sweep. -/
theorem failAdd_answer (r : Result) (why : Reason) : failAdd cls id why (answer r s) = answer r (failAdd cls id why s) := by
  unfold failAdd
  by_cases h : atCapacity s.cfg.failCap s.failed.length = true <;> simp [h] <;> rfl

theorem sweepEntry_answer (r : Result) (now limit : Word) (e : AwaitEntry) :
    sweepEntry now limit (answer r s) e = answer r (sweepEntry now limit s e) := by
  unfold sweepEntry
  split
  · exact failAdd_answer s e.cls e.id r .timeout
  · rfl

theorem sweepFold_answer (r : Result) (now limit : Word) (es : List AwaitEntry) :
    es.foldl (sweepEntry now limit) (answer r s) = answer r (es.foldl (sweepEntry now limit) s) := by
  induction es generalizing s with
  | nil => rfl
  | cons e es ih => rw [List.foldl_cons, sweepEntry_answer, ih, List.foldl_cons]

theorem ledgerSweep_answer (r : Result) (now limit : Word) :
    ledgerSweep now limit (answer r s) = answer r (ledgerSweep now limit s) :=
  sweepFold_answer { s with awaited := [] } r now limit s.awaited

end Sys2Proof.Machine
end

