-- ==== Sys2Proof/Laws/Memory.lean ====
section
/-!
SUPPORT. The byte arrays: reading after writing, and that every operation on them keeps the canonical form.
-/

namespace Sys2Proof.Machine

@[simp] theorem Memory.read_nil (x : Nat) : Memory.read [] x = 0 := rfl

theorem Memory.read_cons (a : Nat) (v : Byte) (m : Memory) (x : Nat) :
    Memory.read ((a, v) :: m) x = if a = x then v else Memory.read m x := rfl

/-- An address that is not listed reads as 0. -/
theorem Memory.read_unlisted : ∀ (m : Memory) (x : Nat), (∀ p ∈ m, p.1 ≠ x) → m.read x = 0
  | [], _, _ => rfl
  | (a, v) :: m, x, h => by
    have ha : a ≠ x := h (a, v) (by simp)
    rw [Memory.read_cons, if_neg ha]
    exact Memory.read_unlisted m x fun p hp => h p (by simp [hp])

theorem Memory.wf_cons {c : Host.Cell} {m : Memory} :
    Memory.wf (c :: m) ↔ (∀ p ∈ m, c.1 < p.1) ∧ c.2 ≠ 0 ∧ Memory.wf m := by
  simp only [Memory.wf, List.pairwise_cons, List.forall_mem_cons]
  tauto

theorem Memory.wf_nil : Memory.wf [] := by simp [Memory.wf]

/-- What a listed address after a write is: the one written, or one listed before. -/
theorem Memory.mem_write : ∀ (m : Memory) (x : Nat) (b : Byte) (p : Host.Cell), p ∈ m.write x b → p = (x, b) ∧ b ≠ 0 ∨ p ∈ m
  | [], x, b, p, h => by
    unfold Memory.write at h
    split at h <;> simp_all
  | (a, v) :: m, x, b, p, h => by
    unfold Memory.write at h
    split at h
    · split at h <;> simp_all
    · split at h
      · split at h <;> simp_all
        tauto
      · rcases List.mem_cons.mp h with h | h
        · exact .inr (by simp [h])
        · rcases Memory.mem_write m x b p h with h | h
          · exact .inl h
          · exact .inr (by simp [h])

/-- A write keeps the canonical form. -/
theorem Memory.wf_write : ∀ (m : Memory) (x : Nat) (b : Byte), Memory.wf m → Memory.wf (m.write x b)
  | [], x, b, _ => by
    unfold Memory.write
    split
    · exact Memory.wf_nil
    · exact Memory.wf_cons.mpr ⟨by simp, by assumption, Memory.wf_nil⟩
  | (a, v) :: m, x, b, h => by
    have h' := Memory.wf_cons.mp h
    unfold Memory.write
    split
    · rename_i hx
      split
      · exact h
      · rename_i hb
        refine Memory.wf_cons.mpr ⟨fun p hp => ?_, hb, h⟩
        rcases List.mem_cons.mp hp with rfl | hp
        · exact hx
        · exact lt_trans hx (h'.1 p hp)
    · split
      · rename_i hx
        split
        · exact h'.2.2
        · rename_i hb
          exact Memory.wf_cons.mpr ⟨fun p hp => hx ▸ h'.1 p hp, hb, h'.2.2⟩
      · rename_i h1 h2
        refine Memory.wf_cons.mpr ⟨fun p hp => ?_, h'.2.1, Memory.wf_write m x b h'.2.2⟩
        rcases Memory.mem_write m x b p hp with ⟨rfl, -⟩ | hp
        · simp only; omega
        · exact h'.1 p hp

/-- A write inside an index space stays inside it. -/
theorem Memory.within_write {n : Nat} {m : Memory} {x : Nat} {b : Byte} (h : Memory.within n m) (hx : x < n) :
    Memory.within n (m.write x b) := fun p hp => by
  rcases Memory.mem_write m x b p hp with ⟨rfl, -⟩ | hp
  · exact hx
  · exact h p hp

/-- Reading after writing, at any address, of a canonical array. -/
theorem Memory.read_write : ∀ (m : Memory) (x : Nat) (b : Byte) (y : Nat), Memory.wf m →
    (m.write x b).read y = if x = y then b else m.read y
  | [], x, b, y, _ => by
    unfold Memory.write
    by_cases hb : b = 0#8 <;> by_cases hy : x = y <;> simp [hb, hy, Memory.read_cons]
  | (a, v) :: m, x, b, y, h => by
    have h' := Memory.wf_cons.mp h
    have hm : ∀ z, z ≤ a → Memory.read m z = 0 := fun z hz =>
      Memory.read_unlisted m z fun p hp => by have := h'.1 p hp; simp only at this; omega
    unfold Memory.write
    split
    · rename_i hx
      by_cases hb : b = 0#8 <;> by_cases hy : x = y
      · subst hy
        simp [hb, Memory.read_cons, hm x hx.le, show a ≠ x by omega]
      · simp [hb, hy]
      · subst hy; simp [hb, Memory.read_cons]
      · simp [hb, hy, Memory.read_cons]
    · split
      · rename_i h1 hx
        subst hx
        by_cases hb : b = 0#8 <;> by_cases hy : x = y
        · subst hy; simp [hb, hm x le_rfl]
        · simp [hb, hy, Memory.read_cons]
        · simp [hb, hy, Memory.read_cons]
        · simp [hb, hy, Memory.read_cons]
      · rename_i h1 h2
        rw [Memory.read_cons, Memory.read_write m x b y h'.2.2, Memory.read_cons]
        by_cases hy : x = y
        · subst hy; simp [show a ≠ x by omega]
        · simp [hy]

/-- The stored byte is read back. -/
theorem Memory.read_write_same {m : Memory} {x : Nat} {b : Byte} (h : Memory.wf m) : (m.write x b).read x = b := by
  simp [Memory.read_write m x b x h]

/-- Every other byte is left alone. -/
theorem Memory.read_write_other {m : Memory} {x y : Nat} {b : Byte} (h : Memory.wf m) (hy : x ≠ y) :
    (m.write x b).read y = m.read y := by
  simp [Memory.read_write m x b y h, hy]

/-- Storing a run of bytes in the ring keeps the canonical form. -/
theorem Memory.wf_writeRing (n : Nat) : ∀ (bs : Bytes) (m : Memory) (a : Nat), Memory.wf m → Memory.wf (m.writeRing n a bs)
  | [], _, _, h => h
  | _ :: bs, _, _, h => Memory.wf_writeRing n bs _ _ (Memory.wf_write _ _ _ h)

/-- Canonical arrays that read the same are the same list. -/
theorem Memory.eq_of_read : ∀ (m k : Memory), Memory.wf m → Memory.wf k → (∀ x, m.read x = k.read x) → m = k
  | [], [], _, _, _ => rfl
  | [], (a, v) :: k, _, hk, h => by
    have := h a
    simp [Memory.read_cons] at this
    exact absurd this.symm (Memory.wf_cons.mp hk).2.1
  | (a, v) :: m, [], hm, _, h => by
    have := h a
    simp [Memory.read_cons] at this
    exact absurd this (Memory.wf_cons.mp hm).2.1
  | (a, v) :: m, (c, w) :: k, hm, hk, h => by
    have hm' := Memory.wf_cons.mp hm
    have hk' := Memory.wf_cons.mp hk
    have zm : ∀ z, z ≤ a → Memory.read m z = 0 := fun z hz =>
      Memory.read_unlisted m z fun p hp => by have := hm'.1 p hp; simp only at this; omega
    have zk : ∀ z, z ≤ c → Memory.read k z = 0 := fun z hz =>
      Memory.read_unlisted k z fun p hp => by have := hk'.1 p hp; simp only at this; omega
    have hac : a = c := by
      rcases lt_trichotomy a c with hlt | heq | hlt
      · have := h a
        simp [Memory.read_cons, show c ≠ a by omega, zk a hlt.le] at this
        exact absurd this hm'.2.1
      · exact heq
      · have := h c
        simp [Memory.read_cons, show a ≠ c by omega, zm c hlt.le] at this
        exact absurd this.symm hk'.2.1
    subst hac
    have hv : v = w := by simpa [Memory.read_cons] using h a
    subst hv
    have : m = k := Memory.eq_of_read m k hm'.2.2 hk'.2.2 fun x => by
      have hx := h x
      by_cases hax : a = x
      · subst hax; rw [zm a le_rfl, zk a le_rfl]
      · simpa [Memory.read_cons, hax] using hx
    rw [this]

end Sys2Proof.Machine
end

