-- ==== Sys2Proof/Laws/Ring.lean ====
section
/-!
SUPPORT. The ring: cursor arithmetic, the unread bytes and the span.
-/

namespace Sys2Proof.Machine

/-! ## Cursor arithmetic -/

theorem nextCell_lt {n c : Nat} (h : c < n) : nextCell n c < n := Nat.mod_lt _ (by omega)

theorem nextCell_eq {n c : Nat} (h : c < n) : nextCell n c = if c + 1 = n then 0 else c + 1 := by
  unfold nextCell
  split
  · rename_i h'; rw [h', Nat.mod_self]
  · exact Nat.mod_eq_of_lt (by omega)

theorem dist_eq {n a b : Nat} (ha : a < n) (hb : b < n) : dist n a b = if a ≤ b then b - a else b + n - a := by
  unfold dist
  split
  · rename_i h
    rw [show b + n - a = (b - a) + n by omega, Nat.add_mod_right, Nat.mod_eq_of_lt (by omega)]
  · exact Nat.mod_eq_of_lt (by omega)

theorem dist_lt {n a b : Nat} (h : a < n) : dist n a b < n := Nat.mod_lt _ (by omega)

@[simp] theorem dist_self {n a : Nat} (h : a < n) : dist n a a = 0 := by simp [dist_eq h h]

theorem dist_eq_zero {n a b : Nat} (ha : a < n) (hb : b < n) : dist n a b = 0 ↔ a = b := by
  rw [dist_eq ha hb]; split <;> omega

/-- Moving the nearer cursor one cell on. -/
theorem dist_next_left {n a b : Nat} (ha : a < n) (hb : b < n) (h : a ≠ b) :
    dist n a b = dist n (nextCell n a) b + 1 := by
  rw [dist_eq ha hb, dist_eq (nextCell_lt ha) hb, nextCell_eq ha]
  split <;> split <;> split <;> omega

/-- Moving the farther cursor one cell on. -/
theorem dist_next_right {n a b : Nat} (ha : a < n) (hb : b < n) (h : nextCell n b ≠ a) :
    dist n a (nextCell n b) = dist n a b + 1 := by
  rw [dist_eq ha hb, dist_eq ha (nextCell_lt hb)]
  rw [nextCell_eq hb] at h ⊢
  split at h <;> split <;> split <;> split <;> omega

theorem add_mod_next (n a k : Nat) : (nextCell n a + k) % n = (a + (k + 1)) % n := by
  unfold nextCell; rw [Nat.mod_add_mod]; congr 1; omega

/-- `k` cells on from `a`, at most as many as there are up to `b`. -/
theorem dist_add_left {n a b k : Nat} (ha : a < n) (hb : b < n) (hk : k ≤ dist n a b) :
    dist n ((a + k) % n) b = dist n a b - k := by
  induction k generalizing a with
  | zero => simp [Nat.mod_eq_of_lt ha]
  | succ k ih =>
    have hne : a ≠ b := fun e => by subst e; simp [dist_self ha] at hk
    have := dist_next_left ha hb hne
    rw [← add_mod_next, ih (nextCell_lt ha) (by omega)]
    omega

/-- Up to `k` cells on from `b` without passing round. -/
theorem dist_add_right {n a b k : Nat} (ha : a < n) (hb : b < n) (hk : dist n a b + k < n) :
    dist n a ((b + k) % n) = dist n a b + k := by
  induction k generalizing b with
  | zero => simp [Nat.mod_eq_of_lt hb]
  | succ k ih =>
    have hne : nextCell n b ≠ a := fun e => by
      have h1 := dist_eq ha hb
      rw [nextCell_eq hb] at e
      split at e <;> split at h1 <;> omega
    have := dist_next_right ha hb hne
    rw [← add_mod_next, ih (nextCell_lt hb) (by omega)]
    omega

/-- The cell as far from `a` as `b` is, is `b`. -/
theorem add_dist {n a b : Nat} (ha : a < n) (hb : b < n) : (a + dist n a b) % n = b := by
  rw [dist_eq ha hb]
  split
  · rename_i h; rw [show a + (b - a) = b by omega, Nat.mod_eq_of_lt hb]
  · rw [show a + (b + n - a) = b + n by omega, Nat.add_mod_right, Nat.mod_eq_of_lt hb]

/-! ## Slices of the ring -/

@[simp] theorem Memory.ringSlice_length (m : Memory) (n start len : Nat) : (m.ringSlice n start len).length = len := by
  simp [Memory.ringSlice]

@[simp] theorem Memory.ringSlice_zero (m : Memory) (n start : Nat) : m.ringSlice n start 0 = [] := rfl

theorem Memory.ringSlice_succ (m : Memory) {n start : Nat} (len : Nat) (h : start < n) :
    m.ringSlice n start (len + 1) = m.read start :: m.ringSlice n (nextCell n start) len := by
  simp only [Memory.ringSlice, List.range_succ_eq_map, List.map_cons, List.map_map]
  refine congrArg₂ _ (by simp [Nat.mod_eq_of_lt h]) (List.map_congr_left fun k _ => ?_)
  simp only [Function.comp, Nat.succ_eq_add_one, add_mod_next]

theorem Memory.ringSlice_add (m : Memory) (n start a b : Nat) :
    m.ringSlice n start (a + b) = m.ringSlice n start a ++ m.ringSlice n ((start + a) % n) b := by
  simp only [Memory.ringSlice, List.range_add, List.map_append, List.map_map]
  congr 1
  refine List.map_congr_left fun k _ => ?_
  simp [Nat.add_assoc]

theorem Memory.ringSlice_getElem? (m : Memory) (n start len k : Nat) (h : k < len) :
    (m.ringSlice n start len)[k]? = some (m.read ((start + k) % n)) := by
  simp [Memory.ringSlice, h]

theorem Memory.ringSlice_congr {m m' : Memory} {n start len : Nat}
    (h : ∀ k < len, m.read ((start + k) % n) = m'.read ((start + k) % n)) :
    m.ringSlice n start len = m'.ringSlice n start len :=
  List.map_congr_left fun k hk => h k (List.mem_range.mp hk)

/-! ## The unread bytes and the span -/

variable {s : State}

theorem State.cursorsInRange_iff : s.cursorsInRange = true ↔ s.wr < s.cfg.n ∧ s.sc < s.cfg.n ∧ s.ms < s.cfg.n := by
  simp [State.cursorsInRange, and_assoc]

@[simp] theorem State.unread_length : s.unread.length = s.avail := by simp [State.unread]

theorem State.unread_eq_nil (hs : s.sc < s.cfg.n) (hw : s.wr < s.cfg.n) : s.unread = [] ↔ s.sc = s.wr := by
  rw [← List.length_eq_zero_iff, State.unread_length, State.avail, dist_eq_zero hs hw]

theorem State.unread_ne_nil (hs : s.sc < s.cfg.n) (hw : s.wr < s.cfg.n) (h : s.sc ≠ s.wr) :
    ∃ b rest, s.unread = b :: rest := by
  cases hu : s.unread with
  | nil => exact absurd ((State.unread_eq_nil hs hw).mp hu) h
  | cons b rest => exact ⟨b, rest, rfl⟩

/-- What is unread some bytes on. -/
theorem Memory.ringSlice_drop {m : Memory} {n sc wr k : Nat} (hs : sc < n) (hw : wr < n) (hk : k ≤ dist n sc wr) :
    m.ringSlice n ((sc + k) % n) (dist n ((sc + k) % n) wr) = (m.ringSlice n sc (dist n sc wr)).drop k := by
  rw [dist_add_left hs hw hk]
  conv_rhs => rw [show dist n sc wr = k + (dist n sc wr - k) by omega, Memory.ringSlice_add]
  rw [List.drop_left' (by simp)]

/-- The unread bytes of a state whose scan cursor has moved over some of them. -/
theorem State.unread_drop {t : State} {k : Nat} (hs : s.sc < s.cfg.n) (hw : s.wr < s.cfg.n) (hk : k ≤ s.avail)
    (hb : t.buf = s.buf) (hn : t.cfg = s.cfg) (hwr : t.wr = s.wr) (hsc : t.sc = (s.sc + k) % s.cfg.n) :
    t.unread = s.unread.drop k := by
  unfold State.unread State.avail
  rw [hb, hn, hwr, hsc]
  exact Memory.ringSlice_drop hs hw hk

theorem State.unread_congr {t : State} (hb : t.buf = s.buf) (hn : t.cfg = s.cfg) (hwr : t.wr = s.wr) (hsc : t.sc = s.sc) :
    t.unread = s.unread := by
  unfold State.unread State.avail; rw [hb, hn, hwr, hsc]

/-- The byte at `sc` is the first unread one. -/
theorem State.read_sc {b : Byte} {rest : Bytes} (hs : s.sc < s.cfg.n) (h : s.unread = b :: rest) :
    s.buf.read s.sc = b := by
  have hl : s.avail = rest.length + 1 := by rw [← State.unread_length, h]; simp
  unfold State.unread at h
  rw [hl, Memory.ringSlice_succ _ _ hs] at h
  exact (List.cons.inj h).1

/-- The span some bytes on: what was in it and the bytes passed over. -/
theorem Memory.ringSlice_extend {m : Memory} {n ms sc wr k : Nat} (hm : ms < n) (hs : sc < n)
    (hk : dist n ms sc + k < n) (hkw : k ≤ dist n sc wr) :
    m.ringSlice n ms (dist n ms ((sc + k) % n)) =
      m.ringSlice n ms (dist n ms sc) ++ (m.ringSlice n sc (dist n sc wr)).take k := by
  rw [dist_add_right hm hs hk, Memory.ringSlice_add, add_dist hm hs]
  conv_rhs => rw [show dist n sc wr = k + (dist n sc wr - k) by omega, Memory.ringSlice_add]
  rw [List.take_left' (by simp)]

end Sys2Proof.Machine
end

