-- ==== Sys2Proof/Laws/Exec.lean ====
section
/-!
SUPPORT. What the meanings can do: the frames of the decoders, the loops of the framing states, the rule a TICK runs, and
the inversion of a step.
-/

namespace Sys2Proof.Machine

variable {s t : State}

/-! ## The sentence decoder -/

theorem setIncoming_frame (l : List SvRecord) (s : State) :
    setIncoming l s = { s with sv0 := (setIncoming l s).sv0, sv1 := (setIncoming l s).sv1 } := by
  unfold setIncoming; split <;> rfl

@[simp] theorem setIncoming_curSel (l : List SvRecord) (s : State) : (setIncoming l s).curSel = s.curSel := by
  unfold setIncoming; split <;> rfl

@[simp] theorem setIncoming_cfg (l : List SvRecord) (s : State) : (setIncoming l s).cfg = s.cfg := by
  unfold setIncoming; split <;> rfl

@[simp] theorem setIncoming_incoming (l : List SvRecord) (s : State) : (setIncoming l s).incoming = l := by
  unfold setIncoming State.incoming
  cases h : s.curSel <;> simp

@[simp] theorem setIncoming_current (l : List SvRecord) (s : State) : (setIncoming l s).current = s.current := by
  unfold setIncoming State.current
  cases h : s.curSel <;> simp

/-- Writing back the table in the "incoming" role changes nothing. -/
theorem setIncoming_self (s : State) : setIncoming s.incoming s = s := by
  unfold setIncoming State.incoming; split <;> rfl

/-- One pair of a satellites-in-view sentence (R217): it writes the incoming table or nothing, one slot of it at most. -/
theorem writePair_spec (span : Bytes) (pos : Nat) (s : State) (k : Nat) :
    writePair span pos s k = setIncoming (writePair span pos s k).incoming s ∧
    (writePair span pos s k).incoming.length = s.incoming.length ∧
    ∀ j, (writePair span pos s k).incoming[j]? =
      if field s.cfg span (svIdField s.cfg k) ≠ [] ∧ (pos - 1) * 4 + k < s.cfg.svCap ∧ j = (pos - 1) * 4 + k ∧
          j < s.incoming.length then
        some ⟨BitVec.ofNat 8 (parseDec (field s.cfg span (svIdField s.cfg k)) 0 false).2,
          BitVec.ofNat 8 (parseDec (field s.cfg span (svSnrField s.cfg k)) 0 false).2⟩
      else s.incoming[j]? := by
  unfold writePair
  split
  · rename_i h; simp [h, setIncoming_self]
  · rename_i h
    split
    · simp only [setIncoming_incoming, List.length_set, true_and]
      intro j
      rw [← h, List.getElem?_set]
      by_cases hj : (pos - 1) * 4 + k = j
      · subst hj; simp only [*]; split <;> simp_all
      · rw [if_neg hj, if_neg (by omega)]
    · refine ⟨(setIncoming_self s).symm, rfl, fun j => ?_⟩
      rw [if_neg (by omega)]

/-- What any sentence can change (R219): the record, the indicators, the tables and their roles, and the two decoder
registers. -/
structure SentenceFrom (s t : State) : Prop where
  frame : t = { s with
    fix := t.fix, newFlags := t.newFlags, sv0 := t.sv0, sv1 := t.sv1, curSel := t.curSel, cntOther := t.cntOther
    fieldTrunc := t.fieldTrunc }

theorem SentenceFrom.refl (s : State) : SentenceFrom s s := ⟨rfl⟩

theorem SentenceFrom.trans {s t u : State} (h : SentenceFrom s t) (h' : SentenceFrom t u) : SentenceFrom s u :=
  ⟨by rw [h'.frame, h.frame]⟩

theorem sentenceFrom_setIncoming (l : List SvRecord) (s : State) : SentenceFrom s (setIncoming l s) := by
  unfold setIncoming; split <;> exact ⟨rfl⟩

theorem sentenceFrom_writePair (span : Bytes) (pos : Nat) (s : State) (k : Nat) :
    SentenceFrom s (writePair span pos s k) := by
  unfold writePair
  split
  · exact .refl s
  · split
    · exact sentenceFrom_setIncoming _ s
    · exact .refl s

theorem sentenceFrom_processPos (span : Bytes) (s : State) : SentenceFrom s (processPos span s) := by
  have h1 : ∀ u s, SentenceFrom s (updateUsed u s) := fun u s => by unfold updateUsed; split <;> exact ⟨rfl⟩
  have h2 : ∀ a s, SentenceFrom s (updateAlt a s) := fun a s => by unfold updateAlt; split <;> exact ⟨rfl⟩
  have h3 : ∀ a b s, SentenceFrom s (updateLon a b s) := fun a b s => by unfold updateLon; split <;> exact ⟨rfl⟩
  have h4 : ∀ a b s, SentenceFrom s (updateLat a b s) := fun a b s => by unfold updateLat; split <;> exact ⟨rfl⟩
  have h5 : ∀ ks s, SentenceFrom s (noteTruncation span ks s) := fun ks s => ⟨rfl⟩
  have h6 : ∀ m s, SentenceFrom s (raiseFlag m s) := fun m s => ⟨rfl⟩
  exact (h5 _ _).trans <| (h4 _ _ _).trans <| (h3 _ _ _).trans <| (h2 _ _).trans <| (h1 _ _).trans (h6 _ _)

theorem sentenceFrom_processSpdhdg (span : Bytes) (s : State) : SentenceFrom s (processSpdhdg span s) := by
  have h1 : ∀ u s, SentenceFrom s (updateSpd u s) := fun u s => by unfold updateSpd; split <;> exact ⟨rfl⟩
  have h2 : ∀ u s, SentenceFrom s (updateHdg u s) := fun u s => by unfold updateHdg; split <;> exact ⟨rfl⟩
  have h5 : ∀ ks s, SentenceFrom s (noteTruncation span ks s) := fun ks s => ⟨rfl⟩
  have h6 : ∀ m s, SentenceFrom s (raiseFlag m s) := fun m s => ⟨rfl⟩
  exact (h5 _ _).trans <| (h2 _ _).trans <| (h1 _ _).trans (h6 _ _)

theorem sentenceFrom_processSats (span : Bytes) (s : State) : SentenceFrom s (processSats span s) := by
  have h1 : ∀ u s, SentenceFrom s (updateTracked u s) := fun u s => by unfold updateTracked; split <;> exact ⟨rfl⟩
  have h2 : ∀ s, SentenceFrom s (swapTables s) := fun s =>
    SentenceFrom.trans (t := { s with curSel := !s.curSel }) ⟨rfl⟩ (sentenceFrom_setIncoming _ _)
  have h3 : ∀ (pos : Nat) (ks : List Nat) (s : State), SentenceFrom s (ks.foldl (writePair span pos) s) := fun pos ks s => by
    induction ks generalizing s with
    | nil => exact .refl s
    | cons k ks ih => exact (sentenceFrom_writePair span pos s k).trans (ih _)
  unfold processSats
  dsimp only
  split
  · exact ⟨rfl⟩
  · refine SentenceFrom.trans (t := noteTruncation span (svFields s.cfg) s) ⟨rfl⟩ ?_
    refine SentenceFrom.trans (t := if seriesPos s.cfg span = 1 then swapTables (noteTruncation span (svFields s.cfg) s)
      else noteTruncation span (svFields s.cfg) s) ?_ ?_
    · split
      · exact h2 _
      · exact .refl _
    · exact (h1 _ _).trans <| (h3 _ _ _).trans ⟨rfl⟩

/-- `process` (R200) changes nothing else. -/
theorem sentenceFrom_processSpan (span : Bytes) (s : State) : SentenceFrom s (processSpan span s) := by
  unfold processSpan
  split
  · exact sentenceFrom_processPos span s
  · exact ⟨rfl⟩
  · exact sentenceFrom_processSpdhdg span s
  · exact sentenceFrom_processSats span s
  · exact ⟨rfl⟩

/-- The instruction a span selects has the meaning `process` gives the span. -/
theorem exec_sentenceInstr (span : Bytes) (s : State) :
    exec (sentenceInstr s.cfg span) s = .next (processSpan span s) := by
  unfold sentenceInstr processSpan
  cases kindOf s.cfg span <;> rfl

/-! ## The binary decoder -/

/-- What any frame can change: the Ledger, the fault registers and the version strings. -/
structure FrameFrom (s t : State) : Prop where
  frame : t = { s with
    awaited := t.awaited, failed := t.failed, faultReg := t.faultReg, halted := t.halted
    faultClass := t.faultClass, faultId := t.faultId, ver := t.ver }

theorem frameFrom_nak (payload : Bytes) (s : State) : FrameFrom s (nakFrame payload s) := by
  unfold nakFrame
  split
  · rename_i cls id _
    exact ⟨by rcases failAdd_cases s cls id .nak with ⟨-, h⟩ | ⟨-, h⟩ <;> rw [h] <;> rfl⟩
  · exact ⟨rfl⟩

/-- `dispatch` (R243) changes nothing else. -/
theorem frameFrom_dispatchFrame (cls id : Byte) (payload : Bytes) (s : State) :
    FrameFrom s (dispatchFrame cls id payload s) := by
  unfold dispatchFrame
  split
  · unfold ackFrame; split <;> exact ⟨rfl⟩
  · exact frameFrom_nak payload s
  all_goals exact ⟨rfl⟩

/-- The instruction a frame selects has the meaning `dispatch` gives the frame. -/
theorem exec_frameInstr (cls id : Byte) (payload : Bytes) (s : State) :
    exec (frameInstr s.cfg cls id payload) s = .next (dispatchFrame cls id payload s) := by
  unfold frameInstr dispatchFrame
  cases frameKind s.cfg cls id <;> rfl

/-- The instruction a lead byte selects has the meaning `Idle` gives the byte. -/
theorem exec_leadInstr (now : Word) (b : Byte) (s : State) :
    exec (leadInstr s.cfg now b) s = .next (classifyLead now b s) := by
  unfold leadInstr classifyLead
  cases leadClass s.cfg b <;> rfl

/-! ## Loops -/

/-- A loop that consumes bytes into the assembler. -/
theorem foldl_consumeInto (f : Assembler → Byte → Assembler) (bs : Bytes) (s : State) (hs : s.sc < s.cfg.n) :
    bs.foldl (consumeInto f) s = { s with
      sc := (s.sc + bs.length) % s.cfg.n
      ms := if bs = [] then s.ms else (s.sc + bs.length) % s.cfg.n
      asm := bs.foldl f s.asm } := by
  induction bs generalizing s with
  | nil => simp [Nat.mod_eq_of_lt hs]
  | cons b bs ih =>
    rw [List.foldl_cons, ih _ (by exact nextCell_lt hs)]
    have h : (nextCell s.cfg.n s.sc + bs.length) % s.cfg.n = (s.sc + (bs.length + 1)) % s.cfg.n := add_mod_next ..
    cases bs with
    | nil => simp [consumeInto, nextCell]
    | cons c bs => simp only [consumeInto, List.length_cons] at h ⊢; simp [h]

/-- The loop of `SentenceWait`. -/
theorem foldl_sentenceByte (bs : Bytes) (s : State) (hs : s.sc < s.cfg.n) :
    bs.foldl sentenceByte s = { s with
      sc := (s.sc + bs.length) % s.cfg.n
      fsm := if chCR ∈ bs then .sentenceLFWait else s.fsm } := by
  induction bs generalizing s with
  | nil => simp [Nat.mod_eq_of_lt hs]
  | cons b bs ih =>
    have h : (nextCell s.cfg.n s.sc + bs.length) % s.cfg.n = (s.sc + (bs.length + 1)) % s.cfg.n := add_mod_next ..
    rw [List.foldl_cons, ih]
    · unfold sentenceByte
      by_cases hb : b = chCR
      · simp [hb, h]
      · simp [hb, h, Ne.symm hb]
    · unfold sentenceByte; split <;> exact nextCell_lt hs

/-- The running checksum after header or payload bytes. -/
theorem foldl_headerByte_ck (bs : Bytes) (a : Assembler) : (bs.foldl headerByte a).ck = bs.foldl cksumStep a.ck := by
  induction bs generalizing a with
  | nil => rfl
  | cons b bs ih => rw [List.foldl_cons, ih]; rfl

theorem foldl_payloadByte_ck (bs : Bytes) (a : Assembler) : (bs.foldl payloadByte a).ck = bs.foldl cksumStep a.ck := by
  induction bs generalizing a with
  | nil => rfl
  | cons b bs ih => rw [List.foldl_cons, ih]; rfl

/-- What the header loop changes. -/
theorem foldl_headerByte_frame (bs : Bytes) (a : Assembler) :
    bs.foldl headerByte a = { a with
      hdr := (bs.foldl headerByte a).hdr, hdrCnt := a.hdrCnt + bs.length
      ckA := (bs.foldl cksumStep a.ck).1, ckB := (bs.foldl cksumStep a.ck).2 } := by
  induction bs generalizing a with
  | nil => rfl
  | cons b bs ih =>
    rw [List.foldl_cons, ih]
    have hl : (headerByte a b).hdrCnt = a.hdrCnt + 1 := rfl
    simp only [hl, List.length_cons, List.foldl_cons]
    rw [show a.hdrCnt + 1 + bs.length = a.hdrCnt + (bs.length + 1) by omega]
    rfl

/-- The header bytes received (R160). -/
theorem foldl_headerByte_hdr (bs : Bytes) (a : Assembler) (h : a.hdrCnt + bs.length ≤ 4) :
    (bs.foldl headerByte a).hdr.toList.take (a.hdrCnt + bs.length) = a.hdr.toList.take a.hdrCnt ++ bs := by
  induction bs generalizing a with
  | nil => simp
  | cons b bs ih =>
    have hl : (headerByte a b).hdrCnt = a.hdrCnt + 1 := rfl
    have hc : a.hdrCnt < 4 := by simp at h; omega
    have hset : (headerByte a b).hdr.toList = a.hdr.toList.set a.hdrCnt b := by
      change (a.hdr.setIfInBounds a.hdrCnt b).toList = _
      simp
    rw [List.foldl_cons, List.length_cons, show a.hdrCnt + (bs.length + 1) = (headerByte a b).hdrCnt + bs.length by
      rw [hl]; omega, ih (headerByte a b) (by rw [hl]; simp at h; omega), hl, hset, List.take_add_one,
      List.take_set_of_le (by omega)]
    simp [hc]

/-- Each header byte after the header loop (R160): a received one, or the one that was there. -/
theorem foldl_headerByte_getD (bs : Bytes) (a : Assembler) (h : a.hdrCnt + bs.length ≤ 4) (k : Nat) :
    (bs.foldl headerByte a).hdr.toList.getD k 0 =
      if a.hdrCnt ≤ k ∧ k < a.hdrCnt + bs.length then bs.getD (k - a.hdrCnt) 0 else a.hdr.toList.getD k 0 := by
  induction bs generalizing a with
  | nil => rw [if_neg (by simp)]; rfl
  | cons b bs ih =>
    have hl : (headerByte a b).hdrCnt = a.hdrCnt + 1 := rfl
    have hset : (headerByte a b).hdr.toList = a.hdr.toList.set a.hdrCnt b := by
      change (a.hdr.setIfInBounds a.hdrCnt b).toList = _
      simp
    simp only [List.length_cons] at h
    rw [List.foldl_cons, ih _ (by rw [hl]; omega), hl, hset, List.length_cons]
    by_cases hk : k = a.hdrCnt
    · subst hk
      rw [if_neg (by omega), if_pos (by omega)]
      simp [List.getD, show a.hdrCnt < 4 by omega]
    · by_cases h2 : a.hdrCnt ≤ k ∧ k < a.hdrCnt + (bs.length + 1)
      · rw [if_pos (by omega), if_pos h2, show k - a.hdrCnt = (k - (a.hdrCnt + 1)) + 1 by omega]
        simp
      · rw [if_neg (by omega), if_neg h2]
        simp [List.getD, Ne.symm hk]

/-- The payload bytes received, and what the payload loop leaves alone. -/
theorem foldl_payloadByte (bs : Bytes) (a : Assembler) (hw : Memory.wf a.payload) :
    bs.foldl payloadByte a = { a with
      payload := (bs.foldl payloadByte a).payload, payIdx := a.payIdx + bs.length, payRem := a.payRem - bs.length
      ckA := (bs.foldl cksumStep a.ck).1, ckB := (bs.foldl cksumStep a.ck).2 } ∧
    Memory.wf (bs.foldl payloadByte a).payload ∧
    (∀ n, Memory.within n a.payload → a.payIdx + bs.length ≤ n → Memory.within n (bs.foldl payloadByte a).payload) ∧
    ∀ x, (bs.foldl payloadByte a).payload.read x =
      if a.payIdx ≤ x ∧ x < a.payIdx + bs.length then bs.getD (x - a.payIdx) 0 else a.payload.read x := by
  induction bs generalizing a with
  | nil =>
    refine ⟨rfl, hw, fun _ h _ => h, fun x => ?_⟩
    rw [if_neg (by simp)]; rfl
  | cons b bs ih =>
    have hi : (payloadByte a b).payIdx = a.payIdx + 1 := rfl
    have hr : (payloadByte a b).payRem = a.payRem - 1 := rfl
    have hp : (payloadByte a b).payload = a.payload.write a.payIdx b := rfl
    obtain ⟨h1, h2, h3, h4⟩ := ih (payloadByte a b) (Memory.wf_write _ _ _ hw)
    rw [List.foldl_cons]
    refine ⟨?_, h2, fun n hn hl => h3 n ?_ ?_, fun x => ?_⟩
    · rw [h1]
      simp only [hi, hr, List.length_cons, List.foldl_cons]
      rw [show a.payIdx + 1 + bs.length = a.payIdx + (bs.length + 1) by omega,
        show a.payRem - 1 - bs.length = a.payRem - (bs.length + 1) by omega]
      rfl
    · rw [hp]; exact Memory.within_write hn (by simp at hl; omega)
    · rw [hi]; simp at hl; omega
    · rw [h4, hi, hp, Memory.read_write _ _ _ _ hw]
      simp only [List.length_cons]
      by_cases hx : x = a.payIdx
      · subst hx; simp
      · by_cases hlt : a.payIdx ≤ x ∧ x < a.payIdx + (bs.length + 1)
        · rw [if_pos (by omega), if_pos hlt, show x - a.payIdx = (x - (a.payIdx + 1)) + 1 by omega]
          simp
        · rw [if_neg (by omega), if_neg hlt, if_neg (by omega)]

/-- The checksum loop touches the received checksum only. -/
theorem foldl_checksumByte (bs : Bytes) (a : Assembler) :
    bs.foldl checksumByte a = { a with rxCk := (bs.foldl checksumByte a).rxCk, ckCnt := a.ckCnt + bs.length } := by
  induction bs generalizing a with
  | nil => rfl
  | cons b bs ih =>
    rw [List.foldl_cons, ih]
    simp only [checksumByte, List.length_cons]
    rw [show a.ckCnt + 1 + bs.length = a.ckCnt + (bs.length + 1) by omega]

/-! ## The ends of the loops -/

/-- `check_timeout` (R151): nothing, or a timeout whose age is above `T_RX`. -/
theorem checkTimeout_cases (now : Word) (s : State) :
    ¬ s.cfg.tRx < now - s.msgTime ∧ checkTimeout now s = s ∨
    s.cfg.tRx < now - s.msgTime ∧ checkTimeout now s = { s with errCode := .timeout, fsm := .error } := by
  unfold checkTimeout expired age
  by_cases h : s.cfg.tRx < now - s.msgTime
  · exact .inr ⟨h, by simp [h]; rfl⟩
  · exact .inl ⟨h, by simp [h]⟩

/-- The fourth header byte (R160): the payload buffer is taken, or the header refused. -/
theorem finishHeader_cases (s : State) :
    (ofLe16 s.asm.hdr[2] s.asm.hdr[3]).toNat ≤ s.cfg.payloadCap ∧ finishHeader s = { s with
      asm := { s.asm with
        rxClass := s.asm.hdr[0], rxId := s.asm.hdr[1], rxLen := ofLe16 s.asm.hdr[2] s.asm.hdr[3]
        payOwned := true, payIdx := 0, payRem := (ofLe16 s.asm.hdr[2] s.asm.hdr[3]).toNat }
      fsm := .binPayloadWait } ∨
    s.cfg.payloadCap < (ofLe16 s.asm.hdr[2] s.asm.hdr[3]).toNat ∧ finishHeader s = { s with
      asm := { s.asm with rxClass := s.asm.hdr[0], rxId := s.asm.hdr[1], rxLen := ofLe16 s.asm.hdr[2] s.asm.hdr[3] }
      errCode := .header, fsm := .error } := by
  unfold finishHeader
  dsimp only
  split
  · exact .inr ⟨by assumption, rfl⟩
  · exact .inl ⟨by omega, rfl⟩

/-- The end of the payload loop (R162). -/
theorem finishPayload_cases (s : State) :
    s.asm.payRem = 0 ∧ finishPayload s = { s with asm := { s.asm with ckCnt := 0 }, fsm := .binChecksumWait } ∨
    s.asm.payRem ≠ 0 ∧ finishPayload s = s := by
  unfold finishPayload
  split
  · exact .inl ⟨by assumption, rfl⟩
  · exact .inr ⟨by assumption, rfl⟩

/-- The second checksum byte (R164), where it does not stop: the frame is dispatched and the buffer released, or the
checksum refused. -/
theorem finishChecksum_cases (h : finishChecksum s = .next t) :
    s.checksumMatches = true ∧ t = finishFrame (dispatchFrame s.asm.rxClass s.asm.rxId s.rxPayload s) ∨
    s.checksumMatches = false ∧ t = raiseError .cksum s := by
  unfold finishChecksum at h
  split at h
  · split at h <;> cases h
    exact .inl ⟨by assumption, rfl⟩
  · cases h
    exact .inr ⟨by simp_all, rfl⟩

/-! ## TICK -/

/-- A halted TICK. -/
theorem exec_tick_halted (now : Word) (h : s.halted = true) : exec (.tick now) s = .next (answer .none s) := by
  change execTick now s = _
  unfold execTick; rw [if_pos h]

/-- A running TICK runs the rule of the state. -/
theorem exec_tick_running (now : Word) (h : s.halted = false) (hc : s.cursorsInRange = true) :
    exec (.tick now) s = tickState now (answer .none s) := by
  change execTick now s = _
  unfold execTick; rw [if_neg (by simp [h]), if_pos hc]

/-- A TICK that completes was halted, or found its cursors in range and ran the rule of the state. -/
theorem exec_tick_cases {now : Word} (h : exec (.tick now) s = .next t) :
    s.halted = true ∧ t = answer .none s ∨
    s.halted = false ∧ s.cursorsInRange = true ∧ tickState now (answer .none s) = .next t := by
  cases hh : s.halted with
  | true => rw [exec_tick_halted now hh] at h; cases h; exact .inl ⟨rfl, rfl⟩
  | false =>
    cases hc : s.cursorsInRange with
    | true => rw [exec_tick_running now hh hc] at h; exact .inr ⟨rfl, rfl, h⟩
    | false =>
      change execTick now s = _ at h
      unfold execTick at h
      rw [if_neg (by simp [hh]), if_neg (by simp [hc])] at h
      cases h

/-! ## Operations and the step -/

/-- What an operation of the host port but RESET can change (R336). -/
structure HostFrom (s t : State) : Prop where
  frame : t = { s with
    result := t.result, awaited := t.awaited, failed := t.failed, faultReg := t.faultReg, halted := t.halted
    newFlags := t.newFlags, fix := t.fix }

theorem hostFrom_registerEntry (s : State) (cls id : Byte) (ts : Word) : HostFrom s (registerEntry cls id ts s) := by
  rcases registerEntry_cases s cls id ts with ⟨-, h⟩ | ⟨-, h⟩ <;> rw [h] <;> exact ⟨rfl⟩

theorem HostFrom.answer (h : HostFrom s t) (r : Result) : HostFrom s (answer r t) := ⟨by
  rw [h.frame]; rfl⟩

theorem hostFrom_exec {i : Instr} (hi : i.form = .op .host) (hr : i ≠ .reset) (h : exec i s = .next t) : HostFrom s t := by
  cases i <;> simp only [Instr.form, reduceCtorEq, Form.op.injEq] at hi <;> first
    | exact absurd rfl hr
    | (cases h; exact ⟨rfl⟩)
    | skip
  case send cls id expect accept now payload =>
    change execSend .. = _ at h
    unfold execSend at h
    split at h <;> cases h
    · exact ⟨rfl⟩
    · cases expect
      · exact ⟨rfl⟩
      · exact (hostFrom_registerEntry ..).answer _
  case register cls id ts =>
    cases h
    split
    · exact ⟨rfl⟩
    · exact (hostFrom_registerEntry ..).answer _
  case resolve cls id => cases h; split <;> exact ⟨rfl⟩
  case sweep now limit =>
    cases h
    split
    · exact ⟨rfl⟩
    · exact HostFrom.answer ⟨by rw [(sweptFrom_ledgerSweep s now limit).frame]⟩ _

/-- What a step that goes on did: nothing, or one operation of a port. -/
theorem step_cases (h : step s = .next t) :
    s.inbox = [] ∧ t = s ∨
    ∃ o rest i, s.inbox = o :: rest ∧ decode s.cfg (.op o.port) o.word = .ok i ∧ exec i { s with inbox := rest } = .next t := by
  unfold step nextOp at h
  cases hi : s.inbox with
  | nil => rw [hi] at h; cases h; exact .inl ⟨rfl, rfl⟩
  | cons o rest =>
    rw [hi] at h
    simp only [PortOp.decoded] at h
    cases hd : decode s.cfg (.op o.port) o.word with
    | error e => rw [hd] at h; cases h
    | ok i => rw [hd] at h; exact .inr ⟨o, rest, i, rfl, hd, h⟩

end Sys2Proof.Machine
end

