-- ==== Sys2Proof/Laws/PerInstr.lean ====
section
/-!
SUPPORT. The per-instruction family WireShape: the outline of what the encoder writes for a well-formed instruction, in
each of the four formats (30_encoding.md R90 to R110).
-/

namespace Sys2Proof.Laws.WireShape

open Sys2Proof Sys2Proof.Machine

/-- An operation word starts with an opcode of its port or is RESERVED there (R110, R113); a lead byte is one byte (R91);
a sentence runs from `'$'` to `CR LF` (R92, R98); a frame starts with both sync bytes and has at least header and
checksum (R100, R106). -/
def Statement (i : Instr) : Prop :=
  ∀ c : Config, i.wellFormed c = true →
    match i.form with
    | .op port => ∃ op rest, encode c i = op :: rest ∧ (opcodePort op = some port ∨ i = .reserved port op rest)
    | .lead _ => ∃ b, encode c i = [b]
    | .sentence => ∃ mid, encode c i = chDollar :: mid ++ [chCR, chLF]
    | .frame => ∃ mid, encode c i = c.sync1 :: c.sync2 :: mid ∧ 6 ≤ mid.length

/-- A span that passes `verify` starts and ends as R192 says. -/
theorem sentence_shape {c : Config} {k : Kind} {span : Bytes} (h : spanOf c k span = true) :
    ∃ mid, span ++ [chLF] = chDollar :: mid ++ [chCR, chLF] := by
  unfold spanOf at h
  simp only [Bool.and_eq_true] at h
  obtain ⟨body, h1, h2, v1, v2, rfl, -⟩ := (verify_iff span).mp h.1.1
  exact ⟨body ++ [chStar, h1, h2], by simp⟩

/-- What the builder writes (R272). -/
theorem frame_shape (c : Config) (cls id : Byte) (payload : Bytes) :
    ∃ mid, buildFrame c cls id payload = c.sync1 :: c.sync2 :: mid ∧ 6 ≤ mid.length :=
  ⟨frameBody cls id payload ++ [_, _], rfl, by simp [frameBody_eq]⟩

/-! ## One lemma per constructor -/

theorem nop : Statement (.nop) := fun _ _ => ⟨_, _, rfl, .inl rfl⟩

theorem push (b : Byte) : Statement (.push b) := fun _ _ => ⟨_, _, rfl, .inl rfl⟩

theorem tick (now : Word) : Statement (.tick now) := fun _ _ => ⟨_, _, rfl, .inl rfl⟩

theorem send (cls id : Byte) (expect accept : Bool) (now : Word) (payload : Bytes) : Statement (.send cls id expect accept now payload) :=
  fun _ _ => ⟨_, _, rfl, .inl rfl⟩

theorem register (cls id : Byte) (ts : Word) : Statement (.register cls id ts) := fun _ _ => ⟨_, _, rfl, .inl rfl⟩

theorem resolve (cls id : Byte) : Statement (.resolve cls id) := fun _ _ => ⟨_, _, rfl, .inl rfl⟩

theorem sweep (now timeout : Word) : Statement (.sweep now timeout) := fun _ _ => ⟨_, _, rfl, .inl rfl⟩

theorem drainFailures : Statement (.drainFailures) := fun _ _ => ⟨_, _, rfl, .inl rfl⟩

theorem drainFailed (cls id : Byte) : Statement (.drainFailed cls id) := fun _ _ => ⟨_, _, rfl, .inl rfl⟩

theorem queryAwaited (cls id : Byte) : Statement (.queryAwaited cls id) := fun _ _ => ⟨_, _, rfl, .inl rfl⟩

theorem queryFailed (cls id : Byte) : Statement (.queryFailed cls id) := fun _ _ => ⟨_, _, rfl, .inl rfl⟩

theorem readFix : Statement (.readFix) := fun _ _ => ⟨_, _, rfl, .inl rfl⟩

theorem readSv : Statement (.readSv) := fun _ _ => ⟨_, _, rfl, .inl rfl⟩

theorem readFlags : Statement (.readFlags) := fun _ _ => ⟨_, _, rfl, .inl rfl⟩

theorem clearFlags (mask : BitVec 4) : Statement (.clearFlags mask) := fun _ _ => ⟨_, _, rfl, .inl rfl⟩

theorem readStatus : Statement (.readStatus) := fun _ _ => ⟨_, _, rfl, .inl rfl⟩

theorem readVersion : Statement (.readVersion) := fun _ _ => ⟨_, _, rfl, .inl rfl⟩

theorem powerOff : Statement (.powerOff) := fun _ _ => ⟨_, _, rfl, .inl rfl⟩

theorem reset : Statement (.reset) := fun _ _ => ⟨_, _, rfl, .inl rfl⟩

theorem reserved (port : Port) (opcode : Byte) (operands : Bytes) : Statement (.reserved port opcode operands) :=
  fun _ _ => ⟨_, _, rfl, .inr rfl⟩

theorem leadSentence (now : Word) : Statement (.leadSentence now) := fun _ _ => ⟨_, rfl⟩

theorem leadBinary (now : Word) : Statement (.leadBinary now) := fun _ _ => ⟨_, rfl⟩

theorem leadOther (b : Byte) : Statement (.leadOther b) := fun _ _ => ⟨_, rfl⟩

theorem gpgga (span : Bytes) : Statement (.gpgga span) := fun _ h => sentence_shape h

theorem gpgsa (span : Bytes) : Statement (.gpgsa span) := fun _ h => sentence_shape h

theorem gpvtg (span : Bytes) : Statement (.gpvtg span) := fun _ h => sentence_shape h

theorem gpgsv (span : Bytes) : Statement (.gpgsv span) := fun _ h => sentence_shape h

theorem sentenceOther (span : Bytes) : Statement (.sentenceOther span) := fun _ h => sentence_shape h

theorem ackAck (payload : Bytes) : Statement (.ackAck payload) := fun _ _ => frame_shape ..

theorem ackNak (payload : Bytes) : Statement (.ackNak payload) := fun _ _ => frame_shape ..

theorem monVer (payload : Bytes) : Statement (.monVer payload) := fun _ _ => frame_shape ..

theorem ackOther (id : Byte) (payload : Bytes) : Statement (.ackOther id payload) := fun _ _ => frame_shape ..

theorem monOther (id : Byte) (payload : Bytes) : Statement (.monOther id payload) := fun _ _ => frame_shape ..

theorem cfgAny (cls id : Byte) (payload : Bytes) : Statement (.cfgAny cls id payload) := fun _ _ => frame_shape ..

theorem classUnknown (cls id : Byte) (payload : Bytes) : Statement (.classUnknown cls id payload) :=
  fun _ _ => frame_shape ..

end Sys2Proof.Laws.WireShape
end

