-- ==== Sys2Proof/Laws/Tick.lean ====
section
/-!
SUPPORT. What a TICK can do, once: the transition table of 41_framing_fsm.md R168 as a relation, and the inversion of the
rule a TICK runs into it.
-/

namespace Sys2Proof.Machine

/-- The state after a loop has consumed `bs` into the assembler. -/
def consumed (f : Assembler → Byte → Assembler) (bs : Bytes) (now : Word) (s : State) : State :=
  { s with
    msgTime := now
    sc := (s.sc + bs.length) % s.cfg.n
    ms := if bs = [] then s.ms else (s.sc + bs.length) % s.cfg.n
    asm := bs.foldl f s.asm }

theorem foldl_eq_consumed (f : Assembler → Byte → Assembler) (bs : Bytes) (now : Word) (s : State) (hs : s.sc < s.cfg.n) :
    bs.foldl (consumeInto f) { s with msgTime := now } = consumed f bs now s := foldl_consumeInto f bs _ hs

/-- The rows of the transition table: from `s`, the rule a TICK runs leads to the state given. -/
inductive TickTo (now : Word) (s : State) : State → Prop
  | idleHalted (hf : s.fsm = .idle) (hh : (ledgerSweep now s.cfg.tResp s).halted = true) :
    TickTo now s (ledgerSweep now s.cfg.tResp s)
  | idleEmpty (hf : s.fsm = .idle) (hh : (ledgerSweep now s.cfg.tResp s).halted = false) (hu : s.unread = []) :
    TickTo now s (ledgerSweep now s.cfg.tResp s)
  | idleByte (b : Byte) (rest : Bytes) (hf : s.fsm = .idle) (hh : (ledgerSweep now s.cfg.tResp s).halted = false)
      (hu : s.unread = b :: rest) : TickTo now s (classifyLead now b (ledgerSweep now s.cfg.tResp s))
  | starved (hi : s.fsm ≠ .idle) (he : s.fsm ≠ .error) (hp : s.fsm = .binPayloadWait → s.asm.payRem ≠ 0)
      (hu : s.unread = []) (ha : ¬ s.cfg.tRx < now - s.msgTime) : TickTo now s s
  | timeout (hi : s.fsm ≠ .idle) (he : s.fsm ≠ .error) (hp : s.fsm = .binPayloadWait → s.asm.payRem ≠ 0)
      (hu : s.unread = []) (ha : s.cfg.tRx < now - s.msgTime) :
    TickTo now s { s with errCode := .timeout, fsm := .error }
  | sentence (hf : s.fsm = .sentenceWait) (hu : s.unread ≠ []) :
    TickTo now s { s with
      msgTime := now
      sc := (s.sc + (throughCR s.unread).length) % s.cfg.n
      fsm := if chCR ∈ s.unread then .sentenceLFWait else .sentenceWait }
  | lineFeed (rest : Bytes) (hf : s.fsm = .sentenceLFWait) (hu : s.unread = chLF :: rest) (hv : verify s.span = true) :
    TickTo now s { processSpan s.span s with ms := s.sc, inProgress := false, fsm := .idle }
  | dropped (rest : Bytes) (hf : s.fsm = .sentenceLFWait) (hu : s.unread = chLF :: rest) (hv : verify s.span = false) :
    TickTo now s { s with ms := s.sc, inProgress := false, fsm := .idle }
  | noLF (b : Byte) (rest : Bytes) (hf : s.fsm = .sentenceLFWait) (hu : s.unread = b :: rest) (hb : b ≠ chLF) :
    TickTo now s { s with ms := s.sc, errCode := .noLF, fsm := .error }
  | sync2 (rest : Bytes) (hf : s.fsm = .binSyncWait) (hu : s.unread = s.cfg.sync2 :: rest) :
    TickTo now s { s with
      sc := nextCell s.cfg.n s.sc
      ms := nextCell s.cfg.n s.sc
      msgTime := now
      asm := { s.asm with hdrCnt := 0, ckA := 0, ckB := 0 }
      fsm := .binHeaderWait }
  | badSync (b : Byte) (rest : Bytes) (hf : s.fsm = .binSyncWait) (hu : s.unread = b :: rest) (hb : b ≠ s.cfg.sync2) :
    TickTo now s { s with errCode := .sync2, fsm := .error }
  | header (bs : Bytes) (hf : s.fsm = .binHeaderWait) (hu : s.unread ≠ []) (hb : bs = s.unread.take (4 - s.asm.hdrCnt))
      (hc : (bs.foldl headerByte s.asm).hdrCnt ≠ 4) : TickTo now s (consumed headerByte bs now s)
  | headerDone (bs : Bytes) (hf : s.fsm = .binHeaderWait) (hu : s.unread ≠ [])
      (hb : bs = s.unread.take (4 - s.asm.hdrCnt)) (hc : (bs.foldl headerByte s.asm).hdrCnt = 4) :
    TickTo now s (finishHeader (consumed headerByte bs now s))
  | payloadEmpty (hf : s.fsm = .binPayloadWait) (hr : s.asm.payRem = 0) :
    TickTo now s { s with asm := { s.asm with ckCnt := 0 }, fsm := .binChecksumWait }
  | payload (bs : Bytes) (hf : s.fsm = .binPayloadWait) (hr : s.asm.payRem ≠ 0) (hu : s.unread ≠ [])
      (hb : bs = s.unread.take s.asm.payRem) (hc : s.asm.payIdx + bs.length ≤ s.cfg.payloadCap) :
    TickTo now s (finishPayload (consumed payloadByte bs now s))
  | checksum (bs : Bytes) (hf : s.fsm = .binChecksumWait) (hu : s.unread ≠ [])
      (hb : bs = s.unread.take (2 - s.asm.ckCnt)) (hc : (bs.foldl checksumByte s.asm).ckCnt ≠ 2) :
    TickTo now s (consumed checksumByte bs now s)
  | dispatch (bs : Bytes) (hf : s.fsm = .binChecksumWait) (hu : s.unread ≠ [])
      (hb : bs = s.unread.take (2 - s.asm.ckCnt)) (hc : (bs.foldl checksumByte s.asm).ckCnt = 2)
      (hm : (consumed checksumByte bs now s).checksumMatches = true) :
    TickTo now s (finishFrame (dispatchFrame s.asm.rxClass s.asm.rxId s.rxPayload (consumed checksumByte bs now s)))
  | badChecksum (bs : Bytes) (hf : s.fsm = .binChecksumWait) (hu : s.unread ≠ [])
      (hb : bs = s.unread.take (2 - s.asm.ckCnt)) (hc : (bs.foldl checksumByte s.asm).ckCnt = 2)
      (hm : (consumed checksumByte bs now s).checksumMatches = false) :
    TickTo now s (raiseError .cksum (consumed checksumByte bs now s))
  | error (hf : s.fsm = .error) : TickTo now s (errorEntry s)

variable {s t : State} {now : Word}

theorem tickTo_of_checkTimeout (hi : s.fsm ≠ .idle) (he : s.fsm ≠ .error)
    (hp : s.fsm = .binPayloadWait → s.asm.payRem ≠ 0) (hu : s.unread = []) : TickTo now s (checkTimeout now s) := by
  rcases checkTimeout_cases now s with ⟨h, e⟩ | ⟨h, e⟩ <;> rw [e]
  · exact .starved hi he hp hu h
  · exact .timeout hi he hp hu h

theorem tickTo_idle (hf : s.fsm = .idle) : TickTo now s (tickIdle now s) := by
  have hu : (ledgerSweep now s.cfg.tResp s).unread = s.unread :=
    have h := (sweptFrom_ledgerSweep s now s.cfg.tResp).frame
    State.unread_congr (by rw [h]) (by rw [h]) (by rw [h]) (by rw [h])
  unfold tickIdle
  dsimp only
  by_cases hh : (ledgerSweep now s.cfg.tResp s).halted = true
  · rw [if_pos hh]; exact .idleHalted hf hh
  · rw [if_neg hh, hu]
    cases hu : s.unread with
    | nil => exact .idleEmpty hf (by simpa using hh) hu
    | cons b rest => exact .idleByte b rest hf (by simpa using hh) hu

theorem tickTo_sentenceWait (hs : s.sc < s.cfg.n) (hf : s.fsm = .sentenceWait) :
    TickTo now s (tickSentenceWait now s) := by
  unfold tickSentenceWait
  cases hu : s.unread with
  | nil => exact tickTo_of_checkTimeout (by simp [hf]) (by simp [hf]) (by simp [hf]) hu
  | cons b rest =>
    have := TickTo.sentence (now := now) hf (by rw [hu]; simp)
    simp only
    rw [foldl_sentenceByte _ _ (by exact hs), ← hu]
    simpa only [mem_throughCR, hf] using this

theorem tickTo_sentenceLFWait (hf : s.fsm = .sentenceLFWait) : TickTo now s (tickSentenceLFWait now s) := by
  unfold tickSentenceLFWait
  cases hu : s.unread with
  | nil => exact tickTo_of_checkTimeout (by simp [hf]) (by simp [hf]) (by simp [hf]) hu
  | cons b rest =>
    by_cases hb : b = chLF
    · subst hb
      cases hv : verify s.span with
      | true =>
        have hsc : (processSpan s.span s).sc = s.sc := by rw [(sentenceFrom_processSpan s.span s).frame]
        simpa [hsc] using TickTo.lineFeed (now := now) rest hf hu hv
      | false => simpa using TickTo.dropped (now := now) rest hf hu hv
    · simp only [if_neg hb]; exact .noLF b rest hf hu hb

theorem tickTo_binSyncWait (hf : s.fsm = .binSyncWait) : TickTo now s (tickBinSyncWait now s) := by
  unfold tickBinSyncWait
  cases hu : s.unread with
  | nil => exact tickTo_of_checkTimeout (by simp [hf]) (by simp [hf]) (by simp [hf]) hu
  | cons b rest =>
    by_cases hb : b = s.cfg.sync2
    · simp only [if_pos hb]; exact .sync2 rest hf (hb ▸ hu)
    · simp only [if_neg hb]; exact .badSync b rest hf hu hb

theorem tickTo_binHeaderWait (hs : s.sc < s.cfg.n) (hf : s.fsm = .binHeaderWait) :
    TickTo now s (tickBinHeaderWait now s) := by
  unfold tickBinHeaderWait
  cases hu : s.unread with
  | nil => exact tickTo_of_checkTimeout (by simp [hf]) (by simp [hf]) (by simp [hf]) hu
  | cons b rest =>
    have hne : s.unread ≠ [] := by rw [hu]; simp
    simp only
    rw [← hu, foldl_eq_consumed _ _ _ _ hs]
    split
    · exact .headerDone _ hf hne rfl (by assumption)
    · exact .header _ hf hne rfl (by assumption)

theorem tickTo_binPayloadWait (hs : s.sc < s.cfg.n) (hf : s.fsm = .binPayloadWait)
    (h : tickBinPayloadWait now s = .next t) : TickTo now s t := by
  unfold tickBinPayloadWait at h
  by_cases hr : s.asm.payRem = 0
  · rw [if_pos hr] at h
    cases h
    rcases finishPayload_cases s with ⟨-, e⟩ | ⟨h', -⟩
    · rw [e]; exact .payloadEmpty hf hr
    · exact absurd hr h'
  · rw [if_neg hr] at h
    cases hu : s.unread with
    | nil =>
      rw [hu] at h
      cases h
      exact tickTo_of_checkTimeout (by simp [hf]) (by simp [hf]) (fun _ => hr) hu
    | cons b rest =>
      have hne : s.unread ≠ [] := by rw [hu]; simp
      simp only [hu] at h
      rw [← hu, foldl_eq_consumed _ _ _ _ hs] at h
      split at h <;> cases h
      exact .payload _ hf hr hne rfl (by assumption)

theorem tickTo_binChecksumWait (hs : s.sc < s.cfg.n) (hf : s.fsm = .binChecksumWait)
    (h : tickBinChecksumWait now s = .next t) : TickTo now s t := by
  unfold tickBinChecksumWait at h
  cases hu : s.unread with
  | nil =>
    rw [hu] at h
    cases h
    exact tickTo_of_checkTimeout (by simp [hf]) (by simp [hf]) (by simp [hf]) hu
  | cons b rest =>
    have hne : s.unread ≠ [] := by rw [hu]; simp
    simp only [hu] at h
    rw [← hu, foldl_eq_consumed _ _ _ _ hs] at h
    have hfold := foldl_checksumByte (s.unread.take (2 - s.asm.ckCnt)) s.asm
    split at h
    · rename_i hc
      rcases finishChecksum_cases h with ⟨hm, e⟩ | ⟨hm, e⟩
      · have := TickTo.dispatch (now := now) _ hf hne rfl hc hm
        rw [e]
        have h1 : (consumed checksumByte (s.unread.take (2 - s.asm.ckCnt)) now s).asm.rxClass = s.asm.rxClass := by
          unfold consumed; rw [hfold]
        have h2 : (consumed checksumByte (s.unread.take (2 - s.asm.ckCnt)) now s).asm.rxId = s.asm.rxId := by
          unfold consumed; rw [hfold]
        have h3 : (consumed checksumByte (s.unread.take (2 - s.asm.ckCnt)) now s).rxPayload = s.rxPayload := by
          unfold State.rxPayload consumed; rw [hfold]
        rw [h1, h2, h3]
        exact this
      · rw [e]; exact .badChecksum _ hf hne rfl hc hm
    · cases h
      exact .checksum _ hf hne rfl (by assumption)

/-- The rule a TICK runs, where it does not stop, follows the table. -/
theorem tickTo_of_tickState (hs : s.sc < s.cfg.n) (h : tickState now s = .next t) : TickTo now s t := by
  unfold tickState at h
  split at h
  · cases h; exact tickTo_idle (by assumption)
  · cases h; exact tickTo_sentenceWait hs (by assumption)
  · cases h; exact tickTo_sentenceLFWait (by assumption)
  · cases h; exact tickTo_binSyncWait (by assumption)
  · cases h; exact tickTo_binHeaderWait hs (by assumption)
  · exact tickTo_binPayloadWait hs (by assumption) h
  · exact tickTo_binChecksumWait hs (by assumption) h
  · cases h; exact .error (by assumption)

/-- A TICK that completes changed nothing but the result while halted, or followed the table from the state with its
result cleared. -/
theorem exec_tick_to (h : exec (.tick now) s = .next t) :
    s.halted = true ∧ t = answer .none s ∨
    s.halted = false ∧ s.cursorsInRange = true ∧ TickTo now (answer .none s) t := by
  rcases exec_tick_cases h with h | ⟨hh, hc, h⟩
  · exact .inl h
  · exact .inr ⟨hh, hc, tickTo_of_tickState (State.cursorsInRange_iff.mp hc).2.1 h⟩

/-! ## Operations -/

/-- What an operation of a port does, where it completes: a PUSH, a TICK, RESET, or a host operation with its frame. -/
theorem operation_cases {i : Instr} (hi : isOperation i = true) (h : exec i s = .next t) :
    (∃ b, i = .push b ∧ s.wr < s.cfg.n ∧ t = answer .none (pushByte b s)) ∨
    (∃ now, i = .tick now ∧ exec (.tick now) s = .next t) ∨
    (i = .reset ∧ t = answer .none (resetState s)) ∨
    (i ≠ .reset ∧ (i.form = .op .host ∨ ∃ p o b, i = .reserved p o b) ∧ HostFrom s t) := by
  cases i <;> first
    | exact (Bool.false_ne_true hi).elim
    | exact .inr (.inr (.inr ⟨Instr.noConfusion, .inl rfl, hostFrom_exec rfl Instr.noConfusion h⟩))
    | skip
  case push b =>
    change execPush b s = _ at h
    unfold execPush at h
    split at h <;> cases h
    exact .inl ⟨b, rfl, by assumption, rfl⟩
  case tick now => exact .inr (.inl ⟨now, rfl, h⟩)
  case reset => cases h; exact .inr (.inr (.inl ⟨rfl, rfl⟩))
  case reserved p o b => cases h; exact .inr (.inr (.inr ⟨by simp, .inr ⟨p, o, b, rfl⟩, ⟨rfl⟩⟩))

/-- An operation word decodes to an operation of its port. -/
theorem form_of_decode_op {c : Config} {p : Port} {bs : Bytes} {i : Instr} (h : decode c (.op p) bs = .ok i) :
    i.form = .op p := by
  cases bs with
  | nil => cases h
  | cons op rest =>
    simp only [decode, decodeOp] at h
    by_cases hp : opcodePort op = some p
    · rw [if_pos hp] at h
      unfold decodeOperands decodeNullary decodeKey decodeSend at h
      unfold opcodePort at hp
      split at h
      all_goals
        rename_i hop
        simp only [hop, Option.some.injEq, reduceCtorEq] at hp
      all_goals
        subst hp
        repeat' split at h
        all_goals first | (cases h; rfl) | cases h
    · rw [if_neg hp] at h
      cases h
      rfl

/-- A step that goes on did nothing, or one operation. -/
theorem step_operation (h : step s = .next t) :
    s.inbox = [] ∧ t = s ∨
    ∃ o rest i, s.inbox = o :: rest ∧ decode s.cfg (.op o.port) o.word = .ok i ∧ isOperation i = true ∧
      exec i { s with inbox := rest } = .next t := by
  rcases step_cases h with h | ⟨o, rest, i, h1, h2, h3⟩
  · exact .inl h
  · exact .inr ⟨o, rest, i, h1, h2, by simp [isOperation, form_of_decode_op h2], h3⟩

/-- An invariant of states that the field updates outside the block keep, PUSH and RESET keep, every row of the transition
table keeps and every host operation keeps, is kept by every step. -/
theorem step_keeps {P : State → Prop} (hin : ∀ s l, P s → P { s with inbox := l }) (hans : ∀ s r, P s → P (answer r s))
    (hpush : ∀ s b, P s → s.wr < s.cfg.n → P (pushByte b s))
    (htick : ∀ s t now, P s → s.halted = false → s.cursorsInRange = true → TickTo now s t → P t)
    (hreset : ∀ s, P s → P (resetState s))
    (hhost : ∀ i s t, P s → i ≠ .reset → (i.form = .op .host ∨ ∃ p o b, i = .reserved p o b) → exec i s = .next t →
      HostFrom s t → P t) (hP : P s) (h : step s = .next t) : P t := by
  rcases step_operation h with ⟨-, rfl⟩ | ⟨o, rest, i, -, -, hi, hx⟩
  · exact hP
  have hP' := hin s rest hP
  rcases operation_cases hi hx with ⟨b, rfl, hw, rfl⟩ | ⟨now, rfl, hx⟩ | ⟨rfl, rfl⟩ | ⟨hr, hf, hh⟩
  · exact hans _ _ (hpush _ b hP' hw)
  · rcases exec_tick_to hx with ⟨-, rfl⟩ | ⟨hh, hc, ht⟩
    · exact hans _ _ hP'
    · exact htick _ _ now (hans _ .none hP') hh hc ht
  · exact hans _ _ (hreset _ hP')
  · exact hhost i _ _ hP' hr hf hx hh

/-- A lead byte moves the cursors and opens at most a message. -/
theorem classifyLead_cases (now : Word) (b : Byte) (s : State) :
    leadClass s.cfg b = .sentence ∧ classifyLead now b s = { s with
      sc := nextCell s.cfg.n s.sc, inProgress := true, msgTime := now, fsm := .sentenceWait } ∨
    leadClass s.cfg b = .binary ∧ classifyLead now b s = { s with
      sc := nextCell s.cfg.n s.sc, ms := nextCell s.cfg.n s.sc, inProgress := true, msgTime := now, fsm := .binSyncWait } ∨
    leadClass s.cfg b = .garbage ∧ classifyLead now b s = { s with
      sc := nextCell s.cfg.n s.sc, ms := nextCell s.cfg.n s.sc } := by
  unfold classifyLead
  cases leadClass s.cfg b
  · exact .inl ⟨rfl, rfl⟩
  · exact .inr (.inl ⟨rfl, rfl⟩)
  · exact .inr (.inr ⟨rfl, rfl⟩)

end Sys2Proof.Machine
end

