-- ==== Sys2Proof/Tests/Slice0.lean ====
section
/-!
SUPPORT. Tests: ill-formed terms refused, words written out from the spec's encodings and their decoding, one or two small
steps per instruction with the values of 95_test_vectors.md, and for every obligation with hypotheses a state and operands
that meet them.
-/

namespace Sys2Proof.Tests

open Sys2Proof Sys2Proof.Machine

set_option Elab.async false

/-! ## Helpers -/

/-- The next state of an outcome, if it has one. -/
def after : Host.Outcome State Fault Refusal → Option State
  | .next t => some t
  | .fault _ => none
  | .refused _ => none

/-- One view of the next state. -/
def view {α : Type} (f : State → α) (o : Host.Outcome State Fault Refusal) : Option α := (after o).map f

theorem next_of_after {o : Host.Outcome State Fault Refusal} (h : (after o).isSome = true) : ∃ t, o = .next t := by
  cases o with
  | next t => exact ⟨t, rfl⟩
  | fault f => cases h
  | refused r => cases h

/-- Reset state with these bytes pushed. -/
def fed (bs : Bytes) : State := bs.foldl (fun s b => pushByte b s) State.reset

/-- Reset state of a ring of 8 cells with these bytes pushed. -/
def fed8 (bs : Bytes) : State := bs.foldl (fun s b => pushByte b s) (State.resetOf { Config.default with n := 8 })

/-- The span `$AB*03 CR` in the ring with its line feed still to be read. -/
def atLineFeed (b : Byte) : State :=
  { fed [0x24, 0x41, 0x42, 0x2A, 0x30, 0x33, 0x0D, b] with sc := 7, fsm := .sentenceLFWait, inProgress := true }

/-- A frame `06 24 03 00` of which the first payload byte has come and two more wait. -/
def midFrame : State :=
  { State.reset with
    inbox := [tickOp 9]
    buf := [(7, 0x02), (8, 0x03)]
    wr := 9
    sc := 7
    ms := 7
    fsm := .binPayloadWait
    inProgress := true
    msgTime := 5
    asm := { Assembler.zero with
      hdr := #v[0x06, 0x24, 0x03, 0x00], hdrCnt := 4, rxClass := 0x06, rxId := 0x24, rxLen := 3
      payload := [(0, 0x01)], payIdx := 1, payRem := 2, payOwned := true, ckA := 0x2E, ckB := 0xB8 } }

/-- The same frame with its payload complete and the given checksum bytes waiting; the right ones are `33 1B`. -/
def atChecksum (a b : Byte) : State :=
  { State.reset with
    buf := [(9, a), (10, b)]
    wr := 11
    sc := 9
    ms := 9
    fsm := .binChecksumWait
    inProgress := true
    asm := { Assembler.zero with
      hdr := #v[0x06, 0x24, 0x03, 0x00], hdrCnt := 4, rxClass := 0x06, rxId := 0x24, rxLen := 3
      payload := [(0, 0x01), (1, 0x02), (2, 0x03)], payIdx := 3, payOwned := true, ckA := 0x33, ckB := 0x1B } }

/-- Four header bytes waiting, the last two the declared length. -/
def atHeader (l0 l1 : Byte) : State :=
  { State.reset with
    buf := [(2, 0x0A), (3, 0x04), (4, l0), (5, l1)].filter (fun p : Host.Cell => p.2 ≠ 0)
    wr := 6
    sc := 2
    ms := 2
    fsm := .binHeaderWait
    inProgress := true }

/-- Reset state with entries awaited. -/
def awaiting (es : List AwaitEntry) : State := { State.reset with awaited := es }

/-- Reset state with failures recorded. -/
def failing (es : List FailEntry) : State := { State.reset with failed := es }

/-! ## WellFormed refuses -/

/-- R101: a length that does not fit 16 bits. -/
theorem test_illformed_send :
    Instr.wellFormed .default (.send 0 0 false false 0 (List.replicate 65536 0)) = false := by
  simp only [Instr.wellFormed, List.length_replicate]; decide

/-- R113: 0x24 is defined on the host port. -/
theorem test_illformed_reserved :
    Instr.wellFormed .default (.reserved .host 0x24 []) = false := by decide +kernel

/-- R91: `'$'` is tested first. -/
theorem test_illformed_leadBinary :
    Instr.wellFormed { Config.default with sync1 := 0x24 } (.leadBinary 0) = false := by decide +kernel

/-- R91: `SYNC1` is no garbage. -/
theorem test_illformed_leadOther :
    Instr.wellFormed .default (.leadOther 0xB5) = false := by decide +kernel

/-- R192: wrong checksum digits. -/
theorem test_illformed_checksum :
    Instr.wellFormed .default (.gpgsa [0x24, 0x47, 0x50, 0x47, 0x53, 0x41, 0x2C, 0x41, 0x2C, 0x33, 0x2A, 0x33, 0x31,
    0x0D]) = false := by decide +kernel

/-- R191, R98: a `CR` inside the span. -/
theorem test_illformed_line_end :
    Instr.wellFormed .default (.sentenceOther [0x24, 0x41, 0x0D, 0x42, 0x2A, 0x30, 0x45, 0x0D]) = false :=
    by decide +kernel

theorem test_illformed_gpgga_address :
    Instr.wellFormed .default (.gpgga [0x24, 0x47, 0x50, 0x47, 0x53, 0x41, 0x2C, 0x41, 0x2C, 0x33, 0x2A, 0x33, 0x30,
    0x0D]) = false := by decide +kernel

theorem test_illformed_gpgsa_address :
    Instr.wellFormed .default (.gpgsa [0x24, 0x47, 0x50, 0x56, 0x54, 0x47, 0x2C, 0x30, 0x35, 0x34, 0x2E, 0x37, 0x2C,
    0x54, 0x2C, 0x30, 0x33, 0x34, 0x2E, 0x34, 0x2C, 0x4D, 0x2C, 0x30, 0x30, 0x35, 0x2E, 0x35, 0x2C, 0x4E, 0x2C, 0x30,
    0x31, 0x30, 0x2E, 0x32, 0x2C, 0x4B, 0x2A, 0x34, 0x38, 0x0D]) = false := by decide +kernel

theorem test_illformed_gpvtg_address :
    Instr.wellFormed .default (.gpvtg [0x24, 0x47, 0x50, 0x47, 0x53, 0x56, 0x2C, 0x31, 0x2C, 0x31, 0x2C, 0x30, 0x31,
    0x2C, 0x32, 0x31, 0x2C, 0x34, 0x30, 0x2C, 0x30, 0x38, 0x33, 0x2C, 0x34, 0x36, 0x2A, 0x34, 0x36, 0x0D]) = false :=
    by decide +kernel

theorem test_illformed_gpgsv_address :
    Instr.wellFormed .default (.gpgsv [0x24, 0x47, 0x50, 0x47, 0x53, 0x41, 0x2C, 0x41, 0x2C, 0x33, 0x2A, 0x33, 0x30,
    0x0D]) = false := by decide +kernel

theorem test_illformed_sentenceOther_address :
    Instr.wellFormed .default (.sentenceOther [0x24, 0x47, 0x50, 0x47, 0x53, 0x41, 0x2C, 0x41, 0x2C, 0x33, 0x2A,
    0x33, 0x30, 0x0D]) = false := by decide +kernel

/-- R160: more than the payload buffer holds. -/
theorem test_illformed_payload_cap :
    Instr.wellFormed .default (.monVer (List.replicate 65 0)) = false := by decide +kernel

/-- R243: the ACK identifier is tested first. -/
theorem test_illformed_ackNak :
    Instr.wellFormed { Config.default with idAckNak := 0x01 } (.ackNak []) = false := by decide +kernel

/-- R243: the ACK class is tested first. -/
theorem test_illformed_monVer :
    Instr.wellFormed { Config.default with clsMon := 0x05 } (.monVer []) = false := by decide +kernel

theorem test_illformed_ackAck :
    Instr.wellFormed .default (.ackAck (List.replicate 65 0)) = false := by decide +kernel

theorem test_illformed_ackOther :
    Instr.wellFormed .default (.ackOther 0x01 []) = false := by decide +kernel

theorem test_illformed_monOther :
    Instr.wellFormed .default (.monOther 0x04 []) = false := by decide +kernel

theorem test_illformed_cfgAny :
    Instr.wellFormed .default (.cfgAny 0x01 0x07 []) = false := by decide +kernel

theorem test_illformed_classUnknown :
    Instr.wellFormed .default (.classUnknown 0x06 0x01 []) = false := by decide +kernel

/-! ## Words written out from the encodings -/

/-- R110: the three ports. -/
theorem test_decode_port_words :
    accepted (decode .default (.op .producer) [0x01, 0x24]) = some (.push 0x24) ∧
    accepted (decode .default (.op .consumer) [0x02, 0xF0, 0xFF, 0xFF, 0xFF]) = some (.tick 0xFFFFFFF0) ∧
    accepted (decode .default (.op .host) [0x00]) = some .nop := by decide +kernel

/-- R110, R111: words of P3, V1202 and P6. -/
theorem test_decode_outbound_and_ledger :
    accepted (decode .default (.op .host) [0x10, 0x06, 0x01, 0x03, 0x00, 0x01, 0x01, 0x64, 0x00, 0x00, 0x00, 0x01,
    0x02, 0x03]) = some (.send 0x06 0x01 true true 100 [1, 2, 3]) ∧
    accepted (decode .default (.op .host) [0x11, 0x06, 0x01, 0xF0, 0xFF, 0xFF, 0xFF]) = some (.register 0x06 0x01
    0xFFFFFFF0) ∧
    accepted (decode .default (.op .host) [0x12, 0x06, 0x01]) = some (.resolve 0x06 0x01) ∧
    accepted (decode .default (.op .host) [0x13, 0xD8, 0x03, 0x00, 0x00, 0xE8, 0x03, 0x00, 0x00]) = some (.sweep 984
    1000) ∧
    accepted (decode .default (.op .host) [0x14]) = some .drainFailures ∧
    accepted (decode .default (.op .host) [0x15, 0x06, 0x24]) = some (.drainFailed 0x06 0x24) ∧
    accepted (decode .default (.op .host) [0x16, 0x0A, 0x04]) = some (.queryAwaited 0x0A 0x04) ∧
    accepted (decode .default (.op .host) [0x17, 0x06, 0x24]) = some (.queryFailed 0x06 0x24) := by decide +kernel

/-- R110, R111: bits 7 to 4 of the mask are ignored. -/
theorem test_decode_host_words :
    accepted (decode .default (.op .host) [0x20]) = some .readFix ∧
    accepted (decode .default (.op .host) [0x21]) = some .readSv ∧
    accepted (decode .default (.op .host) [0x22]) = some .readFlags ∧
    accepted (decode .default (.op .host) [0x23, 0xF9]) = some (.clearFlags 0b1001) ∧
    accepted (decode .default (.op .host) [0x24]) = some .readStatus ∧
    accepted (decode .default (.op .host) [0x25]) = some .readVersion ∧
    accepted (decode .default (.op .host) [0x30]) = some .powerOff ∧
    accepted (decode .default (.op .host) [0x3F]) = some .reset := by decide +kernel

/-- V1304: reserved opcodes, and defined ones on the wrong port. -/
theorem test_decode_reserved :
    accepted (decode .default (.op .host) [0x40]) = some (.reserved .host 0x40 []) ∧
    accepted (decode .default (.op .host) [0x01, 0x24]) = some (.reserved .host 0x01 [0x24]) ∧
    accepted (decode .default (.op .producer) [0x20]) = some (.reserved .producer 0x20 []) := by decide +kernel

/-- R91. -/
theorem test_decode_lead_bytes :
    accepted (decode .default (.lead 7) [0x24]) = some (.leadSentence 7) ∧
    accepted (decode .default (.lead 7) [0xB5]) = some (.leadBinary 7) ∧
    accepted (decode .default (.lead 7) [0x62]) = some (.leadOther 0x62) := by decide +kernel

/-- R92, R95: V701, P4, V721, V742 and V732. -/
theorem test_decode_sentences :
    accepted (decode .default .sentence [0x24, 0x47, 0x50, 0x47, 0x47, 0x41, 0x2C, 0x31, 0x32, 0x33, 0x35, 0x31,
    0x39, 0x2C, 0x34, 0x38, 0x30, 0x37, 0x2E, 0x30, 0x33, 0x38, 0x2C, 0x4E, 0x2C, 0x30, 0x31, 0x31, 0x33, 0x31, 0x2E,
    0x30, 0x30, 0x30, 0x2C, 0x45, 0x2C, 0x31, 0x2C, 0x30, 0x38, 0x2C, 0x30, 0x2E, 0x39, 0x2C, 0x35, 0x34, 0x35, 0x2E,
    0x34, 0x2C, 0x4D, 0x2C, 0x34, 0x36, 0x2E, 0x39, 0x2C, 0x4D, 0x2C, 0x2C, 0x2A, 0x34, 0x37, 0x0D, 0x0A]) = some
    (.gpgga [0x24, 0x47, 0x50, 0x47, 0x47, 0x41, 0x2C, 0x31, 0x32, 0x33, 0x35, 0x31, 0x39, 0x2C, 0x34, 0x38, 0x30,
    0x37, 0x2E, 0x30, 0x33, 0x38, 0x2C, 0x4E, 0x2C, 0x30, 0x31, 0x31, 0x33, 0x31, 0x2E, 0x30, 0x30, 0x30, 0x2C, 0x45,
    0x2C, 0x31, 0x2C, 0x30, 0x38, 0x2C, 0x30, 0x2E, 0x39, 0x2C, 0x35, 0x34, 0x35, 0x2E, 0x34, 0x2C, 0x4D, 0x2C, 0x34,
    0x36, 0x2E, 0x39, 0x2C, 0x4D, 0x2C, 0x2C, 0x2A, 0x34, 0x37, 0x0D]) ∧
    accepted (decode .default .sentence [0x24, 0x47, 0x50, 0x47, 0x53, 0x41, 0x2C, 0x41, 0x2C, 0x33, 0x2A, 0x33,
    0x30, 0x0D, 0x0A]) = some (.gpgsa [0x24, 0x47, 0x50, 0x47, 0x53, 0x41, 0x2C, 0x41, 0x2C, 0x33, 0x2A, 0x33, 0x30,
    0x0D]) ∧
    accepted (decode .default .sentence [0x24, 0x47, 0x50, 0x56, 0x54, 0x47, 0x2C, 0x30, 0x35, 0x34, 0x2E, 0x37,
    0x2C, 0x54, 0x2C, 0x30, 0x33, 0x34, 0x2E, 0x34, 0x2C, 0x4D, 0x2C, 0x30, 0x30, 0x35, 0x2E, 0x35, 0x2C, 0x4E, 0x2C,
    0x30, 0x31, 0x30, 0x2E, 0x32, 0x2C, 0x4B, 0x2A, 0x34, 0x38, 0x0D, 0x0A]) = some (.gpvtg [0x24, 0x47, 0x50, 0x56,
    0x54, 0x47, 0x2C, 0x30, 0x35, 0x34, 0x2E, 0x37, 0x2C, 0x54, 0x2C, 0x30, 0x33, 0x34, 0x2E, 0x34, 0x2C, 0x4D, 0x2C,
    0x30, 0x30, 0x35, 0x2E, 0x35, 0x2C, 0x4E, 0x2C, 0x30, 0x31, 0x30, 0x2E, 0x32, 0x2C, 0x4B, 0x2A, 0x34, 0x38,
    0x0D]) ∧
    accepted (decode .default .sentence [0x24, 0x47, 0x50, 0x47, 0x53, 0x56, 0x2C, 0x31, 0x2C, 0x31, 0x2C, 0x30,
    0x31, 0x2C, 0x32, 0x31, 0x2C, 0x34, 0x30, 0x2C, 0x30, 0x38, 0x33, 0x2C, 0x34, 0x36, 0x2A, 0x34, 0x36, 0x0D,
    0x0A]) = some (.gpgsv [0x24, 0x47, 0x50, 0x47, 0x53, 0x56, 0x2C, 0x31, 0x2C, 0x31, 0x2C, 0x30, 0x31, 0x2C, 0x32,
    0x31, 0x2C, 0x34, 0x30, 0x2C, 0x30, 0x38, 0x33, 0x2C, 0x34, 0x36, 0x2A, 0x34, 0x36, 0x0D]) ∧
    accepted (decode .default .sentence [0x24, 0x47, 0x50, 0x47, 0x47, 0x41, 0x58, 0x2C, 0x31, 0x2C, 0x32, 0x2A,
    0x30, 0x44, 0x0D, 0x0A]) = some (.sentenceOther [0x24, 0x47, 0x50, 0x47, 0x47, 0x41, 0x58, 0x2C, 0x31, 0x2C,
    0x32, 0x2A, 0x30, 0x44, 0x0D]) := by decide +kernel

/-- R100, R103: the frames of section 2.9. -/
theorem test_decode_frames :
    accepted (decode .default .frame [0xB5, 0x62, 0x05, 0x01, 0x02, 0x00, 0x06, 0x01, 0x0F, 0x38]) = some (.ackAck
    [0x06, 0x01]) ∧
    accepted (decode .default .frame [0xB5, 0x62, 0x05, 0x00, 0x02, 0x00, 0x06, 0x01, 0x0E, 0x33]) = some (.ackNak
    [0x06, 0x01]) ∧
    accepted (decode .default .frame [0xB5, 0x62, 0x0A, 0x04, 0x00, 0x00, 0x0E, 0x34]) = some (.monVer []) ∧
    accepted (decode .default .frame [0xB5, 0x62, 0x05, 0x02, 0x02, 0x00, 0x06, 0x01, 0x10, 0x3D]) = some (.ackOther
    0x02 [0x06, 0x01]) ∧
    accepted (decode .default .frame [0xB5, 0x62, 0x0A, 0x09, 0x00, 0x00, 0x13, 0x43]) = some (.monOther 0x09 []) ∧
    accepted (decode .default .frame [0xB5, 0x62, 0x06, 0x24, 0x03, 0x00, 0x01, 0x02, 0x03, 0x33, 0x1B]) = some
    (.cfgAny 0x06 0x24 [1, 2, 3]) ∧
    accepted (decode .default .frame [0xB5, 0x62, 0x01, 0x07, 0x00, 0x00, 0x08, 0x19]) = some (.classUnknown 0x01
    0x07 []) := by decide +kernel

/-- Too few or too many operands, swapped digits, no line end, wrong checksum, wrong length, wrong sync. -/
theorem test_decode_rejects :
    accepted (decode .default (.op .host) []) = none ∧ accepted (decode .default (.op .host) [0x12, 0x06]) = none ∧
    accepted (decode .default (.op .host) [0x20, 0x00]) = none ∧ accepted (decode .default (.lead 0) []) = none ∧
    accepted (decode .default .sentence [0x24, 0x41, 0x2A, 0x31, 0x34, 0x0D, 0x0A]) = none ∧
    accepted (decode .default .sentence [0x24, 0x41, 0x2A, 0x34, 0x31, 0x0D, 0x58]) = none ∧
    accepted (decode .default .frame [0xB5, 0x62, 0x06, 0x01, 0x00, 0x00, 0x07, 0x1C]) = none ∧
    accepted (decode .default .frame [0xB5, 0x62, 0x06, 0x01, 0x01, 0x00, 0x07, 0x1B]) = none ∧
    accepted (decode .default .frame [0xB5, 0xB5, 0x06, 0x01, 0x00, 0x00, 0x07, 0x1B]) = none := by decide +kernel

/-! ## The step and its host interface -/

/-- The table's first byte is its most significant (R119); the checksum of `GPGSA` is 42. -/
theorem test_step_of_table_words :
    decodeTableWord 8 0x02 = some (.tick 0) ∧ decodeTableWord 8 0xB5 = some (.leadBinary 0) ∧
    decodeTableWord 32 0xB5620507 = some (.ackOther 0x07 []) ∧
    decodeTableWord 48 0x244750475341 = some (.gpgsa [0x24, 0x47, 0x50, 0x47, 0x53, 0x41, 0x2A, 0x34, 0x32, 0x0D]) :=
    by decide +kernel

theorem test_withFetchWord_runs :
    view (·.result) (step (State.reset.withFetchWord 8 0x40)) = some .badOp ∧
    view (·.fsm) (step (State.reset.withFetchWord 8 0xB5)) = some .binSyncWait ∧
    view (·.faultReg) (step (State.reset.withFetchWord 32 0xB5620107)) = some 0b01 ∧
    view (·.newFlags) (step (State.reset.withFetchWord 48 0x244750475341)) = some 0b0010 := by decide +kernel

theorem test_step_without_operation :
    view id (step State.reset) = some State.reset := by decide +kernel

theorem test_step_refuses_malformed_word :
    after (step (present ⟨.host, [0x12]⟩ State.reset)) = none := by decide +kernel

/-! ## One step of each instruction -/

/-- V103: the cell moved into is zeroed. -/
theorem test_push_wraps :
    view (fun s => (s.wr, s.buf, s.avail)) (exec (.push 0x41) { fed8 [] with wr := 7, sc := 7, ms := 7, buf := [(0,
    0x30)] }) =
    some (0, [(7, 0x41)], 1) := by decide +kernel

/-- V104: the marker is destroyed. -/
theorem test_push_overruns :
    view (fun s => (s.wr, s.buf.read 7, s.buf.read 0, s.ms)) (exec (.push 0x47) { fed8 [0x24, 0x41, 0x42, 0x43, 0x44,
    0x45, 0x46] with sc := 7, fsm := .sentenceWait }) = some (0, 0x47, 0, 0) := by decide +kernel

/-- V204: across the wrap of the clock. -/
theorem test_tick_times_out_strictly :
    view (·.fsm) (exec (.tick 84) { fed [0x24] with sc := 1, fsm := .sentenceWait, msgTime := 0xFFFFFFF0 }) = some
    .sentenceWait ∧
    view (·.fsm) (exec (.tick 85) { fed [0x24] with sc := 1, fsm := .sentenceWait, msgTime := 0xFFFFFFF0 }) = some
    .error := by decide +kernel

/-- The frame of V913. -/
theorem test_tick_copies_payload :
    view (fun s => (s.fsm, s.asm.payload, s.asm.ckA, s.asm.ckB)) (exec (.tick 9) midFrame) =
    some (.binChecksumWait, [(0, 0x01), (1, 0x02), (2, 0x03)], 0x33, 0x1B) := by decide +kernel

/-- P3. -/
theorem test_send_emits_and_registers :
    view (fun s => (s.result, s.awaited)) (exec (.send 0x06 0x01 true true 100 [1, 2, 3]) State.reset) = some
    (.sent true (some [0xB5, 0x62, 0x06, 0x01, 0x03, 0x00, 0x01, 0x02, 0x03, 0x10, 0x49]), [⟨0x06, 0x01, 100⟩]) := by
    decide +kernel

/-- V1103: registered all the same. -/
theorem test_send_not_accepted :
    view (fun s => (s.result, s.awaited)) (exec (.send 0x06 0x24 true false 7 [0xAA]) State.reset) =
    some (.sent false none, [⟨0x06, 0x24, 7⟩]) := by decide +kernel

/-- V1107, and assumption 8: a host operation halts the block in whatever state it is. -/
theorem test_register_full_halts_outside_idle :
    view (fun s => (s.halted, s.faultReg, s.fsm, s.awaited.length)) (exec (.register 0x06 0x08 0)
    { midFrame with awaited := List.replicate 8 ⟨0x06, 0x01, 0⟩ }) = some (true, 0b10, .binPayloadWait, 8) := by
    decide +kernel

/-- V1203. -/
theorem test_register_appends :
    view (·.awaited) (exec (.register 0x06 0x01 30) (awaiting [⟨0x06, 0x02, 20⟩])) = some [⟨0x06, 0x02, 20⟩, ⟨0x06,
    0x01, 30⟩] := by decide +kernel

/-- R282, as V902. -/
theorem test_resolve_removes_every_match :
    view (·.awaited) (exec (.resolve 0x06 0x01) (awaiting [⟨0x06, 0x01, 10⟩, ⟨0x0A, 0x04, 12⟩, ⟨0x06, 0x01, 20⟩])) =
    some [⟨0x0A, 0x04, 12⟩] := by decide +kernel

/-- V1203. -/
theorem test_sweep_keeps_order :
    view (fun s => (s.awaited, s.failed)) (exec (.sweep 1025 1000)
    (awaiting [⟨0x06, 0x01, 10⟩, ⟨0x0A, 0x04, 500⟩, ⟨0x06, 0x02, 20⟩, ⟨0x06, 0x01, 30⟩])) = some
    ([⟨0x0A, 0x04, 500⟩, ⟨0x06, 0x01, 30⟩], [⟨0x06, 0x01, .timeout⟩, ⟨0x06, 0x02, .timeout⟩]) := by decide +kernel

/-- V1205. -/
theorem test_sweep_full_loses_entry :
    view (fun s => (s.awaited, s.failed.length, s.faultReg)) (exec (.sweep 4000 1000)
    { awaiting [⟨0x06, 0x08, 2000⟩] with failed := List.replicate 8 ⟨0x06, 0, .timeout⟩ }) = some ([], 8, 0b10) := by
    decide +kernel

/-- V1203. -/
theorem test_drainFailures :
    view (fun s => (s.result, s.failed)) (exec .drainFailures (failing [⟨0x06, 0x02, .timeout⟩])) =
    some (.failures [⟨0x06, 0x02, .timeout⟩], []) := by decide +kernel

/-- V1203. -/
theorem test_drainFailed :
    view (fun s => (s.result, s.failed)) (exec (.drainFailed 0x06 0x01) (failing [⟨0x06, 0x01, .timeout⟩, ⟨0x06,
    0x02, .timeout⟩])) =
    some (.failures [⟨0x06, 0x01, .timeout⟩], [⟨0x06, 0x02, .timeout⟩]) := by decide +kernel

/-- V1203. -/
theorem test_queryAwaited :
    view (·.result) (exec (.queryAwaited 0x06 0x01) (awaiting [⟨0x0A, 0x04, 500⟩, ⟨0x06, 0x01, 30⟩])) = some (.count
    1) := by decide +kernel

/-- P6. -/
theorem test_queryFailed :
    view (·.result) (exec (.queryFailed 0x06 0x24) (failing [⟨0x06, 0x24, .nak⟩, ⟨0x06, 0x01, .timeout⟩])) = some
    (.counts 1 0) := by decide +kernel

/-- R309. -/
theorem test_nop :
    view (·.result) (exec .nop { State.reset with result := .badOp }) = some .none := by decide +kernel

/-- V1301. -/
theorem test_readFix :
    view (·.result) (exec .readFix State.reset) = some (.fix FixRecord.zero) := by decide +kernel

/-- R302. -/
theorem test_readSv_current_table :
    view (·.result) (exec .readSv { State.reset with curSel := true, sv1 := [⟨1, 30⟩] }) = some (.svTable true [⟨1,
    30⟩]) := by decide +kernel

/-- R303. -/
theorem test_readFlags_keeps :
    view (fun s => (s.result, s.newFlags)) (exec .readFlags { State.reset with newFlags := 0b0001 }) = some (.flags
    0b0001, 0b0001) := by decide +kernel

/-- V1302. -/
theorem test_clearFlags :
    view (·.newFlags) (exec (.clearFlags 0b1001) { State.reset with newFlags := 0b1011 }) = some 0b0010 :=
    by decide +kernel

/-- R307, R24. -/
theorem test_readStatus :
    (view (·.result) (exec .readStatus (atChecksum 0x33 0x1B))).map
    (fun r => match r with | .status u => (u.state, u.avail, u.rxLen, u.payOwned) | _ => (0, 0, 0, false)) = some (6,
    2, 3, true) := by decide +kernel

/-- V1301. -/
theorem test_readVersion :
    view (·.result) (exec .readVersion State.reset) = some (.version ⟨List.replicate 30 0, List.replicate 10 0,
    false⟩) := by decide +kernel

/-- V1303. -/
theorem test_powerOff_keeps_flags :
    view (fun s => (s.fix, s.newFlags)) (exec .powerOff
    { State.reset with newFlags := 0b0001, fix := { FixRecord.zero with altM := 545 } }) = some (FixRecord.zero,
    0b0001) := by decide +kernel

/-- P7. -/
theorem test_reset_of_halted :
    view id (exec .reset { State.reset with halted := true, faultReg := 0b01, wr := 9, buf := [(8, 0x24)] }) = some
    State.reset := by decide +kernel

/-- V1304. -/
theorem test_reserved :
    view id (exec (.reserved .host 0x40 []) State.reset) = some { State.reset with result := .badOp } :=
    by decide +kernel

/-- V203. -/
theorem test_leadSentence_keeps_ms :
    view (fun s => (s.fsm, s.sc, s.ms, s.msgTime)) (exec (.leadSentence 10) (fed [0x24])) = some (.sentenceWait, 1,
    0, 10) := by decide +kernel

/-- V205. -/
theorem test_leadBinary :
    view (fun s => (s.fsm, s.sc, s.ms)) (exec (.leadBinary 20) (fed [0xB5])) = some (.binSyncWait, 1, 1) :=
    by decide +kernel

/-- V202. -/
theorem test_leadOther :
    view (fun s => (s.fsm, s.sc, s.ms)) (exec (.leadOther 0) (fed [0])) = some (.idle, 1, 1) := by decide +kernel

/-- V703. -/
theorem test_gpgga_south_west :
    view (fun s => (s.fix.latFx.toInt, s.fix.lonFx.toInt, s.fix.altM.toInt, s.fix.latStr))
    (exec (.gpgga [0x24, 0x47, 0x50, 0x47, 0x47, 0x41, 0x2C, 0x30, 0x30, 0x30, 0x30, 0x30, 0x30, 0x2C, 0x33, 0x33,
    0x35, 0x31, 0x2E, 0x30, 0x30, 0x30, 0x2C, 0x53, 0x2C, 0x31, 0x35, 0x31, 0x31, 0x32, 0x2E, 0x30, 0x30, 0x30, 0x2C,
    0x57, 0x2C, 0x31, 0x2C, 0x31, 0x32, 0x2C, 0x31, 0x2E, 0x30, 0x2C, 0x2D, 0x31, 0x32, 0x2E, 0x39, 0x2C, 0x4D, 0x2C,
    0x30, 0x2E, 0x30, 0x2C, 0x4D, 0x2C, 0x2C, 0x2A, 0x36, 0x41, 0x0D]) State.reset) =
    some (-403846203, -1803886156, -12, [0x2D, 0x33, 0x33, 0x2E, 0x38, 0x35, 0x30, 0x30, 0x30, 0x53]) :=
    by decide +kernel

/-- V704. -/
theorem test_gpgga_needs_direction :
    view (fun s => (s.fix.latFx, s.fix.lonFx.toInt, s.newFlags))
    (exec (.gpgga [0x24, 0x47, 0x50, 0x47, 0x47, 0x41, 0x2C, 0x31, 0x2C, 0x34, 0x38, 0x30, 0x37, 0x2E, 0x30, 0x33,
    0x38, 0x2C, 0x2C, 0x30, 0x31, 0x31, 0x33, 0x31, 0x2E, 0x30, 0x30, 0x30, 0x2C, 0x45, 0x2C, 0x31, 0x2C, 0x2C, 0x2C,
    0x2C, 0x2C, 0x2C, 0x2C, 0x2C, 0x2A, 0x32, 0x31, 0x0D]) State.reset) = some (0, 137399175, 0b0001) :=
    by decide +kernel

/-- P4. -/
theorem test_gpgsa_3d :
    view (fun s => (s.fix.fixQ, s.newFlags)) (exec (.gpgsa [0x24, 0x47, 0x50, 0x47, 0x53, 0x41, 0x2C, 0x41, 0x2C,
    0x33, 0x2A, 0x33, 0x30, 0x0D]) State.reset) = some (0b10, 0b0010) := by decide +kernel

/-- V716. -/
theorem test_gpgsa_absent_clears :
    view (fun s => (s.fix.fixQ, s.newFlags)) (exec (.gpgsa [0x24, 0x47, 0x50, 0x47, 0x53, 0x41, 0x2C, 0x41, 0x2C,
    0x2C, 0x2C, 0x2C, 0x2C, 0x2C, 0x2C, 0x2C, 0x2C, 0x2C, 0x2C, 0x2C, 0x2C, 0x2C, 0x2C, 0x2C, 0x2A, 0x32, 0x46, 0x0D])
    { State.reset with fix := { FixRecord.zero with fixQ := 0b10 } }) = some (0b00, 0b0010) := by decide +kernel

/-- V721. -/
theorem test_gpvtg :
    view (fun s => (s.fix.spdX1000, s.fix.hdgX100, s.fix.spdStr)) (exec (.gpvtg [0x24, 0x47, 0x50, 0x56, 0x54, 0x47,
    0x2C, 0x30, 0x35, 0x34, 0x2E, 0x37, 0x2C, 0x54, 0x2C, 0x30, 0x33, 0x34, 0x2E, 0x34, 0x2C, 0x4D, 0x2C, 0x30, 0x30,
    0x35, 0x2E, 0x35, 0x2C, 0x4E, 0x2C, 0x30, 0x31, 0x30, 0x2E, 0x32, 0x2C, 0x4B, 0x2A, 0x34, 0x38, 0x0D])
    State.reset) =
    some (10200, 5470, [0x30, 0x31, 0x30, 0x2E, 0x32, 0x6B, 0x6D, 0x2F, 0x68]) := by decide +kernel

/-- V723. -/
theorem test_gpvtg_wraps :
    view (fun s => (s.fix.spdX1000, s.fix.hdgX100)) (exec (.gpvtg [0x24, 0x47, 0x50, 0x56, 0x54, 0x47, 0x2C, 0x33,
    0x36, 0x30, 0x2E, 0x30, 0x30, 0x2C, 0x54, 0x2C, 0x2C, 0x4D, 0x2C, 0x2C, 0x4E, 0x2C, 0x34, 0x32, 0x39, 0x34, 0x39,
    0x36, 0x37, 0x2E, 0x32, 0x39, 0x36, 0x2C, 0x4B, 0x2A, 0x37, 0x35, 0x0D]) State.reset) =
    some (0, 36000) := by decide +kernel

/-- V742. -/
theorem test_gpgsv_position_one :
    view (fun s => (s.curSel, s.sv0.take 2, s.sv1.take 2)) (exec (.gpgsv [0x24, 0x47, 0x50, 0x47, 0x53, 0x56, 0x2C,
    0x31, 0x2C, 0x31, 0x2C, 0x30, 0x31, 0x2C, 0x32, 0x31, 0x2C, 0x34, 0x30, 0x2C, 0x30, 0x38, 0x33, 0x2C, 0x34, 0x36,
    0x2A, 0x34, 0x36, 0x0D]) State.reset) =
    some (true, [⟨21, 46⟩, ⟨0, 0⟩], [⟨0, 0⟩, ⟨0, 0⟩]) := by decide +kernel

/-- V746. -/
theorem test_gpgsv_reduces_bytes :
    view (fun s => (s.sv0.take 1, s.fix.satsTrkStr)) (exec (.gpgsv [0x24, 0x47, 0x50, 0x47, 0x53, 0x56, 0x2C, 0x31,
    0x2C, 0x31, 0x2C, 0x33, 0x30, 0x30, 0x2C, 0x33, 0x30, 0x30, 0x2C, 0x30, 0x2C, 0x30, 0x2C, 0x32, 0x35, 0x36, 0x2A,
    0x34, 0x38, 0x0D]) State.reset) =
    some ([⟨44, 0⟩], [0x33, 0x30, 0x30]) := by decide +kernel

/-- V732. -/
theorem test_sentenceOther_counts :
    view (·.cntOther) (exec (.sentenceOther [0x24, 0x47, 0x50, 0x47, 0x47, 0x41, 0x58, 0x2C, 0x31, 0x2C, 0x32, 0x2A,
    0x30, 0x44, 0x0D]) State.reset) = some 1 := by decide +kernel

/-- V902. -/
theorem test_ackAck :
    view (·.awaited) (exec (.ackAck [0x06, 0x01]) (awaiting [⟨0x06, 0x01, 10⟩, ⟨0x0A, 0x04, 12⟩, ⟨0x06, 0x01, 20⟩]))
    = some [⟨0x0A, 0x04, 12⟩] := by decide +kernel

/-- V904. -/
theorem test_ackNak :
    view (fun s => (s.awaited, s.failed)) (exec (.ackNak [0x06, 0x01]) (awaiting [⟨0x06, 0x01, 10⟩])) = some ([],
    [⟨0x06, 0x01, .nak⟩]) := by decide +kernel

/-- V916. -/
theorem test_ackNak_full :
    view (fun s => (s.awaited, s.failed.length, s.faultReg)) (exec (.ackNak [0x06, 0x01])
    { awaiting [⟨0x06, 0x01, 10⟩] with failed := List.replicate 8 ⟨0, 0, .timeout⟩ }) = some ([], 8, 0b10) := by
    decide +kernel

/-- R246. -/
theorem test_monVer_short_payload :
    view (fun s => (s.ver.sw.take 3, s.ver.hw.length, s.ver.valid)) (exec (.monVer [0x52, 0x4F]) State.reset) =
    some ([0x52, 0x4F, 0], 10, true) := by decide +kernel

/-- V909, V911, V913. -/
theorem test_tolerated_frames :
    view id (exec (.ackOther 0x02 [0x06, 0x01]) midFrame) = some midFrame ∧ view id (exec (.monOther 0x09 [])
    midFrame) = some midFrame ∧
    view id (exec (.cfgAny 0x06 0x24 [1]) midFrame) = some midFrame := by decide +kernel

/-- V914. -/
theorem test_classUnknown :
    view (fun s => (s.faultReg, s.halted, s.faultClass, s.faultId)) (exec (.classUnknown 0x01 0x07 []) State.reset) =
    some (0b01, true, 0x01, 0x07) := by decide +kernel

/-! ## Operand forms -/

/-- Section 2.3. -/
theorem test_verify :
    verify [0x24, 0x2A, 0x30, 0x30, 0x0D] = true ∧ verify [0x24, 0x4A, 0x2A, 0x34, 0x61, 0x0D] = false ∧
    verify [0x24, 0x41, 0x2A, 0x34, 0x0D] = false ∧ verify [0x24, 0x41, 0x2A, 0x42, 0x2A, 0x30, 0x33, 0x0D] = false ∧
    verify [0x24, 0xC1, 0x2A, 0x43, 0x31, 0x0D] = true := by decide +kernel

/-- Section 2.4. -/
theorem test_field :
    field .default [0x24, 0x2C, 0x41, 0x2A, 0x36, 0x44, 0x0D] 1 = [0x41] ∧ field .default [0x24, 0x2C, 0x41, 0x2A,
    0x36, 0x44, 0x0D] 2 = [] ∧
    (field .default [0x24, 0x47, 0x50, 0x58, 0x58, 0x58, 0x2C, 0x41, 0x42, 0x43, 0x44, 0x45, 0x46, 0x47, 0x48, 0x49,
    0x4A, 0x4B, 0x4C, 0x4D, 0x4E, 0x4F, 0x50, 0x51, 0x52, 0x53, 0x54, 0x2A, 0x30, 0x30, 0x0D] 1).length = 16 ∧
    fieldTruncated .default [0x24, 0x47, 0x50, 0x58, 0x58, 0x58, 0x2C, 0x41, 0x42, 0x43, 0x44, 0x45, 0x46, 0x47,
    0x48, 0x49, 0x4A, 0x4B, 0x4C, 0x4D, 0x4E, 0x4F, 0x50, 0x51, 0x52, 0x53, 0x54, 0x2A, 0x30, 0x30, 0x0D] 1 = true ∧
    fieldTruncated .default [0x24, 0x47, 0x50, 0x58, 0x58, 0x58, 0x2C, 0x41, 0x42, 0x43, 0x44, 0x45, 0x46, 0x47,
    0x48, 0x49, 0x4A, 0x4B, 0x4C, 0x4D, 0x4E, 0x4F, 0x50, 0x2A, 0x30, 0x30, 0x0D] 1 = false := by decide +kernel

/-- Section 2.5. -/
theorem test_parseDec :
    parseDec [0x2D, 0x31, 0x32, 0x2E, 0x39] 0 true = (true, 12) ∧ parseDec [0x2D, 0x31, 0x32, 0x2E, 0x39] 0 false =
    (false, 0) ∧ parseDec [0x2E, 0x35] 1 false = (false, 5) ∧
    parseDec [0x31, 0x2E, 0x32, 0x33, 0x34, 0x35, 0x36] 3 false = (false, 1234) ∧ parseDec [0x31, 0x32, 0x41, 0x34] 0
    false = (false, 12) ∧
    parseDec [0x31, 0x2E, 0x32, 0x2E, 0x33] 2 false = (false, 120) := by decide +kernel

/-- Section 2.6. -/
theorem test_latlon :
    (latlonFx .default [0x31, 0x38, 0x30, 0x30, 0x30, 0x2E, 0x30, 0x30, 0x30, 0x30] true).toInt = -2147483520 ∧
    latlonText [0x30, 0x30, 0x30, 0x30, 0x2E, 0x30, 0x30, 0x30, 0x30] true = [0x2D, 0x30, 0x2E, 0x30, 0x30, 0x30,
    0x30, 0x30] ∧
    latlonText [0x34, 0x38, 0x37, 0x35, 0x2E, 0x30, 0x30, 0x30] false = [0x34, 0x38, 0x2E, 0x31, 0x32, 0x35, 0x30,
    0x30, 0x30] ∧ (latlonFx .default [0x34, 0x38, 0x30, 0x37, 0x2E, 0x30, 0x33, 0x38, 0x39, 0x39] false).toInt =
    574061893 := by decide +kernel

/-- Section 2.8. -/
theorem test_cksum :
    cksum [0xFF, 0xFF] = (0xFE, 0xFD) ∧ cksum [0x05, 0x01, 0x02, 0x00, 0x06, 0x01] = (0x0F, 0x38) := by decide +kernel

/-! ## States and operands that meet the hypotheses of the obligations -/

/-- One well-formed instruction of every row. -/
theorem witness_EncodedInstructionDecodesBack :
    ∀ i ∈ ([
    .nop, .push 0xFF, .tick 0xFFFFFFFF, .send 1 2 true false 3 (List.replicate 300 7), .register 1 2 3, .resolve 1 2,
    .sweep 1 2, .drainFailures, .drainFailed 1 2, .queryAwaited 1 2, .queryFailed 1 2, .readFix, .readSv, .readFlags,
    .clearFlags 0b1111, .readStatus, .readVersion, .powerOff, .reset, .reserved .producer 0x02 [1], .leadSentence 1,
    .leadBinary 1, .leadOther 0, .gpgga [0x24, 0x47, 0x50, 0x47, 0x47, 0x41, 0x2C, 0x31, 0x32, 0x33, 0x35, 0x31,
    0x39, 0x2C, 0x34, 0x38, 0x30, 0x37, 0x2E, 0x30, 0x33, 0x38, 0x2C, 0x4E, 0x2C, 0x30, 0x31, 0x31, 0x33, 0x31, 0x2E,
    0x30, 0x30, 0x30, 0x2C, 0x45, 0x2C, 0x31, 0x2C, 0x30, 0x38, 0x2C, 0x30, 0x2E, 0x39, 0x2C, 0x35, 0x34, 0x35, 0x2E,
    0x34, 0x2C, 0x4D, 0x2C, 0x34, 0x36, 0x2E, 0x39, 0x2C, 0x4D, 0x2C, 0x2C, 0x2A, 0x34, 0x37, 0x0D], .gpgsa [0x24,
    0x47, 0x50, 0x47, 0x53, 0x41, 0x2C, 0x41, 0x2C, 0x33, 0x2A, 0x33, 0x30, 0x0D], .gpvtg [0x24, 0x47, 0x50, 0x56,
    0x54, 0x47, 0x2C, 0x30, 0x35, 0x34, 0x2E, 0x37, 0x2C, 0x54, 0x2C, 0x30, 0x33, 0x34, 0x2E, 0x34, 0x2C, 0x4D, 0x2C,
    0x30, 0x30, 0x35, 0x2E, 0x35, 0x2C, 0x4E, 0x2C, 0x30, 0x31, 0x30, 0x2E, 0x32, 0x2C, 0x4B, 0x2A, 0x34, 0x38,
    0x0D], .gpgsv [0x24, 0x47, 0x50, 0x47, 0x53, 0x56, 0x2C, 0x31, 0x2C, 0x31, 0x2C, 0x30, 0x31, 0x2C, 0x32, 0x31,
    0x2C, 0x34, 0x30, 0x2C, 0x30, 0x38, 0x33, 0x2C, 0x34, 0x36, 0x2A, 0x34, 0x36, 0x0D], .sentenceOther [0x24, 0x47,
    0x50, 0x47, 0x47, 0x41, 0x58, 0x2C, 0x31, 0x2C, 0x32, 0x2A, 0x30, 0x44, 0x0D], .ackAck (List.replicate 64 0xFF),
    .ackNak [], .monVer [1], .ackOther 2 [], .monOther 9 [1, 2], .cfgAny 0x06 0xFF [1], .classUnknown 0 0 [0]] : List
    Instr),
    i.wellFormed .default = true := by decide +kernel

theorem witness_AcceptedBytesAreWellFormed :
    decode .default (.op .host) [0x23, 0xF9] = .ok (.clearFlags 0b1001) ∧
    decode .default .frame [0xB5, 0x62, 0x06, 0x01, 0x00, 0x00, 0x07, 0x1B] = .ok (.cfgAny 0x06 0x01 []) ∧
    (∀ port, Form.frame ≠ .op port) := ⟨rfl, rfl, by simp⟩

theorem witness_OpcodeOffItsPortIsRefused :
    opcodePort 0x40 ≠ some Port.host ∧ opcodePort 0x01 ≠ some Port.host ∧ opcodePort 0x20 ≠ some Port.producer ∧
    isOperation (.reserved .host 0x40 []) = true ∧
    view (·.result) (exec (.reserved .host 0x40 []) State.reset) = some .badOp := by decide +kernel

theorem witness_StepRunsPresentedOperation :
    (present ⟨.host, [0x00]⟩ State.reset).inbox = ⟨.host, [0x00]⟩ :: [] ∧ decode .default (.op .host) [0x00] = .ok
    .nop ∧
    State.reset.inbox = [] ∧ (present ⟨.host, [0x12]⟩ State.reset).inbox = ⟨.host, [0x12]⟩ :: [] ∧
    decode .default (.op .host) [0x12] = .error .operandBytes := ⟨rfl, rfl, rfl, rfl, rfl⟩

/-- And, for the ring of one cell, the other case. -/
theorem witness_PushStoresByteAndZeroesNext :
    midFrame.wr < midFrame.cfg.n ∧ Memory.wf midFrame.buf ∧ nextCell midFrame.cfg.n midFrame.wr ≠ midFrame.wr ∧
    (State.resetOf { Config.default with n := 1 }).wr < 1 ∧ nextCell 1 0 = 0 := by decide +kernel

/-- The state of P8 and V104 after seven bytes. -/
theorem witness_OverrunLosesTheOldestByte :
    (fed8 [0x24, 0x41, 0x42, 0x43, 0x44, 0x45, 0x46]).cursorsInRange = true ∧ Memory.wf (fed8 [0x24, 0x41, 0x42,
    0x43, 0x44, 0x45, 0x46]).buf ∧
    (fed8 [0x24, 0x41, 0x42, 0x43, 0x44, 0x45, 0x46]).overrunsNext = true ∧ (fed8 [0x24, 0x41, 0x42, 0x43, 0x44,
    0x45, 0x46]).ms = (fed8 [0x24, 0x41, 0x42, 0x43, 0x44, 0x45, 0x46]).sc := by decide +kernel

theorem witness_TickCompletes :
    ({ State.reset with halted := true } : State).halted = true ∧ midFrame.cursorsInRange = true ∧
    (midFrame.fsm = .binPayloadWait → midFrame.asm.payIdx + midFrame.asm.payRem ≤ midFrame.cfg.payloadCap) ∧
    (midFrame.fsm = .binChecksumWait → midFrame.asm.rxLen.toNat ≤ midFrame.cfg.payloadCap) := by decide +kernel

/-- The payload loop with its index at the last cell of the buffer and two bytes waiting. -/
def beyondPayload : State := { midFrame with asm := { midFrame.asm with payIdx := 63 } }

/-- A frame of which the last header byte alone is still to come. -/
def lastHeaderByte : State :=
  { atHeader 0x40 0x00 with
    sc := 5
    ms := 5
    asm := { Assembler.zero with hdr := #v[0x0A, 0x04, 0x40, 0x00], hdrCnt := 3, ckA := 0x4E, ckB := 0x66 } }

/-- A complete frame of which the last checksum byte alone is still to come. -/
def secondChecksumByte : State :=
  { atChecksum 0x33 0x1B with
    sc := 10
    ms := 10
    asm := { (atChecksum 0x33 0x1B).asm with rxCk := #v[0x33, 0x00], ckCnt := 1 } }

/-- A complete frame whose declared length is above the payload buffer. -/
def beyondLength : State := { atChecksum 0x33 0x1B with asm := { (atChecksum 0x33 0x1B).asm with rxLen := 65 } }

theorem witness_AccessOutsideArraysStops :
    ({ State.reset with wr := 256 } : State).cfg.n ≤ 256 ∧
    ({ State.reset with sc := 256 } : State).halted = false ∧ ({ State.reset with sc := 256 } : State).cursorsInRange
    = false ∧
    (beyondPayload.runs .binPayloadWait ∧ beyondPayload.sc ≠ beyondPayload.wr ∧ 0 < beyondPayload.asm.payRem ∧
      beyondPayload.cfg.payloadCap < beyondPayload.asm.payIdx + min beyondPayload.asm.payRem beyondPayload.avail) ∧
    beyondLength.runs .binChecksumWait ∧ beyondLength.asm.ckCnt = 0 ∧
    beyondLength.unread = beyondLength.asm.ckA :: beyondLength.asm.ckB :: [] ∧
    beyondLength.cfg.payloadCap < beyondLength.asm.rxLen.toNat := by
  unfold State.runs
  decide +kernel

theorem witness_StarvedTickTimesOutStrictly :
    ({ fed [0x24] with sc := 1, fsm := .sentenceWait } : State).halted = false ∧
    ({ fed [0x24] with sc := 1, fsm := .sentenceWait } : State).cursorsInRange = true ∧ (1 : Nat) = (fed [0x24]).wr ∧
    Framing.sentenceWait ≠ .idle ∧ Framing.sentenceWait ≠ .error ∧
    ({ midFrame with sc := 9, ms := 9 } : State).sc = midFrame.wr ∧ 0 < midFrame.asm.payRem := by decide +kernel

/-- With a byte, without one, and with a sweep that halts. -/
theorem witness_IdleTickSweepsThenClassifies :
    (fed [0x24]).runs .idle ∧ (fed [0x24]).unread = [0x24] ∧ State.reset.runs .idle ∧ State.reset.unread = [] ∧
    (ledgerSweep 2000 1000 { awaiting [⟨0x06, 0x08, 0⟩] with failed := List.replicate 8 ⟨0, 0, .nak⟩ }).halted = true
    := by
  unfold State.runs
  decide +kernel

theorem witness_SentenceTickConsumesThroughCR :
    ({ fed [0x24, 0x41, 0x0D] with sc := 1, fsm := .sentenceWait } : State).runs .sentenceWait ∧
    ({ fed [0x24, 0x41, 0x0D] with sc := 1, fsm := .sentenceWait } : State).sc ≠ (fed [0x24, 0x41, 0x0D]).wr := by
  unfold State.runs
  decide +kernel

/-- And a verified span of every kind. -/
theorem witness_LineFeedDecidesSentence :
    (atLineFeed 0x0A).runs .sentenceLFWait ∧ (atLineFeed 0x0A).unread = [chLF] ∧ verify (atLineFeed 0x0A).span = true
    ∧
    ({ atLineFeed 0x0A with ms := 1 } : State).runs .sentenceLFWait ∧ ({ atLineFeed 0x0A with ms := 1 } :
    State).unread = [chLF] ∧
    verify ({ atLineFeed 0x0A with ms := 1 } : State).span = false ∧
    (atLineFeed 0x24).runs .sentenceLFWait ∧ (atLineFeed 0x24).unread = [0x24] ∧ (0x24 : Byte) ≠ chLF ∧
    field .default [0x24, 0x47, 0x50, 0x47, 0x47, 0x41, 0x2C, 0x31, 0x32, 0x33, 0x35, 0x31, 0x39, 0x2C, 0x34, 0x38,
    0x30, 0x37, 0x2E, 0x30, 0x33, 0x38, 0x2C, 0x4E, 0x2C, 0x30, 0x31, 0x31, 0x33, 0x31, 0x2E, 0x30, 0x30, 0x30, 0x2C,
    0x45, 0x2C, 0x31, 0x2C, 0x30, 0x38, 0x2C, 0x30, 0x2E, 0x39, 0x2C, 0x35, 0x34, 0x35, 0x2E, 0x34, 0x2C, 0x4D, 0x2C,
    0x34, 0x36, 0x2E, 0x39, 0x2C, 0x4D, 0x2C, 0x2C, 0x2A, 0x34, 0x37, 0x0D] 0 = Config.default.addrPos ∧ field
    .default [0x24, 0x47, 0x50, 0x47, 0x53, 0x41, 0x2C, 0x41, 0x2C, 0x33, 0x2A, 0x33, 0x30, 0x0D] 0 ∉
    [Config.default.addrPos] ∧
    field .default [0x24, 0x47, 0x50, 0x47, 0x53, 0x41, 0x2C, 0x41, 0x2C, 0x33, 0x2A, 0x33, 0x30, 0x0D] 0 =
    Config.default.addrFixq ∧
    field .default [0x24, 0x47, 0x50, 0x56, 0x54, 0x47, 0x2C, 0x30, 0x35, 0x34, 0x2E, 0x37, 0x2C, 0x54, 0x2C, 0x30,
    0x33, 0x34, 0x2E, 0x34, 0x2C, 0x4D, 0x2C, 0x30, 0x30, 0x35, 0x2E, 0x35, 0x2C, 0x4E, 0x2C, 0x30, 0x31, 0x30, 0x2E,
    0x32, 0x2C, 0x4B, 0x2A, 0x34, 0x38, 0x0D] 0 ∉ [Config.default.addrPos, Config.default.addrFixq] ∧
    field .default [0x24, 0x47, 0x50, 0x56, 0x54, 0x47, 0x2C, 0x30, 0x35, 0x34, 0x2E, 0x37, 0x2C, 0x54, 0x2C, 0x30,
    0x33, 0x34, 0x2E, 0x34, 0x2C, 0x4D, 0x2C, 0x30, 0x30, 0x35, 0x2E, 0x35, 0x2C, 0x4E, 0x2C, 0x30, 0x31, 0x30, 0x2E,
    0x32, 0x2C, 0x4B, 0x2A, 0x34, 0x38, 0x0D] 0 = Config.default.addrSpdhdg ∧
    field .default [0x24, 0x47, 0x50, 0x47, 0x53, 0x56, 0x2C, 0x31, 0x2C, 0x31, 0x2C, 0x30, 0x31, 0x2C, 0x32, 0x31,
    0x2C, 0x34, 0x30, 0x2C, 0x30, 0x38, 0x33, 0x2C, 0x34, 0x36, 0x2A, 0x34, 0x36, 0x0D] 0 ∉ [Config.default.addrPos,
    Config.default.addrFixq, Config.default.addrSpdhdg] ∧
    field .default [0x24, 0x47, 0x50, 0x47, 0x53, 0x56, 0x2C, 0x31, 0x2C, 0x31, 0x2C, 0x30, 0x31, 0x2C, 0x32, 0x31,
    0x2C, 0x34, 0x30, 0x2C, 0x30, 0x38, 0x33, 0x2C, 0x34, 0x36, 0x2A, 0x34, 0x36, 0x0D] 0 = Config.default.addrSats ∧
    field .default [0x24, 0x47, 0x50, 0x47, 0x47, 0x41, 0x58, 0x2C, 0x31, 0x2C, 0x32, 0x2A, 0x30, 0x44, 0x0D] 0 ∉
    [Config.default.addrPos, Config.default.addrFixq, Config.default.addrSpdhdg,
      Config.default.addrSats] := by
  unfold State.runs
  decide +kernel

theorem witness_SecondSyncByteStartsHeader :
    ({ fed [0x62] with fsm := .binSyncWait } : State).runs .binSyncWait ∧ (fed [0x62]).unread = [(fed
    [0x62]).cfg.sync2] ∧
    ({ fed [0xB5] with fsm := .binSyncWait } : State).runs .binSyncWait ∧ (fed [0xB5]).unread = [0xB5] ∧
    (0xB5 : Byte) ≠ (fed [0xB5]).cfg.sync2 := by
  unfold State.runs
  decide +kernel

/-- V207 and V206: the lengths 64 and 65; V209: one byte of four waiting, and the fourth alone. -/
theorem witness_FourHeaderBytesSetLength :
    (atHeader 0x40 0x00).runs .binHeaderWait ∧ (atHeader 0x40 0x00).asm.hdrCnt = 0 ∧
    (atHeader 0x40 0x00).unread.take (4 - 0) = [0x0A, 0x04, 0x40, 0x00] ∧
    (ofLe16 0x40 0x00).toNat = (atHeader 0x40 0x00).cfg.payloadCap ∧
    (atHeader 0x41 0x00).runs .binHeaderWait ∧ (atHeader 0x41 0x00).unread.take (4 - 0) = [0x0A, 0x04, 0x41, 0x00] ∧
    (ofLe16 0x41 0x00).toNat = (atHeader 0x41 0x00).cfg.payloadCap + 1 ∧
    ({ atHeader 0x40 0x00 with wr := 3 } : State).runs .binHeaderWait ∧
    ({ atHeader 0x40 0x00 with wr := 3 } : State).unread.take (4 - 0) = [0x0A] ∧ lastHeaderByte.runs .binHeaderWait ∧
    lastHeaderByte.asm.hdrCnt = 3 ∧ lastHeaderByte.sc ≠ lastHeaderByte.wr ∧
    lastHeaderByte.unread.take (4 - 3) = [0x00] := by
  unfold State.runs
  decide +kernel

theorem witness_PayloadTickCopiesBytes :
    midFrame.runs .binPayloadWait ∧ Memory.wf midFrame.asm.payload ∧
    midFrame.asm.payIdx + midFrame.asm.payRem ≤ midFrame.cfg.payloadCap ∧ 0 < midFrame.asm.payRem ∧ midFrame.sc ≠
    midFrame.wr ∧
    midFrame.unread.take midFrame.asm.payRem = [0x02, 0x03] := by
  unfold State.runs
  decide +kernel

theorem witness_EmptyPayloadTickGoesOn :
    ({ midFrame with asm := { midFrame.asm with payRem := 0 } } : State).runs .binPayloadWait ∧
    ({ midFrame with asm := { midFrame.asm with payRem := 0 } } : State).asm.payRem = 0 := by
  unfold State.runs
  decide +kernel

/-- V209: also one checksum byte alone, and the second after it. -/
theorem witness_ChecksumBytesDecideFrame :
    (atChecksum 0x33 0x1B).runs .binChecksumWait ∧ (atChecksum 0x33 0x1B).asm.ckCnt = 0 ∧
    (atChecksum 0x33 0x1B).unread = [0x33, 0x1B] ∧ ((0x33 : Byte), (0x1B : Byte)) = (atChecksum 0x33 0x1B).asm.ck ∧
    (atChecksum 0x33 0x1B).asm.rxLen.toNat ≤ (atChecksum 0x33 0x1B).cfg.payloadCap ∧
    (atChecksum 0x33 0x1C).runs .binChecksumWait ∧ (atChecksum 0x33 0x1C).asm.ckCnt = 0 ∧
    (atChecksum 0x33 0x1C).unread = [0x33, 0x1C] ∧ ((0x33 : Byte), (0x1C : Byte)) ≠ (atChecksum 0x33 0x1C).asm.ck ∧
    ({ atChecksum 0x33 0x1B with wr := 10 } : State).runs .binChecksumWait ∧
    ({ atChecksum 0x33 0x1B with wr := 10 } : State).unread = [0x33] ∧ secondChecksumByte.runs .binChecksumWait ∧
    secondChecksumByte.asm.ckCnt = 1 ∧ secondChecksumByte.asm.rxCk[0] = 0x33 ∧ secondChecksumByte.unread = [0x1B] ∧
    ((0x33 : Byte), (0x1B : Byte)) = secondChecksumByte.asm.ck := by
  unfold State.runs
  decide +kernel

theorem witness_ErrorTickRecordsAndReturns :
    ({ midFrame with fsm := .error, errCode := .timeout } : State).runs .error := by
  unfold State.runs
  decide +kernel

theorem witness_TransitionsFollowTheTable :
    midFrame.halted = false ∧ ∃ t, exec (.tick 9) midFrame = .next t := ⟨rfl, next_of_after (by decide +kernel)⟩

/-- The last byte of the body, changed into an asterisk. -/
theorem witness_VerifyAcceptsBuiltRejectsChanged :
    chStar ∉ sentenceBody [0x47, 0x50, 0x47, 0x53, 0x41] [[0x41], [0x33]] ∧ verify [0x24, 0x47, 0x50, 0x47, 0x53,
    0x41, 0x2C, 0x41, 0x2C, 0x33, 0x2A, 0x33, 0x30, 0x0D] = true ∧ 8 < (bodyOf [0x24, 0x47, 0x50, 0x47, 0x53, 0x41,
    0x2C, 0x41, 0x2C, 0x33, 0x2A, 0x33, 0x30, 0x0D]).length ∧
    (bodyOf [0x24, 0x47, 0x50, 0x47, 0x53, 0x41, 0x2C, 0x41, 0x2C, 0x33, 0x2A, 0x33, 0x30, 0x0D]).getD 8 0 ≠ 0x2A :=
    by decide +kernel

theorem witness_FieldsOfBuiltSentence :
    (∀ x ∈ [0x47, 0x50, 0x47, 0x53, 0x41], stopsField x = false) ∧ (∀ f ∈ [[0x41], [], [0x33]], ∀ x ∈ f, stopsField x
    = false) ∧ (-1 : Int) < 0 := by decide +kernel

/-- The sentence of R208, and the coordinate R204 works out. -/
theorem witness_PositionSentenceUpdatesRecord :
    field .default [0x24, 0x47, 0x50, 0x47, 0x47, 0x41, 0x2C, 0x31, 0x32, 0x33, 0x35, 0x31, 0x39, 0x2C, 0x34, 0x38,
    0x30, 0x37, 0x2E, 0x30, 0x33, 0x38, 0x2C, 0x4E, 0x2C, 0x30, 0x31, 0x31, 0x33, 0x31, 0x2E, 0x30, 0x30, 0x30, 0x2C,
    0x45, 0x2C, 0x31, 0x2C, 0x30, 0x38, 0x2C, 0x30, 0x2E, 0x39, 0x2C, 0x35, 0x34, 0x35, 0x2E, 0x34, 0x2C, 0x4D, 0x2C,
    0x34, 0x36, 0x2E, 0x39, 0x2C, 0x4D, 0x2C, 0x2C, 0x2A, 0x34, 0x37, 0x0D] Config.default.fLat = [0x34, 0x38, 0x30,
    0x37, 0x2E, 0x30, 0x33, 0x38] ∧
    field .default [0x24, 0x47, 0x50, 0x47, 0x47, 0x41, 0x2C, 0x31, 0x32, 0x33, 0x35, 0x31, 0x39, 0x2C, 0x34, 0x38,
    0x30, 0x37, 0x2E, 0x30, 0x33, 0x38, 0x2C, 0x4E, 0x2C, 0x30, 0x31, 0x31, 0x33, 0x31, 0x2E, 0x30, 0x30, 0x30, 0x2C,
    0x45, 0x2C, 0x31, 0x2C, 0x30, 0x38, 0x2C, 0x30, 0x2E, 0x39, 0x2C, 0x35, 0x34, 0x35, 0x2E, 0x34, 0x2C, 0x4D, 0x2C,
    0x34, 0x36, 0x2E, 0x39, 0x2C, 0x4D, 0x2C, 0x2C, 0x2A, 0x34, 0x37, 0x0D] Config.default.fNs = [0x4E] ∧ field
    .default [0x24, 0x47, 0x50, 0x47, 0x47, 0x41, 0x2C, 0x31, 0x32, 0x33, 0x35, 0x31, 0x39, 0x2C, 0x34, 0x38, 0x30,
    0x37, 0x2E, 0x30, 0x33, 0x38, 0x2C, 0x4E, 0x2C, 0x30, 0x31, 0x31, 0x33, 0x31, 0x2E, 0x30, 0x30, 0x30, 0x2C, 0x45,
    0x2C, 0x31, 0x2C, 0x30, 0x38, 0x2C, 0x30, 0x2E, 0x39, 0x2C, 0x35, 0x34, 0x35, 0x2E, 0x34, 0x2C, 0x4D, 0x2C, 0x34,
    0x36, 0x2E, 0x39, 0x2C, 0x4D, 0x2C, 0x2C, 0x2A, 0x34, 0x37, 0x0D] Config.default.fLon = [0x30, 0x31, 0x31, 0x33,
    0x31, 0x2E, 0x30, 0x30, 0x30] ∧
    field .default [0x24, 0x47, 0x50, 0x47, 0x47, 0x41, 0x2C, 0x31, 0x32, 0x33, 0x35, 0x31, 0x39, 0x2C, 0x34, 0x38,
    0x30, 0x37, 0x2E, 0x30, 0x33, 0x38, 0x2C, 0x4E, 0x2C, 0x30, 0x31, 0x31, 0x33, 0x31, 0x2E, 0x30, 0x30, 0x30, 0x2C,
    0x45, 0x2C, 0x31, 0x2C, 0x30, 0x38, 0x2C, 0x30, 0x2E, 0x39, 0x2C, 0x35, 0x34, 0x35, 0x2E, 0x34, 0x2C, 0x4D, 0x2C,
    0x34, 0x36, 0x2E, 0x39, 0x2C, 0x4D, 0x2C, 0x2C, 0x2A, 0x34, 0x37, 0x0D] Config.default.fEw = [0x45] ∧ field
    .default [0x24, 0x47, 0x50, 0x47, 0x47, 0x41, 0x2C, 0x31, 0x32, 0x33, 0x35, 0x31, 0x39, 0x2C, 0x34, 0x38, 0x30,
    0x37, 0x2E, 0x30, 0x33, 0x38, 0x2C, 0x4E, 0x2C, 0x30, 0x31, 0x31, 0x33, 0x31, 0x2E, 0x30, 0x30, 0x30, 0x2C, 0x45,
    0x2C, 0x31, 0x2C, 0x30, 0x38, 0x2C, 0x30, 0x2E, 0x39, 0x2C, 0x35, 0x34, 0x35, 0x2E, 0x34, 0x2C, 0x4D, 0x2C, 0x34,
    0x36, 0x2E, 0x39, 0x2C, 0x4D, 0x2C, 0x2C, 0x2A, 0x34, 0x37, 0x0D] Config.default.fAlt = [0x35, 0x34, 0x35, 0x2E,
    0x34] ∧
    field .default [0x24, 0x47, 0x50, 0x47, 0x47, 0x41, 0x2C, 0x31, 0x32, 0x33, 0x35, 0x31, 0x39, 0x2C, 0x34, 0x38,
    0x30, 0x37, 0x2E, 0x30, 0x33, 0x38, 0x2C, 0x4E, 0x2C, 0x30, 0x31, 0x31, 0x33, 0x31, 0x2E, 0x30, 0x30, 0x30, 0x2C,
    0x45, 0x2C, 0x31, 0x2C, 0x30, 0x38, 0x2C, 0x30, 0x2E, 0x39, 0x2C, 0x35, 0x34, 0x35, 0x2E, 0x34, 0x2C, 0x4D, 0x2C,
    0x34, 0x36, 0x2E, 0x39, 0x2C, 0x4D, 0x2C, 0x2C, 0x2A, 0x34, 0x37, 0x0D] Config.default.fNused = [0x30, 0x38] ∧
    (parseDec [0x34, 0x38, 0x30, 0x37, 0x2E, 0x30, 0x33, 0x38] 4 false).2 = 48070380 ∧ 48070380 / 1000000 = 48 ∧
    48070380 % 1000000 = 70380 := by decide +kernel

/-- The fields of V721; a field of digits ends at its end, before `0` and after `9`. -/
theorem witness_SpeedHeadingSentenceUpdatesRecord :
    field .default [0x24, 0x47, 0x50, 0x56, 0x54, 0x47, 0x2C, 0x30, 0x35, 0x34, 0x2E, 0x37, 0x2C, 0x54, 0x2C, 0x30,
    0x33, 0x34, 0x2E, 0x34, 0x2C, 0x4D, 0x2C, 0x30, 0x30, 0x35, 0x2E, 0x35, 0x2C, 0x4E, 0x2C, 0x30, 0x31, 0x30, 0x2E,
    0x32, 0x2C, 0x4B, 0x2A, 0x34, 0x38, 0x0D] Config.default.fHdg = [0x30, 0x35, 0x34, 0x2E, 0x37] ∧
    field .default [0x24, 0x47, 0x50, 0x56, 0x54, 0x47, 0x2C, 0x30, 0x35, 0x34, 0x2E, 0x37, 0x2C, 0x54, 0x2C, 0x30,
    0x33, 0x34, 0x2E, 0x34, 0x2C, 0x4D, 0x2C, 0x30, 0x30, 0x35, 0x2E, 0x35, 0x2C, 0x4E, 0x2C, 0x30, 0x31, 0x30, 0x2E,
    0x32, 0x2C, 0x4B, 0x2A, 0x34, 0x38, 0x0D] Config.default.fSpd = [0x30, 0x31, 0x30, 0x2E, 0x32] ∧
    (∀ d ∈ ([0, 5, 4] ++ [7] : List Nat), d < 10) ∧ (∀ b ∈ ([] : Bytes).head?, ¬(0x30 ≤ b.toNat ∧ b.toNat ≤ 0x39)) ∧
    (∀ b ∈ ([0x2F] : Bytes).head?, ¬(0x30 ≤ b.toNat ∧ b.toNat ≤ 0x39)) ∧ ([0x2F] : Bytes).head? ≠ some 0x2E ∧
    (∀ b ∈ ([0x3A] : Bytes).head?, ¬(0x30 ≤ b.toNat ∧ b.toNat ≤ 0x39)) ∧ ([0x2F] : Bytes).head? ≠ some 0x2D := by
    decide +kernel

/-- The position R214 reads, with the default parameters. -/
def posOf (span : Bytes) : Nat := (parseDec (field .default span Config.default.fSvpos) 0 false).2 % 2 ^ 32

/-- Positions 0, 1, the last with room, and the first beyond the table; and a signal field before its id field. -/
theorem witness_SatelliteSentenceFillsIncoming :
    State.reset.sv0.length = State.reset.cfg.svCap ∧ State.reset.sv1.length = State.reset.cfg.svCap ∧
    posOf [0x24, 0x47, 0x50, 0x47, 0x53, 0x56, 0x2C, 0x31, 0x2C, 0x30, 0x2C, 0x30, 0x30, 0x2A, 0x37, 0x38, 0x0D] = 0
    ∧ posOf [0x24, 0x47, 0x50, 0x47, 0x53, 0x56, 0x2C, 0x31, 0x2C, 0x31, 0x2C, 0x30, 0x31, 0x2C, 0x32, 0x31, 0x2C,
    0x34, 0x30, 0x2C, 0x30, 0x38, 0x33, 0x2C, 0x34, 0x36, 0x2A, 0x34, 0x36, 0x0D] = 1 ∧
    field .default [0x24, 0x47, 0x50, 0x47, 0x53, 0x56, 0x2C, 0x31, 0x2C, 0x31, 0x2C, 0x30, 0x31, 0x2C, 0x32, 0x31,
    0x2C, 0x34, 0x30, 0x2C, 0x30, 0x38, 0x33, 0x2C, 0x34, 0x36, 0x2A, 0x34, 0x36, 0x0D] (Config.default.fSv0 +
    Config.default.svStride * 0) ≠ [] ∧ field .default [0x24, 0x47, 0x50, 0x47, 0x53, 0x56, 0x2C, 0x31, 0x2C, 0x31,
    0x2C, 0x30, 0x31, 0x2C, 0x32, 0x31, 0x2C, 0x34, 0x30, 0x2C, 0x30, 0x38, 0x33, 0x2C, 0x34, 0x36, 0x2A, 0x34, 0x36,
    0x0D] (Config.default.fSv0 + Config.default.svStride * 1) = [] ∧
    posOf [0x24, 0x47, 0x50, 0x47, 0x53, 0x56, 0x2C, 0x34, 0x2C, 0x34, 0x2C, 0x31, 0x36, 0x2C, 0x34, 0x30, 0x2C,
    0x30, 0x31, 0x2C, 0x30, 0x30, 0x31, 0x2C, 0x31, 0x30, 0x2A, 0x34, 0x42, 0x0D] = 4 ∧ (4 - 1) * 4 + 3 <
    Config.default.svCap ∧
    posOf [0x24, 0x47, 0x50, 0x47, 0x53, 0x56, 0x2C, 0x39, 0x2C, 0x35, 0x2C, 0x32, 0x30, 0x2C, 0x34, 0x30, 0x2C,
    0x30, 0x31, 0x2C, 0x30, 0x30, 0x31, 0x2C, 0x31, 0x30, 0x2A, 0x34, 0x32, 0x0D] = 5 ∧ ¬ (5 - 1) * 4 + 0 <
    Config.default.svCap ∧
    svSnrField { Config.default with svSnrOff := -1 } 0 = 3 ∧ svIdField { Config.default with svStride := -1 } 3 = 1
    := by decide +kernel

theorem witness_BuiltFrameReverifies :
    (List.replicate 64 (0xFF : Byte)).length < 65536 ∧ (List.replicate 64 (0xFF : Byte)).length ≤
    Config.default.payloadCap ∧
    cksum ([0xFF, 0x00, 0x01, 0x00] ++ [0x00]) = cksum [0xFF, 0x00, 0x01, 0x00] ∧
    (cksum ([0xFF, 0x00, 0x01, 0x00] ++ [0x00])).1 = 0 := by decide +kernel

theorem witness_AckRemovesEveryMatch :
    ([0x06] : Bytes).length < 2 := by decide +kernel

theorem witness_NakRecordsFailure :
    atCapacity (some 8) (failing (List.replicate 7 ⟨0, 0, .nak⟩)).failed.length = false ∧
    atCapacity (some 8) (failing (List.replicate 8 ⟨0, 0, .nak⟩)).failed.length = true ∧ State.reset.cfg.failCap =
    some 8 ∧
    ([0x06] : Bytes).length < 2 := by decide +kernel

/-- The last positions, and the first one that counts after an offset of -1. -/
theorem witness_VersionFrameFillsStrings :
    ((29 : Nat) : Int) < Config.default.verSwLen ∧ 0 ≤ Config.default.verSwOff + (29 : Nat) ∧
    ((9 : Nat) : Int) < Config.default.verHwLen ∧ 0 ≤ Config.default.verHwOff + (9 : Nat) ∧
    0 ≤ (-1 : Int) + (1 : Nat) ∧ ¬ 0 ≤ (-1 : Int) + (0 : Nat) := by decide +kernel

theorem witness_SendEmitsAndRegisters :
    ({ State.reset with halted := true } : State).halted = true ∧
    State.reset.cfg.txPayloadCap < (List.replicate 65 (0 : Byte)).length ∧ State.reset.halted = false ∧
    (List.replicate 64 (0 : Byte)).length ≤ State.reset.cfg.txPayloadCap ∧
    ([1, 2, 3] : Bytes).length = (0x03 : Byte).toNat + 256 * (0x00 : Byte).toNat := by decide +kernel

theorem witness_RegisterAppendsResolveRemoves :
    ({ State.reset with halted := true } : State).halted = true ∧ State.reset.halted = false ∧ atCapacity
    State.reset.cfg.awaitCap (awaiting (List.replicate 7 ⟨0, 0, 0⟩)).awaited.length = false ∧
    atCapacity State.reset.cfg.awaitCap (awaiting (List.replicate 8 ⟨0, 0, 0⟩)).awaited.length = true :=
    by decide +kernel

/-- One expired entry, with seven and with eight failures recorded. -/
theorem witness_SweepMovesExpiredEntries :
    ({ State.reset with halted := true } : State).halted = true ∧ State.reset.halted = false ∧
    State.reset.cfg.failCap = some 8 ∧
    (failing (List.replicate 7 ⟨0, 0, .nak⟩)).failed.length +
      ([⟨0x06, 0x01, 0⟩] : List AwaitEntry).countP (fun e => 1000 < 2000 - e.ts) ≤ 8 ∧
    (failing (List.replicate 8 ⟨0, 0, .nak⟩)).failed.length ≤ 8 ∧
    8 < (failing (List.replicate 8 ⟨0, 0, .nak⟩)).failed.length +
      ([⟨0x06, 0x01, 0⟩] : List AwaitEntry).countP (fun e => 1000 < 2000 - e.ts) := by decide +kernel

/-- V1201 and V1204. -/
theorem witness_TimeoutBoundaryOfSweep :
    (awaiting [⟨0x0A, 0x04, 5⟩]).halted = false ∧ (awaiting [⟨0x0A, 0x04, 5⟩]).awaited = [⟨0x0A, 0x04, 5⟩] ∧
    atCapacity (awaiting [⟨0x0A, 0x04, 5⟩]).cfg.failCap (awaiting [⟨0x0A, 0x04, 5⟩]).failed.length = false ∧
    (1000 : Word) ≠ 0 ∧ (1000 : Word) + 1 ≠ 0 ∧ (0 : Word) + 1 ≠ 0 := by decide +kernel

/-- An Idle state whose next sweep finds no room for the failure. -/
def aboutToHalt : State := { awaiting [⟨0x06, 0x08, 0⟩] with failed := List.replicate 8 ⟨0, 0, .nak⟩ }

/-- V1205, in a TICK and in a host SWEEP. -/
theorem witness_HaltedEngineStops :
    ({ State.reset with halted := true } : State).halted = true ∧
    (∃ t, exec .reset { State.reset with halted := true } = .next t ∧ t.halted = false) ∧
    FramingOk aboutToHalt ∧ aboutToHalt.halted = false ∧ view (·.halted) (exec (.tick 2000) aboutToHalt) = some true ∧
    (Instr.sweep 2000 1000).form = .op .host ∧ view (·.halted) (exec (.sweep 2000 1000) aboutToHalt) = some true := 
  ⟨rfl, ⟨_, rfl, rfl⟩, ⟨by decide, by decide, by decide, by decide, by decide⟩, rfl, by decide +kernel, rfl,
    by decide +kernel⟩

theorem witness_FaultsAreSticky :
    Instr.tick 9 ≠ .reset ∧ ∃ t, exec (.tick 9) { midFrame with halted := true, faultReg := 0b01 } = .next t := ⟨by
    decide, _, rfl⟩

theorem witness_StateIsWrittenByItsOwners :
    isOperation (.push 0x41) = true ∧ Instr.push 0x41 ≠ .reset ∧ ∃ t, exec (.push 0x41) midFrame = .next t ∧ t.wr ≠
    midFrame.wr := ⟨rfl, by decide, _, rfl, by decide +kernel⟩

theorem witness_ResetStateIsSound :
    0 < Config.default.n := by decide +kernel

/-- A state in the middle of a frame is sound. -/
theorem midFrame_sound : Sound midFrame where
  ring := ⟨by decide +kernel, by decide +kernel, by decide +kernel, by decide +kernel, by decide, by decide, by
    decide⟩
  framing := ⟨by decide +kernel, by decide +kernel, by decide +kernel, by decide +kernel, by decide +kernel⟩
  assembler :=
    ⟨fun h => absurd h (by decide), fun _ => ⟨⟨rfl, rfl, rfl, rfl, by decide⟩, rfl, by decide +kernel⟩,
      fun h => absurd h (by decide)⟩
  fault := ⟨by decide +kernel, by decide +kernel, by decide +kernel, by decide +kernel⟩
  tables := ⟨rfl, rfl, by intro k hk; cases hk; decide, by intro k hk; cases hk; decide, rfl, rfl, by decide⟩

theorem midFrame_steps : ∃ t, step midFrame = .next t := next_of_after (by decide +kernel)

/-- A sentence in progress, with its `CR` waiting. -/
def midSentence : State :=
  { fed [0x24, 0x41, 0x0D] with inbox := [tickOp 9], sc := 2, fsm := .sentenceWait, inProgress := true }

theorem witness_StepKeepsRing :
    RingOk midFrame ∧ ∃ t, step midFrame = .next t := ⟨midFrame_sound.ring, midFrame_steps⟩

theorem witness_StepKeepsFraming :
    FramingOk midFrame ∧ ∃ t, step midFrame = .next t := ⟨midFrame_sound.framing, midFrame_steps⟩

theorem witness_StepKeepsSingleFault :
    FaultOk midFrame ∧ ∃ t, step midFrame = .next t := ⟨midFrame_sound.fault, midFrame_steps⟩

theorem witness_StepKeepsTables :
    TablesOk midFrame ∧ ∃ t, step midFrame = .next t := ⟨midFrame_sound.tables, midFrame_steps⟩

theorem witness_StepKeepsRunningChecksum :
    RingOk midFrame ∧ AssemblerOk midFrame ∧ ∃ t, step midFrame = .next t := ⟨midFrame_sound.ring,
    midFrame_sound.assembler, midFrame_steps⟩

theorem witness_StepKeepsTextLengths :
    5 ≤ midFrame.cfg.maxField ∧ TextOk midFrame ∧ ∃ t, step midFrame = .next t := 
  ⟨by decide, ⟨by decide, by decide, by decide, by decide, by decide, by decide, by decide⟩, midFrame_steps⟩

theorem witness_StepKeepsCursorOrder :
    RingOk midSentence ∧ FramingOk midSentence ∧ CursorOrder midSentence ∧ SentenceAnchored midSentence ∧
    midSentence.inbox = tickOp 9 :: [] ∧ decode midSentence.cfg (.op (tickOp 9).port) (tickOp 9).word = .ok (.tick 9)
    ∧
    overruns midSentence (.tick 9) = false ∧ ∃ t, step midSentence = .next t := 
  ⟨⟨by decide +kernel, by decide +kernel, by decide +kernel, by decide +kernel, by decide, by decide, by decide⟩,
    ⟨by decide +kernel, by decide +kernel, by decide +kernel, by decide +kernel, by decide +kernel⟩,
    by simp only [CursorOrder]; decide +kernel,
    by simp only [SentenceAnchored]; decide +kernel, rfl, rfl, rfl,
    next_of_after (by decide +kernel)⟩

theorem witness_GarbageNeverLeavesIdle :
    (∀ o ∈ [tickOp 1, (⟨.producer, [0x01, 0x00]⟩ : PortOp), tickOp 2], isGarbageTraffic .default o) ∧ 0 <
    Config.default.n ∧
    (fed [0x00, 0x0A]).runs .idle ∧ (fed [0x00, 0x0A]).ms = (fed [0x00, 0x0A]).sc ∧ (fed [0x00, 0x0A]).awaited = [] ∧
    (∀ b ∈ (fed [0x00, 0x0A]).unread, leadClass (fed [0x00, 0x0A]).cfg b = .garbage) ∧
    ([10, 11] : List Word).length = (fed [0x00, 0x0A]).avail := by
  refine ⟨?_, by simp only [State.runs]; decide +kernel⟩
  intro o ho
  simp only [List.mem_cons, List.not_mem_nil, or_false] at ho
  rcases ho with rfl | rfl | rfl
  · exact .inl ⟨1, rfl⟩
  · exact .inr ⟨0x00, by decide, rfl⟩
  · exact .inl ⟨2, rfl⟩

/-- Spacings of exactly `T_RX + 1`. -/
theorem witness_ReturnsToIdle :
    Sound midFrame ∧ midFrame.halted = false ∧ ([106, 207, 308, 409, 510, 611] : List Word).length = 6 ∧
    spacedBy midFrame.cfg.tRx midFrame.msgTime [106, 207, 308, 409, 510, 611] := 
  ⟨midFrame_sound, rfl, rfl, by simp only [spacedBy]; decide +kernel⟩

theorem witness_WaitingSentenceRuns :
    (fed [0x24, 0x47, 0x50, 0x47, 0x53, 0x41, 0x2C, 0x41, 0x2C, 0x33, 0x2A, 0x33, 0x30, 0x0D, 0x0A]).runs .idle ∧
    (fed [0x24, 0x47, 0x50, 0x47, 0x53, 0x41, 0x2C, 0x41, 0x2C, 0x33, 0x2A, 0x33, 0x30, 0x0D, 0x0A]).ms = (fed [0x24,
    0x47, 0x50, 0x47, 0x53, 0x41, 0x2C, 0x41, 0x2C, 0x33, 0x2A, 0x33, 0x30, 0x0D, 0x0A]).sc ∧
    (fed [0x24, 0x47, 0x50, 0x47, 0x53, 0x41, 0x2C, 0x41, 0x2C, 0x33, 0x2A, 0x33, 0x30, 0x0D, 0x0A]).awaited = [] ∧
    verify [0x24, 0x47, 0x50, 0x47, 0x53, 0x41, 0x2C, 0x41, 0x2C, 0x33, 0x2A, 0x33, 0x30, 0x0D] = true ∧ throughCR
    [0x24, 0x47, 0x50, 0x47, 0x53, 0x41, 0x2C, 0x41, 0x2C, 0x33, 0x2A, 0x33, 0x30, 0x0D] = [0x24, 0x47, 0x50, 0x47,
    0x53, 0x41, 0x2C, 0x41, 0x2C, 0x33, 0x2A, 0x33, 0x30, 0x0D] ∧
    (fed [0x24, 0x47, 0x50, 0x47, 0x53, 0x41, 0x2C, 0x41, 0x2C, 0x33, 0x2A, 0x33, 0x30, 0x0D, 0x0A]).unread = [0x24,
    0x47, 0x50, 0x47, 0x53, 0x41, 0x2C, 0x41, 0x2C, 0x33, 0x2A, 0x33, 0x30, 0x0D] ++ chLF :: [] := by
  unfold State.runs
  decide +kernel

theorem witness_WaitingBuiltFrameRuns :
    (fed [0xB5, 0x62, 0x06, 0x24, 0x03, 0x00, 0x01, 0x02, 0x03, 0x33, 0x1B]).runs .idle ∧ (fed [0xB5, 0x62, 0x06,
    0x24, 0x03, 0x00, 0x01, 0x02, 0x03, 0x33, 0x1B]).ms = (fed [0xB5, 0x62, 0x06, 0x24, 0x03, 0x00, 0x01, 0x02, 0x03,
    0x33, 0x1B]).sc ∧ (fed [0xB5, 0x62, 0x06, 0x24, 0x03, 0x00, 0x01, 0x02, 0x03, 0x33, 0x1B]).awaited = [] ∧
    (fed [0xB5, 0x62, 0x06, 0x24, 0x03, 0x00, 0x01, 0x02, 0x03, 0x33, 0x1B]).cfg.sync1 ≠ chDollar ∧ Memory.wf (fed
    [0xB5, 0x62, 0x06, 0x24, 0x03, 0x00, 0x01, 0x02, 0x03, 0x33, 0x1B]).asm.payload ∧ ([1, 2, 3] : Bytes).length <
    65536 ∧
    ([1, 2, 3] : Bytes).length ≤ (fed [0xB5, 0x62, 0x06, 0x24, 0x03, 0x00, 0x01, 0x02, 0x03, 0x33,
    0x1B]).cfg.payloadCap ∧
    (fed [0xB5, 0x62, 0x06, 0x24, 0x03, 0x00, 0x01, 0x02, 0x03, 0x33, 0x1B]).unread = buildFrame (fed [0xB5, 0x62,
    0x06, 0x24, 0x03, 0x00, 0x01, 0x02, 0x03, 0x33, 0x1B]).cfg 0x06 0x24 [1, 2, 3] ++ [] := by
  unfold State.runs
  decide +kernel

end Sys2Proof.Tests
end

/-!
## Proofs: what the parts of a step change

SUPPORT. `HostTo` is for the host operations what `TickTo` is for TICK: the rows of what they can do. `FramingFrom` is
what the framing rules write of their own; a TICK is framing rules around at most one sweep, sentence or frame
(`tickTo_keeps`).
-/

namespace Sys2Proof.Machine

variable {s t : State} {now : Word}

/-! ### Host operations -/

/-- What an operation of the host port other than RESET can do: the result, and at most one change. -/
inductive HostTo (s : State) : State → Prop
  | quiet (r : Result) : HostTo s (answer r s)
  | registered (r : Result) (cls id : Byte) (ts : Word) : HostTo s (answer r (registerEntry cls id ts s))
  | resolved (cls id : Byte) : HostTo s (answer .none (resolveKey cls id s))
  | swept (now limit : Word) : HostTo s (answer .none (ledgerSweep now limit s))
  | drained (r : Result) (kept : List FailEntry) (hk : kept.Sublist s.failed) :
    HostTo s (answer r { s with failed := kept })
  | flagged (flags : BitVec 4) : HostTo s (answer .none { s with newFlags := flags })
  | poweredOff : HostTo s (answer .none { s with fix := FixRecord.zero })

theorem hostTo_execSend (cls id : Byte) (expect accept : Bool) (now : Word) (payload : Bytes)
    (h : execSend cls id expect accept now payload s = .next t) : HostTo s t := by
  unfold execSend at h
  split at h <;> cases h
  · exact .quiet _
  · cases expect
    · exact .quiet _
    · exact .registered _ cls id now

/-- A host operation other than RESET, or a word RESERVED on its port, follows the rows. -/
theorem hostTo_of_exec {i : Instr} (hr : i ≠ .reset) (hf : i.form = .op .host ∨ ∃ p o b, i = .reserved p o b)
    (h : exec i s = .next t) : HostTo s t := by
  cases i with
  | push b => simp [Instr.form] at hf
  | tick now => simp [Instr.form] at hf
  | reset => exact absurd rfl hr
  | send cls id expect accept now payload => exact hostTo_execSend cls id expect accept now payload h
  | register cls id ts =>
    cases h
    split
    · exact .quiet _
    · exact .registered _ cls id ts
  | resolve cls id =>
    cases h
    split
    · exact .quiet _
    · exact .resolved cls id
  | sweep now limit =>
    cases h
    split
    · exact .quiet _
    · exact .swept now limit
  | drainFailures => cases h; exact .drained _ [] (List.nil_sublist _)
  | drainFailed cls id => cases h; exact .drained _ _ List.filter_sublist
  | clearFlags mask => cases h; exact .flagged _
  | powerOff => cases h; exact .poweredOff
  | nop | queryAwaited | queryFailed | readFix | readSv | readFlags | readStatus | readVersion | reserved =>
    cases h; exact .quiet _
  | leadSentence | leadBinary | leadOther | gpgga | gpgsa | gpvtg | gpgsv | sentenceOther | ackAck | ackNak | monVer
  | ackOther | monOther | cfgAny | classUnknown => simp [Instr.form] at hf

/-! ### TICK -/

/-- What the framing rules write themselves: the read cursors, the framing registers, the assembler and the errors. -/
structure FramingFrom (s t : State) : Prop where
  frame : t = { s with
    sc := t.sc, ms := t.ms, fsm := t.fsm, inProgress := t.inProgress, msgTime := t.msgTime, asm := t.asm
    errCode := t.errCode, errLast := t.errLast, errCount := t.errCount }

theorem framingFrom_finishHeader (s : State) : FramingFrom s (finishHeader s) := by
  rcases finishHeader_cases s with ⟨-, e⟩ | ⟨-, e⟩ <;> rw [e] <;> exact ⟨rfl⟩

theorem framingFrom_finishPayload (s : State) : FramingFrom s (finishPayload s) := by
  rcases finishPayload_cases s with ⟨-, e⟩ | ⟨-, e⟩ <;> rw [e] <;> exact ⟨rfl⟩

theorem framingFrom_classifyLead (now : Word) (b : Byte) (s : State) : FramingFrom s (classifyLead now b s) := by
  rcases classifyLead_cases now b s with ⟨-, e⟩ | ⟨-, e⟩ | ⟨-, e⟩ <;> rw [e] <;> exact ⟨rfl⟩

theorem framingFrom_consumed (f : Assembler → Byte → Assembler) (bs : Bytes) (now : Word) (s : State) :
    FramingFrom s (consumed f bs now s) := ⟨rfl⟩

/-- What the framing rules leave alone is kept by a TICK when the sweep, every sentence and every frame keep it. -/
theorem tickTo_keeps {P : State → Prop} (hframing : ∀ s t, FramingFrom s t → P s → P t)
    (hsweep : ∀ s now limit, P s → P (ledgerSweep now limit s)) (hspan : ∀ s span, P s → P (processSpan span s))
    (hframe : ∀ s cls id payload, P s → P (dispatchFrame cls id payload s)) (hP : P s)
    (h : TickTo now s t) : P t := by
  cases h with
  | idleHalted | idleEmpty => exact hsweep _ _ _ hP
  | idleByte b => exact hframing _ _ (framingFrom_classifyLead now b _) (hsweep _ _ _ hP)
  | starved => exact hP
  | lineFeed => exact hframing _ _ ⟨rfl⟩ (hspan _ s.span hP)
  | headerDone bs =>
    exact hframing _ _ (framingFrom_finishHeader _) (hframing _ _ (framingFrom_consumed headerByte bs now s) hP)
  | payload bs =>
    exact hframing _ _ (framingFrom_finishPayload _) (hframing _ _ (framingFrom_consumed payloadByte bs now s) hP)
  | dispatch bs =>
    exact hframing _ _ ⟨rfl⟩ (hframe _ _ _ _ (hframing _ _ (framingFrom_consumed checksumByte bs now s) hP))
  | badChecksum bs => exact hframing s _ ⟨rfl⟩ hP
  | timeout | sentence | dropped | noLF | sync2 | badSync | header | payloadEmpty | checksum | error =>
    exact hframing _ _ ⟨rfl⟩ hP

/-! ### The part of the state the intake and the framing rules own -/

/-- The ring with its cursors, the framing state and the assembler stand in `t` as in `s`. -/
structure SameIntake (s t : State) : Prop where
  cfg : t.cfg = s.cfg
  buf : t.buf = s.buf
  wr : t.wr = s.wr
  sc : t.sc = s.sc
  ms : t.ms = s.ms
  fsm : t.fsm = s.fsm
  asm : t.asm = s.asm

theorem SweptFrom.sameIntake (h : SweptFrom s t) : SameIntake s t := by constructor <;> rw [h.frame]

theorem SentenceFrom.sameIntake (h : SentenceFrom s t) : SameIntake s t := by constructor <;> rw [h.frame]

theorem FrameFrom.sameIntake (h : FrameFrom s t) : SameIntake s t := by constructor <;> rw [h.frame]

theorem HostFrom.sameIntake (h : HostFrom s t) : SameIntake s t := by constructor <;> rw [h.frame]

theorem sameIntake_answer (r : Result) (s : State) : SameIntake s (answer r s) := ⟨rfl, rfl, rfl, rfl, rfl, rfl, rfl⟩

theorem sameIntake_inbox (l : List PortOp) (s : State) : SameIntake s { s with inbox := l } :=
  ⟨rfl, rfl, rfl, rfl, rfl, rfl, rfl⟩

end Sys2Proof.Machine

/-!
## Proofs: RESET

The reset table of R45, element by element.
-/

namespace Sys2Proof.Machine

/-- Settles O45: both sides are the reset table, whatever the state before. -/
theorem resetGivesTableValues : Obligations.ResetGivesTableValues := by
  refine ⟨fun c => ?decodes, fun s => ?table⟩
  case decodes => rfl
  case table => rfl

end Sys2Proof.Machine

/-!
## Proofs: the ring

O50: every part of a step keeps the cursors in the ring and the byte arrays canonical and inside their index spaces.
-/

namespace Sys2Proof.Machine

variable {s t : State} {now : Word}

/-- The payload buffer of an assembler is canonical and within its capacity. -/
structure PayloadOk (c : Config) (a : Assembler) : Prop where
  wf : Memory.wf a.payload
  within : Memory.within c.payloadCap a.payload

theorem RingOk.payloadOk (h : RingOk s) : PayloadOk s.cfg s.asm := ⟨h.payload_wf, h.payload_within⟩

/-- The read cursors move inside the ring, and the payload buffer stays good. -/
theorem RingOk.moved (h : RingOk s) (hcfg : t.cfg = s.cfg) (hbuf : t.buf = s.buf) (hwr : t.wr = s.wr)
    (hsc : t.sc < s.cfg.n) (hms : t.ms < s.cfg.n) (hp : PayloadOk s.cfg t.asm) : RingOk t where
  buf_wf := hbuf ▸ h.buf_wf
  buf_within := by rw [hbuf, hcfg]; exact h.buf_within
  payload_wf := hp.wf
  payload_within := hcfg ▸ hp.within
  wr_lt := by rw [hwr, hcfg]; exact h.wr_lt
  sc_lt := hcfg ▸ hsc
  ms_lt := hcfg ▸ hms

theorem RingOk.of_sameIntake (h : RingOk s) (e : SameIntake s t) : RingOk t :=
  h.moved e.cfg e.buf e.wr (e.sc ▸ h.sc_lt) (e.ms ▸ h.ms_lt) (e.asm ▸ h.payloadOk)

/-! ### PUSH and RESET -/

theorem RingOk.pushByte (h : RingOk s) (b : Byte) : RingOk (pushByte b s) :=
  have hnext : nextCell s.cfg.n s.wr < s.cfg.n := nextCell_lt h.wr_lt
  { h with
    buf_wf := Memory.wf_write _ _ _ (Memory.wf_write _ _ _ h.buf_wf)
    buf_within := Memory.within_write (Memory.within_write h.buf_within h.wr_lt) hnext
    wr_lt := hnext }

theorem RingOk.resetState (h : RingOk s) : RingOk (resetState s) :=
  have hpos : 0 < s.cfg.n := Nat.zero_lt_of_lt h.wr_lt
  ⟨Memory.wf_nil, by simp [Machine.resetState, State.resetOf], Memory.wf_nil,
    by simp [Machine.resetState, State.resetOf, Assembler.zero], hpos, hpos, hpos⟩

/-! ### The loops of a TICK -/

theorem RingOk.consumed {f : Assembler → Byte → Assembler} (h : RingOk s) (bs : Bytes) (now : Word)
    (hp : PayloadOk s.cfg (bs.foldl f s.asm)) : RingOk (consumed f bs now s) := by
  have hlt : (s.sc + bs.length) % s.cfg.n < s.cfg.n := Nat.mod_lt _ (Nat.zero_lt_of_lt h.sc_lt)
  refine h.moved rfl rfl rfl hlt ?_ hp
  show (if bs = [] then s.ms else _) < s.cfg.n
  split
  · exact h.ms_lt
  · exact hlt

theorem PayloadOk.of_payload_eq {c : Config} {a a' : Assembler} (h : PayloadOk c a) (e : a'.payload = a.payload) :
    PayloadOk c a' := ⟨e ▸ h.wf, e ▸ h.within⟩

theorem PayloadOk.foldl_headerByte {c : Config} {a : Assembler} (h : PayloadOk c a) (bs : Bytes) :
    PayloadOk c (bs.foldl headerByte a) := h.of_payload_eq (by rw [foldl_headerByte_frame])

theorem PayloadOk.foldl_checksumByte {c : Config} {a : Assembler} (h : PayloadOk c a) (bs : Bytes) :
    PayloadOk c (bs.foldl checksumByte a) := h.of_payload_eq (by rw [Machine.foldl_checksumByte])

theorem PayloadOk.foldl_payloadByte {c : Config} {a : Assembler} (h : PayloadOk c a) (bs : Bytes)
    (hroom : a.payIdx + bs.length ≤ c.payloadCap) : PayloadOk c (bs.foldl payloadByte a) := by
  obtain ⟨-, hwf, hwithin, -⟩ := Machine.foldl_payloadByte bs a h.wf
  exact ⟨hwf, hwithin _ h.within hroom⟩

theorem RingOk.finishHeader (h : RingOk s) : RingOk (finishHeader s) := by
  rcases finishHeader_cases s with ⟨-, e⟩ | ⟨-, e⟩ <;> rw [e] <;> exact { h with }

theorem RingOk.finishPayload (h : RingOk s) : RingOk (finishPayload s) := by
  rcases finishPayload_cases s with ⟨-, e⟩ | ⟨-, e⟩ <;> rw [e] <;> exact { h with }

theorem RingOk.classifyLead (h : RingOk s) (now : Word) (b : Byte) : RingOk (classifyLead now b s) := by
  have hnext : nextCell s.cfg.n s.sc < s.cfg.n := nextCell_lt h.sc_lt
  rcases classifyLead_cases now b s with ⟨-, e⟩ | ⟨-, e⟩ | ⟨-, e⟩ <;> rw [e]
  · exact { h with sc_lt := hnext }
  · exact { h with sc_lt := hnext, ms_lt := hnext }
  · exact { h with sc_lt := hnext, ms_lt := hnext }

/-! ### TICK and the step -/

theorem RingOk.tickTo (h : RingOk s) (ht : TickTo now s t) : RingOk t := by
  have hswept : RingOk (ledgerSweep now s.cfg.tResp s) := h.of_sameIntake (sweptFrom_ledgerSweep ..).sameIntake
  have hnext : nextCell s.cfg.n s.sc < s.cfg.n := nextCell_lt h.sc_lt
  cases ht with
  | idleHalted | idleEmpty => exact hswept
  | idleByte b => exact hswept.classifyLead now b
  | starved => exact h
  | timeout | badSync | payloadEmpty => exact { h with }
  | dropped | noLF | error => exact { h with ms_lt := h.sc_lt }
  | sentence => exact { h with sc_lt := Nat.mod_lt _ (Nat.zero_lt_of_lt h.sc_lt) }
  | lineFeed =>
    have hspan : RingOk (processSpan s.span s) := h.of_sameIntake (sentenceFrom_processSpan _ s).sameIntake
    exact hspan.moved rfl rfl rfl hspan.sc_lt (by rw [(sentenceFrom_processSpan _ s).sameIntake.cfg]; exact h.sc_lt)
      hspan.payloadOk
  | sync2 => exact { h with sc_lt := hnext, ms_lt := hnext }
  | header bs => exact h.consumed bs now (h.payloadOk.foldl_headerByte bs)
  | headerDone bs => exact (h.consumed bs now (h.payloadOk.foldl_headerByte bs)).finishHeader
  | payload bs hf hr hu hb hroom => exact (h.consumed bs now (h.payloadOk.foldl_payloadByte bs hroom)).finishPayload
  | checksum bs => exact h.consumed bs now (h.payloadOk.foldl_checksumByte bs)
  | dispatch bs =>
    have hframe := (h.consumed bs now (h.payloadOk.foldl_checksumByte bs)).of_sameIntake
      (frameFrom_dispatchFrame s.asm.rxClass s.asm.rxId s.rxPayload _).sameIntake
    exact { hframe with }
  | badChecksum bs =>
    have hsum := h.consumed bs now (h.payloadOk.foldl_checksumByte bs)
    exact { hsum with }

/-- Settles O50: `RingOk` is kept by PUSH, by every row of the transition table, by RESET and by the host operations,
which leave the intake alone. -/
theorem stepKeepsRing : Obligations.StepKeepsRing := fun _ _ hP h =>
  step_keeps (P := RingOk)
    (hin := fun s l h => h.of_sameIntake (sameIntake_inbox l s))
    (hans := fun s r h => h.of_sameIntake (sameIntake_answer r s))
    (hpush := fun _ b h _ => h.pushByte b)
    (htick := fun _ _ _ h _ _ ht => h.tickTo ht)
    (hreset := fun _ h => h.resetState)
    (hhost := fun _ _ _ h _ _ _ hh => h.of_sameIntake hh.sameIntake) hP h

end Sys2Proof.Machine

/-!
## Proofs: the order of the cursors

O56. Most rows of the transition table leave `ms = sc` outside a sentence, where both claims are immediate (`Closed`);
what remains is a PUSH, which moves `wr` on, and the rows that begin, continue or time out a sentence.
-/

namespace Sys2Proof.Machine

variable {s t : State} {now : Word}

/-- The two claims of O56 together. -/
structure CursorsOk (s : State) : Prop where
  order : CursorOrder s
  anchored : SentenceAnchored s

theorem CursorsOk.of_sameIntake (h : CursorsOk s) (e : SameIntake s t) : CursorsOk t where
  order := by unfold CursorOrder; rw [e.cfg, e.ms, e.sc, e.wr]; exact h.order
  anchored := by unfold SentenceAnchored; rw [e.cfg, e.ms, e.sc, e.buf, e.fsm]; exact h.anchored

/-! ### No message in the ring -/

/-- Nothing between `ms` and `sc`, and no sentence in progress. -/
structure Closed (s : State) : Prop where
  aligned : s.ms = s.sc
  wait : s.fsm ≠ .sentenceWait
  lfWait : s.fsm ≠ .sentenceLFWait

theorem Closed.cursorsOk (h : Closed s) (hsc : s.sc < s.cfg.n) : CursorsOk s where
  order := by
    have hlt := dist_lt (b := s.wr) hsc
    unfold CursorOrder
    rw [h.aligned, dist_self hsc]
    omega
  anchored hf := (hf.elim h.wait h.lfWait).elim

theorem Closed.of_sameIntake (h : Closed s) (e : SameIntake s t) : Closed t :=
  ⟨by rw [e.ms, e.sc, h.aligned], e.fsm ▸ h.wait, e.fsm ▸ h.lfWait⟩

/-- R169: outside a sentence and `Error` the message is empty. -/
theorem FramingOk.closed (h : FramingOk s) (hf : s.fsm.anchored = true) : Closed s :=
  ⟨h.anchored hf, fun e => by simp [e, Framing.anchored] at hf, fun e => by simp [e, Framing.anchored] at hf⟩

theorem Closed.consumed (h : Closed s) (f : Assembler → Byte → Assembler) (bs : Bytes) (now : Word)
    (hsc : s.sc < s.cfg.n) : Closed (consumed f bs now s) := by
  refine ⟨?_, h.wait, h.lfWait⟩
  show (if bs = [] then s.ms else _) = (s.sc + bs.length) % s.cfg.n
  split
  · rename_i hnil
    rw [h.aligned, hnil, List.length_nil, Nat.add_zero, Nat.mod_eq_of_lt hsc]
  · rfl

theorem Closed.finishHeader (h : Closed s) : Closed (finishHeader s) := by
  rcases finishHeader_cases s with ⟨-, e⟩ | ⟨-, e⟩ <;> rw [e] <;> exact ⟨h.aligned, by simp, by simp⟩

theorem Closed.finishPayload (h : Closed s) : Closed (finishPayload s) := by
  rcases finishPayload_cases s with ⟨-, e⟩ | ⟨-, e⟩ <;> rw [e]
  · exact ⟨h.aligned, by simp, by simp⟩
  · exact h

/-! ### PUSH -/

/-- The message and the unread bytes, end to end, reach from `ms` to `wr`. -/
theorem RingOk.dist_ms_wr (hr : RingOk s) (h : CursorOrder s) :
    dist s.cfg.n s.ms s.wr = dist s.cfg.n s.ms s.sc + dist s.cfg.n s.sc s.wr := by
  have hlt : dist s.cfg.n s.ms s.sc + dist s.cfg.n s.sc s.wr < s.cfg.n := by
    have := hr.ms_lt
    unfold CursorOrder at h
    omega
  rw [← dist_add_right hr.ms_lt hr.sc_lt hlt, add_dist hr.sc_lt hr.wr_lt]

theorem CursorsOk.pushByte (h : CursorsOk s) (hr : RingOk s) (b : Byte) (ho : nextCell s.cfg.n s.wr ≠ s.ms) :
    CursorsOk (pushByte b s) := by
  have hsum := hr.dist_ms_wr h.order
  have hms := dist_next_right hr.ms_lt hr.wr_lt ho
  have hlt := dist_lt (b := nextCell s.cfg.n s.wr) hr.ms_lt
  constructor
  case order =>
    have hunread : dist s.cfg.n s.sc (nextCell s.cfg.n s.wr) ≤ dist s.cfg.n s.sc s.wr + 1 := by
      by_cases hsc : nextCell s.cfg.n s.wr = s.sc
      · rw [hsc, dist_self hr.sc_lt]; omega
      · rw [dist_next_right hr.sc_lt hr.wr_lt hsc]
    show dist s.cfg.n s.ms s.sc + dist s.cfg.n s.sc (nextCell s.cfg.n s.wr) ≤ s.cfg.n - 1
    omega
  case anchored =>
    intro hf
    obtain ⟨hmark, hlen⟩ := h.anchored hf
    have hwr : s.wr ≠ s.ms := fun e => by rw [e, dist_self hr.ms_lt] at hsum; omega
    refine ⟨?_, hlen⟩
    show ((s.buf.write s.wr b).write (nextCell s.cfg.n s.wr) 0).read s.ms = chDollar
    rw [Memory.read_write_other (Memory.wf_write _ _ _ hr.buf_wf) ho, Memory.read_write_other hr.buf_wf hwr, hmark]

/-! ### TICK -/

/-- A lead byte opens a sentence at its `'$'`, or leaves the message empty. -/
theorem Closed.classifyLead (h : Closed s) (hr : RingOk s) (now : Word) {b : Byte} {rest : Bytes}
    (hu : s.unread = b :: rest) : CursorsOk (classifyLead now b s) := by
  have hnext : nextCell s.cfg.n s.sc < s.cfg.n := nextCell_lt hr.sc_lt
  have hne : s.sc ≠ s.wr := fun e => by simp [(State.unread_eq_nil hr.sc_lt hr.wr_lt).mpr e] at hu
  have hstep := dist_next_left hr.sc_lt hr.wr_lt hne
  have hlt := dist_lt (b := s.wr) hr.sc_lt
  rcases classifyLead_cases now b s with ⟨hc, e⟩ | ⟨-, e⟩ | ⟨-, e⟩ <;> rw [e]
  · have hb : b = chDollar := by
      unfold leadClass at hc
      by_contra hb
      rw [if_neg hb] at hc
      split at hc <;> cases hc
    have hone : dist s.cfg.n s.ms (nextCell s.cfg.n s.sc) = 1 := by
      have hmove : nextCell s.cfg.n s.sc ≠ s.sc := fun e => by rw [e] at hstep; omega
      rw [h.aligned, dist_next_right hr.sc_lt hr.sc_lt hmove, dist_self hr.sc_lt]
    constructor
    · show dist s.cfg.n s.ms (nextCell s.cfg.n s.sc) + dist s.cfg.n (nextCell s.cfg.n s.sc) s.wr ≤ s.cfg.n - 1
      omega
    · exact fun _ => ⟨by rw [h.aligned, State.read_sc hr.sc_lt hu, hb], hone.ge⟩
  · exact Closed.cursorsOk ⟨rfl, by simp, by simp⟩ hnext
  · exact Closed.cursorsOk ⟨rfl, h.wait, h.lfWait⟩ hnext

/-- The bytes a sentence consumes pass from the unread ones to the message. -/
theorem CursorsOk.advanced (h : CursorsOk s) (hr : RingOk s) (hf : s.fsm = .sentenceWait) {k : Nat} (hk : k ≤ s.avail)
    (hcfg : t.cfg = s.cfg) (hbuf : t.buf = s.buf) (hwr : t.wr = s.wr) (hms : t.ms = s.ms)
    (hsc : t.sc = (s.sc + k) % s.cfg.n) : CursorsOk t := by
  have horder : dist s.cfg.n s.ms s.sc + dist s.cfg.n s.sc s.wr ≤ s.cfg.n - 1 := h.order
  have hk' : k ≤ dist s.cfg.n s.sc s.wr := hk
  have hms_lt := hr.ms_lt
  have hmsg : dist s.cfg.n s.ms ((s.sc + k) % s.cfg.n) = dist s.cfg.n s.ms s.sc + k :=
    dist_add_right hr.ms_lt hr.sc_lt (by omega)
  have hrest : dist s.cfg.n ((s.sc + k) % s.cfg.n) s.wr = dist s.cfg.n s.sc s.wr - k :=
    dist_add_left hr.sc_lt hr.wr_lt hk'
  obtain ⟨hmark, hlen⟩ := h.anchored (.inl hf)
  constructor
  · unfold CursorOrder
    rw [hcfg, hms, hsc, hwr, hmsg, hrest]
    omega
  · refine fun _ => ⟨by rw [hbuf, hms, hmark], ?_⟩
    rw [hcfg, hms, hsc, hmsg]
    omega

theorem CursorsOk.tickTo (h : CursorsOk s) (hr : RingOk s) (hf : FramingOk s) (ht : TickTo now s t) : CursorsOk t := by
  have hsc : t.sc < t.cfg.n := (hr.tickTo ht).sc_lt
  have hsame := (sweptFrom_ledgerSweep s now s.cfg.tResp).sameIntake
  have hloop (f : Assembler → Byte → Assembler) (bs : Bytes) (ha : s.fsm.anchored = true) :
      Closed (consumed f bs now s) := (hf.closed ha).consumed f bs now hr.sc_lt
  cases ht with
  | idleHalted | idleEmpty => exact h.of_sameIntake hsame
  | idleByte b rest hi hh hu =>
    have hswept : Closed (ledgerSweep now s.cfg.tResp s) := (hf.closed (hi ▸ rfl)).of_sameIntake hsame
    exact hswept.classifyLead (hr.of_sameIntake hsame) now
      ((State.unread_congr hsame.buf hsame.cfg hsame.wr hsame.sc).trans hu)
  | starved => exact h
  | timeout => exact ⟨h.order, by simp [SentenceAnchored]⟩
  | sentence hs =>
    exact h.advanced hr hs ((throughCR_length_le s.unread).trans_eq State.unread_length) rfl rfl rfl rfl rfl
  | lineFeed =>
    exact Closed.cursorsOk ⟨(sentenceFrom_processSpan s.span s).sameIntake.sc.symm, by simp, by simp⟩ hsc
  | dropped | noLF | error | sync2 => exact Closed.cursorsOk ⟨rfl, by simp, by simp⟩ hsc
  | badSync b rest hs => exact Closed.cursorsOk ⟨hf.anchored (hs ▸ rfl), by simp, by simp⟩ hsc
  | payloadEmpty hs => exact Closed.cursorsOk ⟨hf.anchored (hs ▸ rfl), by simp, by simp⟩ hsc
  | header bs hs => exact (hloop _ bs (hs ▸ rfl)).cursorsOk hsc
  | headerDone bs hs => exact (hloop _ bs (hs ▸ rfl)).finishHeader.cursorsOk hsc
  | payload bs hs => exact (hloop _ bs (hs ▸ rfl)).finishPayload.cursorsOk hsc
  | checksum bs hs => exact (hloop _ bs (hs ▸ rfl)).cursorsOk hsc
  | dispatch bs hs =>
    have hframe : Closed (dispatchFrame s.asm.rxClass s.asm.rxId s.rxPayload (consumed checksumByte bs now s)) :=
      (hloop _ bs (hs ▸ rfl)).of_sameIntake (frameFrom_dispatchFrame ..).sameIntake
    exact Closed.cursorsOk ⟨hframe.aligned, by simp, by simp⟩ hsc
  | badChecksum bs hs =>
    have hsum := hloop checksumByte bs (hs ▸ rfl)
    exact Closed.cursorsOk ⟨hsum.aligned, by simp, by simp⟩ hsc

/-! ### The step -/

theorem FramingOk.of_answer (h : FramingOk s) (r : Result) : FramingOk (answer r s) := { h with }

/-- One operation, other than an overrunning PUSH. -/
theorem CursorsOk.operation {i : Instr} (h : CursorsOk s) (hr : RingOk s) (hf : FramingOk s)
    (hi : isOperation i = true) (ho : overruns s i = false) (hx : exec i s = .next t) : CursorsOk t := by
  rcases operation_cases hi hx with ⟨b, rfl, -, rfl⟩ | ⟨now, rfl, hx⟩ | ⟨rfl, rfl⟩ | ⟨-, -, hh⟩
  · exact (h.pushByte hr b (by simpa [overruns, State.overrunsNext] using ho)).of_sameIntake (sameIntake_answer ..)
  · have hans := sameIntake_answer .none s
    rcases exec_tick_to hx with ⟨-, rfl⟩ | ⟨-, -, ht⟩
    · exact h.of_sameIntake hans
    · exact (h.of_sameIntake hans).tickTo (hr.of_sameIntake hans) (hf.of_answer _) ht
  · exact Closed.cursorsOk (s := answer .none (resetState s)) ⟨rfl, Framing.noConfusion, Framing.noConfusion⟩
      hr.resetState.sc_lt
  · exact h.of_sameIntake hh.sameIntake

/-- Settles O56: taking the word from the inbox leaves the intake alone, and its operation keeps `CursorsOk`. -/
theorem stepKeepsCursorOrder : Obligations.StepKeepsCursorOrder := by
  intro s t o rest i hr hf horder hanch hin hd ho hstep
  rcases step_operation hstep with ⟨hnil, -⟩ | ⟨o', rest', i', hin', hd', hi', hx⟩
  · rw [hin] at hnil
    cases hnil
  · obtain ⟨rfl, rfl⟩ := List.cons.inj (hin.symm.trans hin')
    obtain rfl := Except.ok.inj (hd.symm.trans hd')
    have hsame := sameIntake_inbox rest s
    have htaken : CursorsOk { s with inbox := rest } := CursorsOk.of_sameIntake ⟨horder, hanch⟩ hsame
    have hquiet : overruns { s with inbox := rest } i = false := by cases i <;> exact ho
    have hafter := htaken.operation (hr.of_sameIntake hsame) { hf with } hi' hquiet hx
    exact ⟨hafter.order, hafter.anchored⟩

end Sys2Proof.Machine

/-!
## Proofs: what a sentence does to the record and the tables

SUPPORT. `RecordFrom` is what every update of a display string keeps; `processSpan_keeps` says that a sentence is such
updates, the fix tag, the swap and writes to the incoming table, around the indicators and counters.
-/

namespace Sys2Proof.Machine

variable {s t u : State}

/-! ### Decimal texts (R197, R198) -/

theorem digitsValue_append_singleton (ds : Bytes) (d : Byte) :
    digitsValue (ds ++ [d]) = digitsValue ds * 10 + (d.toNat - 0x30) := by simp [digitsValue]

/-- `k` digits are a number below `10 ^ k`. -/
theorem digitsValue_lt (ds : Bytes) (h : ∀ d ∈ ds, isDigit d = true) : digitsValue ds < 10 ^ ds.length := by
  induction ds using List.reverseRecOn with
  | nil => simp [digitsValue]
  | append_singleton ds d ih =>
    have hinit := ih fun b hb => h b (by simp [hb])
    have hd : isDigit d = true := h d (by simp)
    simp only [isDigit, Bool.and_eq_true, decide_eq_true_eq] at hd
    rw [digitsValue_append_singleton, List.length_append, List.length_singleton, pow_succ]
    omega

/-- A fraction scaled to `p` digits has at most `p` of them. -/
theorem fractionValue_lt (p : Nat) (f : Bytes) : fractionValue p f < 10 ^ p := by
  have hpos : 0 < 10 ^ p := by positivity
  cases f with
  | nil => exact hpos
  | cons b rest =>
    rw [fractionValue]
    split
    case isFalse => exact hpos
    case isTrue =>
      have hle : ((rest.takeWhile isDigit).take p).length ≤ p := List.length_take_le _ _
      have hlt := digitsValue_lt ((rest.takeWhile isDigit).take p) fun d hd =>
        List.mem_takeWhile_imp (List.mem_of_mem_take hd)
      calc _ < 10 ^ ((rest.takeWhile isDigit).take p).length * 10 ^ (p - ((rest.takeWhile isDigit).take p).length) :=
            Nat.mul_lt_mul_of_pos_right hlt (by positivity)
        _ = 10 ^ p := by rw [← pow_add, Nat.add_sub_cancel' hle]

theorem parseDec_unsigned (f : Bytes) (p : Nat) : (parseDec f p false).2 = unsignedValue f p := by
  cases f with
  | nil => simp [parseDec, unsignedValue, digitsValue, fractionValue]
  | cons b rest => simp [parseDec]

/-- The integer part of a decimal field has no more digits than the field has bytes. -/
theorem integerPart_lt (f : Bytes) : (parseDec f 4 false).2 / 10000 < 10 ^ f.length := by
  have hfrac : fractionValue 4 (f.dropWhile isDigit) < 10000 := fractionValue_lt 4 _
  have hdigits := digitsValue_lt (f.takeWhile isDigit) fun d hd => List.mem_takeWhile_imp hd
  have hlen : 10 ^ (f.takeWhile isDigit).length ≤ 10 ^ f.length :=
    Nat.pow_le_pow_right (by decide) (List.takeWhile_sublist _).length_le
  rw [parseDec_unsigned, unsignedValue]
  omega

theorem decDigits_length_le (fuel v k : Nat) (acc : Bytes) (h : v < 10 ^ k) :
    (decDigits fuel v acc).length ≤ k + acc.length := by
  induction fuel generalizing v k acc with
  | zero => exact Nat.le_add_left _ _
  | succ fuel ih =>
    rw [decDigits]
    split
    · exact Nat.le_add_left _ _
    · cases k with
      | zero => simp at h; contradiction
      | succ k =>
        have hrest := ih (v / 10) k (BitVec.ofNat 8 (0x30 + v % 10) :: acc) (by rw [pow_succ] at h; omega)
        rw [List.length_cons] at hrest
        omega

/-- `dec` of a number below `10 ^ k` has at most `k` digits. -/
theorem dec_length_le {v k : Nat} (h : v < 10 ^ k) (hk : 1 ≤ k) : (dec v).length ≤ k := by
  unfold dec
  split
  · exact hk
  · exact decDigits_length_le v v k [] h

theorem dec5_length_le {v k : Nat} (h : v < 10 ^ k) (hk : 5 ≤ k) : (dec5 v).length ≤ k := by
  have := dec_length_le h (by omega)
  simp only [dec5, List.length_append, List.length_replicate]
  omega

/-- The degrees lose the last two digits of the integer part (R204). -/
theorem coordDeg_lt {f : Bytes} {m : Nat} (hf : f.length ≤ m + 2) : coordDeg f < 10 ^ m := by
  have hint := integerPart_lt f
  have hle : 10 ^ f.length ≤ 10 ^ (m + 2) := Nat.pow_le_pow_right (by decide) hf
  rw [pow_add] at hle
  unfold coordDeg
  omega

theorem coordM10k_lt (f : Bytes) : coordM10k f < 1000000 := by unfold coordM10k; omega

/-- A sign, the degrees, a point and at most six digits (R205). -/
theorem latlonText_length_le {f : Bytes} {m : Nat} (hf : f.length ≤ m) (hm : 3 ≤ m) (negative : Bool) :
    (latlonText f negative).length ≤ m + 6 := by
  have hsign : (if negative then [chMinus] else []).length ≤ 1 := by cases negative <;> simp
  have hdeg : (dec (coordDeg f)).length ≤ m - 2 := dec_length_le (coordDeg_lt (by omega)) (by omega)
  have hmin : (dec5 (coordM10k f / 6)).length ≤ 6 := dec5_length_le (by have := coordM10k_lt f; omega) (by omega)
  simp only [latlonText, List.length_append, List.length_singleton]
  omega

theorem field_length_le (c : Config) (span : Bytes) (k : Int) : (field c span k).length ≤ c.maxField :=
  List.length_take_le _ _

/-! ### Updates of the record -/

/-- An update of display strings: nothing but the record, not its tag, and every string within its maximum. -/
structure RecordFrom (s t : State) : Prop where
  frame : t = { s with fix := t.fix }
  tag : t.fix.fixQ = s.fix.fixQ
  text : 5 ≤ s.cfg.maxField → TextOk s → TextOk t

theorem RecordFrom.refl (s : State) : RecordFrom s s := ⟨rfl, rfl, fun _ h => h⟩

theorem RecordFrom.cfg (h : RecordFrom s t) : t.cfg = s.cfg := by rw [h.frame]

theorem RecordFrom.trans (h : RecordFrom s t) (h' : RecordFrom t u) : RecordFrom s u :=
  ⟨by rw [h'.frame, h.frame], h'.tag.trans h.tag, fun hm ht => h'.text (h.cfg ▸ hm) (h.text hm ht)⟩

variable {c : Config}

theorem recordFrom_updateLat {lat : Bytes} (ns : Bytes) (hc : s.cfg = c) (hl : lat.length ≤ c.maxField) :
    RecordFrom s (updateLat lat ns s) := by
  unfold updateLat
  split
  · refine ⟨rfl, rfl, fun hm ht => { ht with lat := ?_ }⟩
    simpa using latlonText_length_le (hc ▸ hl) (by omega) _
  · exact .refl s

theorem recordFrom_updateLon {lon : Bytes} (ew : Bytes) (hc : s.cfg = c) (hl : lon.length ≤ c.maxField) :
    RecordFrom s (updateLon lon ew s) := by
  unfold updateLon
  split
  · refine ⟨rfl, rfl, fun hm ht => { ht with lon := ?_ }⟩
    simpa using latlonText_length_le (hc ▸ hl) (by omega) _
  · exact .refl s

theorem recordFrom_updateAlt {alt : Bytes} (hc : s.cfg = c) (hl : alt.length ≤ c.maxField) :
    RecordFrom s (updateAlt alt s) := by
  unfold updateAlt
  split
  · exact .refl s
  · exact ⟨rfl, rfl, fun _ ht => { ht with alt := by simpa [hc] using hl }⟩

theorem recordFrom_updateUsed {used : Bytes} (hc : s.cfg = c) (hl : used.length ≤ c.maxField) :
    RecordFrom s (updateUsed used s) := by
  unfold updateUsed
  split
  · exact .refl s
  · exact ⟨rfl, rfl, fun _ ht => { ht with used := hc ▸ hl }⟩

theorem recordFrom_updateHdg {hdg : Bytes} (hc : s.cfg = c) (hl : hdg.length ≤ c.maxField) :
    RecordFrom s (updateHdg hdg s) := by
  unfold updateHdg
  split
  · exact .refl s
  · exact ⟨rfl, rfl, fun _ ht => { ht with hdg := by simpa [hc] using hl }⟩

theorem recordFrom_updateSpd {spd : Bytes} (hc : s.cfg = c) (hl : spd.length ≤ c.maxField) :
    RecordFrom s (updateSpd spd s) := by
  unfold updateSpd
  split
  · exact .refl s
  · exact ⟨rfl, rfl, fun _ ht => { ht with spd := by simpa [hc] using hl }⟩

theorem recordFrom_updateTracked {tracked : Bytes} (hc : s.cfg = c) (hl : tracked.length ≤ c.maxField) :
    RecordFrom s (updateTracked tracked s) := by
  unfold updateTracked
  split
  · exact .refl s
  · exact ⟨rfl, rfl, fun _ ht => { ht with tracked := hc ▸ hl }⟩

/-! ### A whole sentence -/

/-- What every sentence writes besides the record and the tables: the indicators and the two decoder registers. -/
structure NotedFrom (s t : State) : Prop where
  frame : t = { s with newFlags := t.newFlags, cntOther := t.cntOther, fieldTrunc := t.fieldTrunc }

theorem notedFrom_noteTruncation (span : Bytes) (ks : List Int) (s : State) :
    NotedFrom s (noteTruncation span ks s) := ⟨rfl⟩

theorem notedFrom_raiseFlag (bit : BitVec 4) (s : State) : NotedFrom s (raiseFlag bit s) := ⟨rfl⟩

/-- A property that the kinds of change a sentence makes keep. -/
structure SentenceKeeps (P : State → Prop) : Prop where
  noted : ∀ s t, NotedFrom s t → P s → P t
  record : ∀ s t, RecordFrom s t → P s → P t
  tag : ∀ s mode, P s → P { s with fix := { s.fix with fixQ := fixTag mode } }
  swap : ∀ s, P s → P (swapTables s)
  incoming : ∀ s l, l.length = s.incoming.length → P s → P (setIncoming l s)

variable {P : State → Prop}

theorem SentenceKeeps.processPos (k : SentenceKeeps P) (span : Bytes) (hP : P s) : P (processPos span s) := by
  have hnoted : P (noteTruncation span (posFields s.cfg) s) := k.noted _ _ (notedFrom_noteTruncation ..) hP
  have hlen := field_length_le s.cfg span
  have lat : RecordFrom _ (updateLat _ _ (noteTruncation span (posFields s.cfg) s)) :=
    recordFrom_updateLat (field s.cfg span s.cfg.fNs) (noteTruncation_cfg ..) (hlen s.cfg.fLat)
  have lon := lat.trans (recordFrom_updateLon (field s.cfg span s.cfg.fEw) lat.cfg (hlen s.cfg.fLon))
  have alt := lon.trans (recordFrom_updateAlt lon.cfg (hlen s.cfg.fAlt))
  have used := alt.trans (recordFrom_updateUsed alt.cfg (hlen s.cfg.fNused))
  exact k.noted _ _ (notedFrom_raiseFlag ..) (k.record _ _ used hnoted)

theorem SentenceKeeps.processSpdhdg (k : SentenceKeeps P) (span : Bytes) (hP : P s) : P (processSpdhdg span s) := by
  have hnoted : P (noteTruncation span [0, s.cfg.fHdg, s.cfg.fSpd] s) := k.noted _ _ (notedFrom_noteTruncation ..) hP
  have hlen := field_length_le s.cfg span
  have hdg : RecordFrom _ (updateHdg _ (noteTruncation span [0, s.cfg.fHdg, s.cfg.fSpd] s)) :=
    recordFrom_updateHdg (noteTruncation_cfg ..) (hlen s.cfg.fHdg)
  have spd := hdg.trans (recordFrom_updateSpd hdg.cfg (hlen s.cfg.fSpd))
  exact k.noted _ _ (notedFrom_raiseFlag ..) (k.record _ _ spd hnoted)

theorem SentenceKeeps.writePairs (k : SentenceKeeps P) (span : Bytes) (pos : Nat) (pairs : List Nat) (hP : P s) :
    P (pairs.foldl (writePair span pos) s) := by
  induction pairs generalizing s with
  | nil => exact hP
  | cons pair pairs ih =>
    obtain ⟨heq, hlen, -⟩ := writePair_spec span pos s pair
    exact ih (heq ▸ k.incoming _ _ hlen hP)

@[simp] theorem swapTables_cfg (s : State) : (swapTables s).cfg = s.cfg := by simp [swapTables]

theorem SentenceKeeps.processSats (k : SentenceKeeps P) (span : Bytes) (hP : P s) : P (processSats span s) := by
  unfold Machine.processSats
  dsimp only
  split
  · exact k.noted _ _ (notedFrom_noteTruncation ..) hP
  · have hnoted : P (noteTruncation span (svFields s.cfg) s) := k.noted _ _ (notedFrom_noteTruncation ..) hP
    refine k.noted _ _ (notedFrom_raiseFlag ..) (k.writePairs span _ _ ?_)
    split
    · exact k.record _ _ (recordFrom_updateTracked (by simp) (field_length_le s.cfg span _)) (k.swap _ hnoted)
    · exact k.record _ _ (recordFrom_updateTracked (noteTruncation_cfg ..) (field_length_le s.cfg span _)) hnoted

theorem SentenceKeeps.processSpan (k : SentenceKeeps P) (span : Bytes) (hP : P s) : P (processSpan span s) := by
  unfold Machine.processSpan
  split
  · exact k.processPos span hP
  · exact k.noted _ _ (notedFrom_raiseFlag ..) (k.tag _ _ (k.noted _ _ (notedFrom_noteTruncation ..) hP))
  · exact k.processSpdhdg span hP
  · exact k.processSats span hP
  · exact k.noted s _ ⟨rfl⟩ hP

end Sys2Proof.Machine

/-!
## Proofs: table sizes, queue capacities and the fix tag

O54: the tables change by sentences alone, the version strings by MON-VER, and the queues by the Ledger, which tests its
capacities before it appends.
-/

namespace Sys2Proof.Machine

variable {s t : State}

/-! ### Tables and tag -/

theorem fixTag_ne_both (mode : Bytes) : fixTag mode ≠ FIX_2D ||| FIX_3D := by
  unfold fixTag
  split
  · decide
  · split <;> decide

theorem TablesOk.incoming_length (h : TablesOk s) : s.incoming.length = s.cfg.svCap := by
  unfold State.incoming
  split
  · exact h.sv0
  · exact h.sv1

theorem TablesOk.setIncoming (h : TablesOk s) {l : List SvRecord} (hl : l.length = s.cfg.svCap) :
    TablesOk (setIncoming l s) := by
  unfold Machine.setIncoming
  split
  · exact { h with sv0 := hl }
  · exact { h with sv1 := hl }

theorem TablesOk.swapTables (h : TablesOk s) : TablesOk (swapTables s) :=
  TablesOk.setIncoming (s := { s with curSel := !s.curSel }) { h with } (by simp [clearedTable])

theorem TablesOk.sentenceKeeps : SentenceKeeps TablesOk where
  noted _ _ e h := by rw [e.frame]; exact { h with }
  record _ _ e h := by rw [e.frame]; exact { h with tag := e.tag ▸ h.tag }
  tag _ mode h := { h with tag := fixTag_ne_both mode }
  swap _ h := h.swapTables
  incoming _ _ hl h := h.setIncoming (hl.trans h.incoming_length)

/-! ### Queues -/

/-- Ledger operations that may add to `failed`, within its capacity, and add nothing to `awaited`. -/
theorem TablesOk.swept (h : TablesOk s) (e : SweptFrom s t) (ha : t.awaited.length ≤ s.awaited.length) :
    TablesOk t := by
  have hfailed := e.within h.failed
  have hawaited := withinCap_mono h.awaited ha
  rw [e.frame]
  exact { h with awaited := hawaited, failed := hfailed }

theorem TablesOk.ledgerSweep (h : TablesOk s) (now limit : Word) : TablesOk (ledgerSweep now limit s) :=
  h.swept (sweptFrom_ledgerSweep s now limit) (by rw [ledgerSweep_awaited]; exact List.length_filter_le _ _)

theorem TablesOk.resolveKey (h : TablesOk s) (cls id : Byte) : TablesOk (resolveKey cls id s) :=
  h.swept (sweptFrom_awaited s _) (List.length_filter_le _ _)

theorem TablesOk.failAdd (h : TablesOk s) (cls id : Byte) (r : Reason) : TablesOk (failAdd cls id r s) :=
  h.swept (sweptFrom_failAdd s cls id r) (by rw [failAdd_awaited])

theorem TablesOk.registerEntry (h : TablesOk s) (cls id : Byte) (ts : Word) : TablesOk (registerEntry cls id ts s) := by
  rcases registerEntry_cases s cls id ts with ⟨hroom, e⟩ | ⟨-, e⟩ <;> rw [e]
  · exact { h with awaited := by simpa using withinCap_succ hroom }
  · exact { h with }

/-! ### Frames -/

@[simp] theorem substring_length (payload : Bytes) (off len : Int) : (substring payload off len).length = len.toNat := by
  simp [substring]

theorem TablesOk.ackFrame (h : TablesOk s) (payload : Bytes) : TablesOk (ackFrame payload s) := by
  unfold Machine.ackFrame
  split
  · exact h.resolveKey _ _
  · exact h

theorem TablesOk.nakFrame (h : TablesOk s) (payload : Bytes) : TablesOk (nakFrame payload s) := by
  unfold Machine.nakFrame
  split
  · exact (h.failAdd _ _ _).resolveKey _ _
  · exact h

theorem TablesOk.versionFrame (h : TablesOk s) (payload : Bytes) : TablesOk (versionFrame payload s) := by
  unfold Machine.versionFrame
  refine TablesOk.resolveKey ?_ _ _
  exact { h with sw := substring_length .., hw := substring_length .. }

theorem TablesOk.dispatchFrame (h : TablesOk s) (cls id : Byte) (payload : Bytes) :
    TablesOk (dispatchFrame cls id payload s) := by
  unfold Machine.dispatchFrame
  cases frameKind s.cfg cls id with
  | ackAck => exact h.ackFrame payload
  | ackNak => exact h.nakFrame payload
  | monVer => exact h.versionFrame payload
  | ackOther | monOther | cfgAny => exact h
  | classUnknown => exact { h with }

/-! ### The step -/

theorem TablesOk.of_answer (h : TablesOk s) (r : Result) : TablesOk (answer r s) := { h with }

theorem TablesOk.resetState (s : State) : TablesOk (resetState s) where
  sv0 := List.length_replicate
  sv1 := List.length_replicate
  awaited := fun _ _ => Nat.zero_le _
  failed := fun _ _ => Nat.zero_le _
  sw := List.length_replicate
  hw := List.length_replicate
  tag := by simp [Machine.resetState, State.resetOf, FixRecord.zero, FIX_2D, FIX_3D]

theorem TablesOk.hostTo (h : TablesOk s) (ht : HostTo s t) : TablesOk t := by
  cases ht with
  | quiet | flagged => exact { h with }
  | registered r cls id ts => exact (h.registerEntry cls id ts).of_answer r
  | resolved cls id => exact (h.resolveKey cls id).of_answer _
  | swept now limit => exact (h.ledgerSweep now limit).of_answer _
  | drained r kept hk => exact { h with failed := withinCap_mono h.failed hk.length_le }
  | poweredOff => exact { h with tag := by simp [FixRecord.zero, FIX_2D, FIX_3D] }

/-- Settles O54: `TablesOk` is kept by what a TICK runs besides framing, by RESET and by every host operation. -/
theorem stepKeepsTables : Obligations.StepKeepsTables := fun _ _ hP h =>
  step_keeps (P := TablesOk)
    (hin := fun _ _ h => { h with })
    (hans := fun _ r h => h.of_answer r)
    (hpush := fun _ _ h _ => { h with })
    (htick := fun _ _ _ h _ _ ht => tickTo_keeps (P := TablesOk)
      (hframing := fun _ _ e h => by rw [e.frame]; exact { h with })
      (hsweep := fun _ now limit h => h.ledgerSweep now limit)
      (hspan := fun _ span h => TablesOk.sentenceKeeps.processSpan span h)
      (hframe := fun _ cls id payload h => h.dispatchFrame cls id payload) h ht)
    (hreset := fun s _ => TablesOk.resetState s)
    (hhost := fun _ _ _ h hr hf hx _ => h.hostTo (hostTo_of_exec hr hf hx)) hP h

end Sys2Proof.Machine

/-!
## Proofs: the display strings

O55: only sentences write display strings, POWER_OFF and RESET empty them, and `MAX_FIELD` is a parameter.
-/

namespace Sys2Proof.Machine

variable {s t : State}

/-- The display strings within their maximum lengths, for a `MAX_FIELD` within its constraint (R8). -/
structure TextConfigured (s : State) : Prop where
  maxField : 5 ≤ s.cfg.maxField
  text : TextOk s

/-- Parameters and record stand in `t` as in `s`. -/
structure SameRecord (s t : State) : Prop where
  cfg : t.cfg = s.cfg
  fix : t.fix = s.fix

theorem TextOk.of_sameRecord (h : TextOk s) (e : SameRecord s t) : TextOk t := by
  constructor <;> rw [e.cfg, e.fix]
  exacts [h.lat, h.lon, h.alt, h.spd, h.hdg, h.used, h.tracked]

theorem TextConfigured.of_sameRecord (h : TextConfigured s) (e : SameRecord s t) : TextConfigured t :=
  ⟨e.cfg ▸ h.maxField, h.text.of_sameRecord e⟩

/-- An empty record has empty display strings. -/
theorem textOk_of_zero (h : s.fix = FixRecord.zero) : TextOk s := by
  constructor <;> rw [h] <;> exact Nat.zero_le _

theorem FramingFrom.sameRecord (h : FramingFrom s t) : SameRecord s t := by constructor <;> rw [h.frame]

theorem SweptFrom.sameRecord (h : SweptFrom s t) : SameRecord s t := by constructor <;> rw [h.frame]

theorem FrameFrom.sameRecord (h : FrameFrom s t) : SameRecord s t := by constructor <;> rw [h.frame]

theorem NotedFrom.sameRecord (h : NotedFrom s t) : SameRecord s t := by constructor <;> rw [h.frame]

theorem sameRecord_setIncoming (l : List SvRecord) (s : State) : SameRecord s (setIncoming l s) := by
  constructor <;> rw [setIncoming_frame]

theorem sameRecord_registerEntry (cls id : Byte) (ts : Word) (s : State) :
    SameRecord s (registerEntry cls id ts s) := by
  rcases registerEntry_cases s cls id ts with ⟨-, e⟩ | ⟨-, e⟩ <;> rw [e] <;> exact ⟨rfl, rfl⟩

theorem TextConfigured.sentenceKeeps : SentenceKeeps TextConfigured where
  noted _ _ e h := h.of_sameRecord e.sameRecord
  record _ _ e h := ⟨e.cfg ▸ h.maxField, e.text h.maxField h.text⟩
  tag _ _ h := ⟨h.maxField, { h.text with }⟩
  swap s h := TextConfigured.of_sameRecord (s := { s with curSel := !s.curSel }) ⟨h.maxField, { h.text with }⟩
    (sameRecord_setIncoming _ _)
  incoming s l _ h := h.of_sameRecord (sameRecord_setIncoming l s)

theorem TextConfigured.hostTo (h : TextConfigured s) (ht : HostTo s t) : TextConfigured t := by
  cases ht with
  | quiet | resolved | drained | flagged => exact h.of_sameRecord ⟨rfl, rfl⟩
  | registered r cls id ts =>
    have e := sameRecord_registerEntry cls id ts s
    exact h.of_sameRecord ⟨e.cfg, e.fix⟩
  | swept now limit =>
    have e := (sweptFrom_ledgerSweep s now limit).sameRecord
    exact h.of_sameRecord ⟨e.cfg, e.fix⟩
  | poweredOff => exact ⟨h.maxField, textOk_of_zero rfl⟩

/-- Settles O55: the display strings change by sentences alone, where each update keeps its maximum. -/
theorem stepKeepsTextLengths : Obligations.StepKeepsTextLengths := fun _ _ hm hP h =>
  (step_keeps (P := TextConfigured)
    (hin := fun _ _ h => h.of_sameRecord ⟨rfl, rfl⟩)
    (hans := fun _ _ h => h.of_sameRecord ⟨rfl, rfl⟩)
    (hpush := fun _ _ h _ => h.of_sameRecord ⟨rfl, rfl⟩)
    (htick := fun _ _ _ h _ _ ht => tickTo_keeps (P := TextConfigured)
      (hframing := fun _ _ e h => h.of_sameRecord e.sameRecord)
      (hsweep := fun _ now limit h => h.of_sameRecord (sweptFrom_ledgerSweep _ now limit).sameRecord)
      (hspan := fun _ span h => TextConfigured.sentenceKeeps.processSpan span h)
      (hframe := fun _ cls id payload h => h.of_sameRecord (frameFrom_dispatchFrame cls id payload _).sameRecord) h ht)
    (hreset := fun _ h => ⟨h.maxField, textOk_of_zero rfl⟩)
    (hhost := fun _ _ _ h hr hf hx _ => h.hostTo (hostTo_of_exec hr hf hx)) ⟨hm, hP⟩ h).text

end Sys2Proof.Machine

/-!
## Proofs: what a step runs

The equations of `step` that `step_cases` inverts, one for each thing the inbox can hold (O5).
-/

namespace Sys2Proof.Machine

variable {s : State} {o : PortOp} {rest : List PortOp}

theorem nextOp_of_inbox_nil (h : s.inbox = []) : nextOp s = none := by
  simp only [nextOp, h]

theorem nextOp_of_inbox_cons (h : s.inbox = o :: rest) : nextOp s = some (o, { s with inbox := rest }) := by
  simp only [nextOp, h]

theorem step_of_inbox_nil (h : s.inbox = []) : step s = .next s := by
  simp only [step, nextOp_of_inbox_nil h]

theorem step_of_decode_ok {i : Instr} (h : s.inbox = o :: rest) (hd : decode s.cfg (.op o.port) o.word = .ok i) :
    step s = exec i { s with inbox := rest } := by
  simp only [step, nextOp_of_inbox_cons h, PortOp.decoded, hd]

theorem step_of_decode_error {e : DecodeError} (h : s.inbox = o :: rest)
    (hd : decode s.cfg (.op o.port) o.word = .error e) : step s = .refused .malformedWord := by
  simp only [step, nextOp_of_inbox_cons h, PortOp.decoded, hd]

/-- Settles O5: the three equations of `step`, one for each thing the inbox can hold. -/
theorem stepRunsPresentedOperation : Obligations.StepRunsPresentedOperation :=
  ⟨fun _ _ _ _ h hd => step_of_decode_ok h hd, fun _ h => step_of_inbox_nil h,
    fun _ _ _ _ h hd => step_of_decode_error h hd⟩

end Sys2Proof.Machine

/-!
## Proofs: accesses outside the arrays

O9: the guards of PUSH, of TICK, of the payload loop (R162) and of the dispatch of a frame (R164), each where it fails.
-/

namespace Sys2Proof.Machine

variable {s : State} {now : Word}

/-! ### Cursors that are no cells of the ring -/

theorem exec_push_of_wr_ge (b : Byte) (h : s.cfg.n ≤ s.wr) : exec (.push b) s = .fault .cursorOutOfRange := by
  change execPush b s = _
  unfold execPush
  rw [if_neg (Nat.not_lt.mpr h)]

theorem exec_tick_of_cursor_out (now : Word) (hh : s.halted = false) (hc : s.cursorsInRange = false) :
    exec (.tick now) s = .fault .cursorOutOfRange := by
  change execTick now s = _
  unfold execTick
  rw [if_neg (by simp [hh]), if_neg (by simp [hc])]

/-! ### The payload loop -/

theorem tickState_binPayloadWait (now : Word) (hf : s.fsm = .binPayloadWait) :
    tickState now s = tickBinPayloadWait now s := by
  simp only [tickState, hf]

/-- The loop would store as many bytes as are both owed and unread. -/
theorem tickBinPayloadWait_of_index_out (hr : 0 < s.asm.payRem) (hu : s.unread ≠ [])
    (hcap : s.cfg.payloadCap < s.asm.payIdx + min s.asm.payRem s.avail) :
    tickBinPayloadWait now s = .fault .payloadIndexOutOfRange := by
  have htaken : (s.unread.take s.asm.payRem).length = min s.asm.payRem s.avail := by simp
  unfold tickBinPayloadWait
  rw [if_neg (by omega)]
  cases hbytes : s.unread with
  | nil => exact absurd hbytes hu
  | cons b bs =>
    rw [hbytes] at htaken
    exact if_neg (by omega)

/-! ### The dispatch of a frame -/

theorem tickState_binChecksumWait (now : Word) (hf : s.fsm = .binChecksumWait) :
    tickState now s = tickBinChecksumWait now s := by
  simp only [tickState, hf]

/-- Both checksum bytes in one TICK. -/
theorem tickBinChecksumWait_of_pair {a b : Byte} {rest : Bytes} (hs : s.sc < s.cfg.n) (hcnt : s.asm.ckCnt = 0)
    (hu : s.unread = a :: b :: rest) :
    tickBinChecksumWait now s = finishChecksum (consumed checksumByte [a, b] now s) := by
  have hdone : (consumed checksumByte [a, b] now s).asm.ckCnt = 2 := by simp [consumed, checksumByte, hcnt]
  have hloop := foldl_eq_consumed checksumByte [a, b] now s hs
  unfold tickBinChecksumWait
  simp only [hu, hcnt, Nat.sub_zero, List.take_succ_cons, List.take_zero]
  rw [hloop, if_pos hdone]

/-- Two checksum bytes equal to the running checksum match (R164). -/
theorem consumed_pair_checksumMatches (now : Word) (hcnt : s.asm.ckCnt = 0) :
    (consumed checksumByte [s.asm.ckA, s.asm.ckB] now s).checksumMatches = true := by
  simp [State.checksumMatches, consumed, checksumByte, hcnt]

theorem finishChecksum_of_length_out (hm : s.checksumMatches = true) (hlen : s.cfg.payloadCap < s.asm.rxLen.toNat) :
    finishChecksum s = .fault .payloadIndexOutOfRange := by
  unfold finishChecksum
  rw [if_pos hm, if_neg (by omega)]

/-- Settles O9: each guard, where it fails. -/
theorem accessOutsideArraysStops : Obligations.AccessOutsideArraysStops := by
  refine ⟨fun _ b h => exec_push_of_wr_ge b h, fun _ now hh hc => exec_tick_of_cursor_out now hh hc, ?payload, ?frame⟩
  case payload =>
    intro s now hrun hne hr hcap
    obtain ⟨hh, hc, hf⟩ := hrun
    obtain ⟨hwr, hsc, -⟩ := State.cursorsInRange_iff.mp hc
    have hu : s.unread ≠ [] := fun hnil => hne ((State.unread_eq_nil hsc hwr).mp hnil)
    rw [exec_tick_running now hh hc, tickState_binPayloadWait (s := answer .none s) now hf]
    exact tickBinPayloadWait_of_index_out hr hu hcap
  case frame =>
    intro s now rest hrun hcnt hu hlen
    obtain ⟨hh, hc, hf⟩ := hrun
    obtain ⟨-, hsc, -⟩ := State.cursorsInRange_iff.mp hc
    rw [exec_tick_running now hh hc, tickState_binChecksumWait (s := answer .none s) now hf,
      tickBinChecksumWait_of_pair (s := answer .none s) (a := s.asm.ckA) (b := s.asm.ckB) hsc hcnt hu]
    exact finishChecksum_of_length_out (consumed_pair_checksumMatches (s := answer .none s) now hcnt) hlen

end Sys2Proof.Machine

/-!
## Proofs: words, lead bytes, sentences and frames, read and written

O1, O2 and O3. For each wire format one equivalence says exactly which bytes the decoder accepts and as what: a verified
span and `LF`, or a frame the builder writes. `Kind.instr` and `FrameKind.instr` name the constructor a kind selects.
-/

namespace Sys2Proof.Machine

variable {c : Config} {bs rest : Bytes} {i j : Instr}

/-! ### Lead bytes (R91) -/

theorem decodeLead_eq_ok_iff {now : Word} : decodeLead c now bs = .ok i ↔ ∃ b, bs = [b] ∧ i = leadInstr c now b := by
  constructor
  · intro h
    unfold decodeLead at h
    split at h <;> cases h
    exact ⟨_, rfl, rfl⟩
  · rintro ⟨b, rfl, rfl⟩
    rfl

theorem leadClass_sentence {b : Byte} (h : leadClass c b = .sentence) : b = chDollar := by
  unfold leadClass at h
  split_ifs at h with hb
  exact hb

theorem leadClass_binary {b : Byte} (h : leadClass c b = .binary) : b = c.sync1 := by
  unfold leadClass at h
  split_ifs at h with _ hb
  exact hb

theorem leadInstr_wellFormed (c : Config) (now : Word) (b : Byte) : (leadInstr c now b).wellFormed c = true := by
  unfold leadInstr
  cases hk : leadClass c b with
  | sentence => rfl
  | binary => simpa [Instr.wellFormed, ← leadClass_binary hk] using hk
  | garbage => simpa [Instr.wellFormed] using hk

theorem encode_leadInstr (c : Config) (now : Word) (b : Byte) : encode c (leadInstr c now b) = [b] := by
  unfold leadInstr
  cases hk : leadClass c b with
  | sentence => rw [leadClass_sentence hk]; rfl
  | binary => rw [leadClass_binary hk]; rfl
  | garbage => rfl

/-! ### Sentences (R92, R95) -/

/-- The sentence instruction of a kind (R200). -/
def Kind.instr : Kind → Bytes → Instr
  | .pos => .gpgga
  | .fixq => .gpgsa
  | .spdhdg => .gpvtg
  | .sats => .gpgsv
  | .other => .sentenceOther

theorem sentenceInstr_eq (c : Config) (span : Bytes) : sentenceInstr c span = (kindOf c span).instr span := by
  unfold sentenceInstr
  cases kindOf c span <;> rfl

theorem Kind.instr_wellFormed (k : Kind) (span : Bytes) : (k.instr span).wellFormed c = spanOf c k span := by
  cases k <;> rfl

theorem Kind.encode_instr (k : Kind) (span : Bytes) : encode c (k.instr span) = span ++ [chLF] := by
  cases k <;> rfl

theorem spanOf_iff {k : Kind} {span : Bytes} :
    spanOf c k span = true ↔ verify span = true ∧ throughCR span = span ∧ kindOf c span = k := by
  simp [spanOf, and_assoc]

/-- The decoder accepts a span that `verify` accepts, its only `CR` the last byte, followed by `LF`. -/
theorem decodeSentence_eq_ok_iff : decodeSentence c bs = .ok i ↔
    ∃ span, bs = span ++ [chLF] ∧ verify span = true ∧ throughCR span = span ∧ i = sentenceInstr c span := by
  unfold decodeSentence
  constructor
  · intro h
    split_ifs at h with hend hv
    cases h
    exact ⟨throughCR bs, by rw [← hend, throughCR_append_afterCR], hv, throughCR_throughCR bs, rfl⟩
  · rintro ⟨span, rfl, hv, hspan, rfl⟩
    have hcr := mem_of_verify hv
    have hend : afterCR (span ++ [chLF]) = [chLF] := by
      rw [afterCR_of_mem hcr, ← hspan, afterCR_throughCR, List.nil_append]
    rw [if_pos hend, throughCR_of_mem hcr, hspan, if_pos hv]

/-! ### Frames (R100, R103) -/

/-- The frame instruction of a kind (R243). -/
def FrameKind.instr (cls id : Byte) (payload : Bytes) : FrameKind → Instr
  | .ackAck => .ackAck payload
  | .ackNak => .ackNak payload
  | .monVer => .monVer payload
  | .ackOther => .ackOther id payload
  | .monOther => .monOther id payload
  | .cfgAny => .cfgAny cls id payload
  | .classUnknown => .classUnknown cls id payload

theorem frameInstr_eq (c : Config) (cls id : Byte) (payload : Bytes) :
    frameInstr c cls id payload = (frameKind c cls id).instr cls id payload := by
  unfold frameInstr
  cases frameKind c cls id <;> rfl

/-- The class and identifier a kind fixes (R103): those its instruction does not hold as operands. -/
def FrameKind.Fixes (c : Config) (cls id : Byte) : FrameKind → Prop
  | .ackAck => cls = c.clsAck ∧ id = c.idAckAck
  | .ackNak => cls = c.clsAck ∧ id = c.idAckNak
  | .monVer => cls = c.clsMon ∧ id = c.idMonVer
  | .ackOther => cls = c.clsAck
  | .monOther => cls = c.clsMon
  | .cfgAny => True
  | .classUnknown => True

theorem frameKind_fixes (c : Config) (cls id : Byte) : (frameKind c cls id).Fixes c cls id := by
  unfold frameKind
  split_ifs with hack hid hnak hmon hver
  · exact ⟨hack, hid⟩
  · exact ⟨hack, hnak⟩
  · exact hack
  · exact ⟨hmon, hver⟩
  · exact hmon
  · trivial
  · trivial

/-- What a kind leaves out of its instruction the encoder and the well-formedness put back. -/
theorem FrameKind.instr_spec {cls id : Byte} {k : FrameKind} (payload : Bytes) (h : k.Fixes c cls id) :
    encode c (k.instr cls id payload) = buildFrame c cls id payload ∧
    (k.instr cls id payload).wellFormed c = (payloadFits c payload && frameKind c cls id = k) := by
  cases k with
  | ackAck | ackNak | monVer =>
    obtain ⟨rfl, rfl⟩ := h
    exact ⟨rfl, rfl⟩
  | ackOther | monOther =>
    obtain rfl := h
    exact ⟨rfl, rfl⟩
  | cfgAny | classUnknown => exact ⟨rfl, rfl⟩

theorem payloadFits_iff {payload : Bytes} :
    payloadFits c payload = true ↔ payload.length < 65536 ∧ payload.length ≤ c.payloadCap := by
  simp [payloadFits]

/-- The builder writes any two length bytes that count the payload (R101). -/
theorem frameBody_of_length {cls id l0 l1 : Byte} {payload : Bytes} (h : payload.length = (ofLe16 l0 l1).toNat) :
    frameBody cls id payload = [cls, id, l0, l1] ++ payload := by
  have hlen : le16 (BitVec.ofNat 16 payload.length) = [l0, l1] := by
    rw [h, BitVec.ofNat_toNat, BitVec.setWidth_eq, le16_ofLe16]
  rw [frameBody, hlen]
  rfl

/-- After the header the decoder accepts as many payload bytes as the header declares, and their checksum. -/
theorem decodeFrameRest_eq_ok_iff {cls id l0 l1 : Byte} : decodeFrameRest c cls id l0 l1 rest = .ok i ↔
    ∃ payload, payload.length = (ofLe16 l0 l1).toNat ∧ payload.length ≤ c.payloadCap ∧
      rest = payload ++ [(cksum (frameBody cls id payload)).1, (cksum (frameBody cls id payload)).2] ∧
      i = frameInstr c cls id payload := by
  unfold decodeFrameRest
  constructor
  · intro h
    split_ifs at h with hcap
    split at h
    case h_2 => cases h
    rename_i a b hdrop
    split_ifs at h with hck
    cases h
    have hlen : (rest.take (ofLe16 l0 l1).toNat).length = (ofLe16 l0 l1).toNat := by
      have := congrArg List.length hdrop
      simp only [List.length_drop, List.length_cons, List.length_nil] at this
      rw [List.length_take]
      omega
    refine ⟨rest.take (ofLe16 l0 l1).toNat, hlen, by omega, ?_, rfl⟩
    rw [frameBody_of_length hlen, ← hck, ← hdrop, List.take_append_drop]
  · rintro ⟨payload, hlen, hcap, rfl, rfl⟩
    rw [← hlen, if_neg (by omega), List.drop_left, List.take_left, frameBody_of_length hlen]
    exact if_pos rfl

/-- The decoder accepts what the builder writes for a payload that fits, and nothing else. -/
theorem decodeFrame_eq_ok_iff : decodeFrame c bs = .ok i ↔
    ∃ cls id payload, bs = buildFrame c cls id payload ∧ payloadFits c payload = true ∧
      i = frameInstr c cls id payload := by
  constructor
  · intro h
    unfold decodeFrame at h
    split at h
    case h_2 => cases h
    rename_i s1 s2 cls id l0 l1 rest
    split_ifs at h with hsync
    obtain ⟨rfl, rfl⟩ := hsync
    obtain ⟨payload, hlen, hcap, rfl, rfl⟩ := decodeFrameRest_eq_ok_iff.mp h
    have hfits : payload.length < 65536 := hlen ▸ (ofLe16 l0 l1).isLt
    refine ⟨cls, id, payload, ?_, payloadFits_iff.mpr ⟨hfits, hcap⟩, rfl⟩
    rw [buildFrame, frameBody_of_length hlen]
    rfl
  · rintro ⟨cls, id, payload, rfl, hfits, rfl⟩
    obtain ⟨hlen, hcap⟩ := payloadFits_iff.mp hfits
    change (if c.sync1 = c.sync1 ∧ c.sync2 = c.sync2 then decodeFrameRest c cls id _ _ _ else _) = _
    rw [if_pos ⟨rfl, rfl⟩]
    exact decodeFrameRest_eq_ok_iff.mpr ⟨payload, (ofLe16_length _ hlen).symm, hcap, rfl, rfl⟩

/-! ### Operation words (R110, R111) -/

theorem decodeSend_encoded (cls id : Byte) (expect accept : Bool) (now : Word) {payload : Bytes}
    (h : payload.length < 65536) :
    decodeSend (cls :: id :: (le16 (BitVec.ofNat 16 payload.length) ++ [byteOfBool expect, byteOfBool accept] ++
      le32 now ++ payload)) = .ok (.send cls id expect accept now payload) := by
  rw [le16_eq, le32_eq]
  change (if payload.length = _ then _ else _) = _
  rw [ofLe16_length _ h, if_pos rfl, boolOfByte_byteOfBool, boolOfByte_byteOfBool, ofLe32_le32]
  rfl

theorem decode_reserved {port : Port} {opcode : Byte} {operands : Bytes} (h : opcodePort opcode ≠ some port) :
    decode c (.op port) (opcode :: operands) = .ok (.reserved port opcode operands) :=
  if_neg h

theorem decodeNullary_wellFormed (hi : i.wellFormed c = true) (h : decodeNullary i rest = .ok j) :
    j.wellFormed c = true := by
  unfold decodeNullary at h
  split at h <;> cases h
  exact hi

theorem decodeKey_wellFormed {mk : Byte → Byte → Instr} (hmk : ∀ cls id, (mk cls id).wellFormed c = true)
    (h : decodeKey mk rest = .ok j) : j.wellFormed c = true := by
  unfold decodeKey at h
  split at h <;> cases h
  exact hmk _ _

/-- The declared length is a 16-bit number. -/
theorem decodeSend_wellFormed (h : decodeSend rest = .ok i) : i.wellFormed c = true := by
  unfold decodeSend at h
  split at h
  case h_2 => cases h
  split_ifs at h with hlen
  cases h
  exact decide_eq_true (hlen ▸ (ofLe16 _ _).isLt)

/-- The rows in the order of R110's table, and last the opcodes it leaves out; SEND alone asks something of its operands. -/
theorem decodeOperands_wellFormed {op : Byte} (h : decodeOperands op rest = .ok i) : i.wellFormed c = true := by
  unfold decodeOperands at h
  split at h
  · exact decodeNullary_wellFormed rfl h
  · split at h <;> cases h; rfl
  · split at h <;> cases h; rfl
  · exact decodeSend_wellFormed h
  · split at h <;> cases h; rfl
  · exact decodeKey_wellFormed (fun _ _ => rfl) h
  · split at h <;> cases h; rfl
  · exact decodeNullary_wellFormed rfl h
  · exact decodeKey_wellFormed (fun _ _ => rfl) h
  · exact decodeKey_wellFormed (fun _ _ => rfl) h
  · exact decodeKey_wellFormed (fun _ _ => rfl) h
  · exact decodeNullary_wellFormed rfl h
  · exact decodeNullary_wellFormed rfl h
  · exact decodeNullary_wellFormed rfl h
  · split at h <;> cases h; rfl
  · exact decodeNullary_wellFormed rfl h
  · exact decodeNullary_wellFormed rfl h
  · exact decodeNullary_wellFormed rfl h
  · exact decodeNullary_wellFormed rfl h
  · cases h

theorem decodeOp_wellFormed {port : Port} (h : decodeOp port bs = .ok i) : i.wellFormed c = true := by
  unfold decodeOp at h
  split at h
  · cases h
  · split_ifs at h with hport
    · exact decodeOperands_wellFormed h
    · cases h
      exact decide_eq_true hport

/-! ### The obligations -/

theorem decode_span {k : Kind} {span : Bytes} (h : spanOf c k span = true) :
    decode c .sentence (span ++ [chLF]) = .ok (k.instr span) := by
  obtain ⟨hv, hspan, rfl⟩ := spanOf_iff.mp h
  exact decodeSentence_eq_ok_iff.mpr ⟨span, rfl, hv, hspan, (sentenceInstr_eq ..).symm⟩

theorem decode_frame {k : FrameKind} {cls id : Byte} {payload : Bytes}
    (h : (payloadFits c payload && frameKind c cls id = k) = true) :
    decode c .frame (buildFrame c cls id payload) = .ok (k.instr cls id payload) := by
  obtain ⟨hfits, hk⟩ := Bool.and_eq_true_iff.mp h
  obtain rfl := of_decide_eq_true hk
  exact decodeFrame_eq_ok_iff.mpr ⟨cls, id, payload, rfl, hfits, (frameInstr_eq ..).symm⟩

/-- Settles O2, constructor by constructor. -/
theorem encodedInstructionDecodesBack : Obligations.EncodedInstructionDecodesBack := by
  intro c i h
  cases i with
  | nop | push _ | resolve _ _ | drainFailures | drainFailed _ _ | queryAwaited _ _ | queryFailed _ _ => rfl
  | readFix | readSv | readFlags | readStatus | readVersion | powerOff | reset => rfl
  | tick now => exact congrArg (fun n => Except.ok (Instr.tick n)) (ofLe32_le32 now)
  | send cls id expect accept now payload => exact decodeSend_encoded cls id expect accept now (of_decide_eq_true h)
  | register cls id ts => exact congrArg (fun n => Except.ok (Instr.register cls id n)) (ofLe32_le32 ts)
  | sweep now timeout =>
    exact congrArg₂ (fun n d => Except.ok (Instr.sweep n d)) (ofLe32_le32 now) (ofLe32_le32 timeout)
  | clearFlags mask =>
    exact congrArg (fun m => Except.ok (Instr.clearFlags m)) (BitVec.setWidth_setWidth_of_le mask (by omega))
  | reserved port opcode operands => exact decode_reserved (of_decide_eq_true h)
  | leadSentence now => rfl
  | leadBinary now => exact decodeLead_eq_ok_iff.mpr ⟨c.sync1, rfl, by rw [leadInstr, of_decide_eq_true h]⟩
  | leadOther b => exact decodeLead_eq_ok_iff.mpr ⟨b, rfl, by rw [leadInstr, of_decide_eq_true h]⟩
  | gpgga _ | gpgsa _ | gpvtg _ | gpgsv _ | sentenceOther _ => exact decode_span h
  | ackAck _ | ackNak _ | monVer _ | ackOther _ _ | monOther _ _ | cfgAny _ _ _ | classUnknown _ _ _ =>
    exact decode_frame h

/-- Settles O3, format by format. -/
theorem acceptedBytesAreWellFormed : Obligations.AcceptedBytesAreWellFormed := by
  intro c f bs i h
  cases f with
  | op port => exact ⟨decodeOp_wellFormed h, fun hwire => absurd rfl (hwire port)⟩
  | lead now =>
    obtain ⟨b, rfl, rfl⟩ := decodeLead_eq_ok_iff.mp h
    exact ⟨leadInstr_wellFormed c now b, fun _ => encode_leadInstr c now b⟩
  | sentence =>
    obtain ⟨span, rfl, hv, hspan, rfl⟩ := decodeSentence_eq_ok_iff.mp h
    rw [sentenceInstr_eq]
    exact ⟨(Kind.instr_wellFormed _ span).trans (spanOf_iff.mpr ⟨hv, hspan, rfl⟩), fun _ => Kind.encode_instr _ span⟩
  | frame =>
    obtain ⟨cls, id, payload, rfl, hfits, rfl⟩ := decodeFrame_eq_ok_iff.mp h
    obtain ⟨hbytes, hwf⟩ := FrameKind.instr_spec payload (frameKind_fixes c cls id)
    rw [frameInstr_eq]
    exact ⟨by rw [hwf, hfits, decide_eq_true rfl]; rfl, fun _ => hbytes⟩

/-- Settles O1: each word is what the encoder writes for the instruction. -/
theorem writtenWordsDecode : Obligations.WrittenWordsDecode :=
  have h := encodedInstructionDecodesBack .default
  ⟨h (.tick 111) rfl, h (.send 0x06 0x24 true false 7 [0xAA]) rfl, h (.leadBinary 9) rfl,
    h (.gpgsa [0x24, 0x47, 0x50, 0x47, 0x53, 0x41, 0x2C, 0x41, 0x2C, 0x33, 0x2A, 0x33, 0x30, 0x0D]) rfl,
    h (.ackNak [0x06, 0x01]) rfl⟩

end Sys2Proof.Machine

/-!
## Proofs: the fields of a built sentence

O23: what the walk of R195 reads at the byte that ends a field, and from it the fields of a sentence by induction on them.
-/

namespace Sys2Proof.Machine

variable {d e : Byte} {f s : Bytes}

theorem stopsField_iff (b : Byte) : stopsField b = true ↔ b = chComma ∨ b = chStar ∨ b = chCR := by
  simp [stopsField, or_assoc]

/-! ### One field, its bytes followed by the byte `e` that ends it -/

theorem takeWhile_field (hf : ∀ b ∈ f, stopsField b = false) (he : stopsField e = true) :
    (f ++ e :: s).takeWhile (fun b => !stopsField b) = f := by
  rw [List.takeWhile_append_of_pos (by simpa using hf), List.takeWhile_cons_of_neg (by simp [he]), List.append_nil]

theorem dropWhile_field (hf : ∀ b ∈ f, stopsField b = false) (he : stopsField e = true) :
    (f ++ e :: s).dropWhile (fun b => !stopsField b) = e :: s := by
  rw [List.dropWhile_append_of_pos (by simpa using hf), List.dropWhile_cons_of_neg (by simp [he])]

/-- The next field starts after a comma. -/
theorem fieldStart_succ_of_comma (hf : ∀ b ∈ f, stopsField b = false) (k : Nat) :
    fieldStart (k + 1) (f ++ chComma :: s) = fieldStart k s := by
  rw [fieldStart, dropWhile_field hf (e := chComma) rfl]
  exact if_pos rfl

/-- No field starts after an asterisk. -/
theorem fieldStart_succ_of_star (hf : ∀ b ∈ f, stopsField b = false) (k : Nat) :
    fieldStart (k + 1) (f ++ chStar :: s) = none := by
  rw [fieldStart, dropWhile_field hf (e := chStar) rfl]
  exact if_neg (by decide)

theorem rawField_zero (hf : ∀ b ∈ f, stopsField b = false) (he : stopsField e = true) :
    rawField (d :: (f ++ e :: s)) (0 : Nat) = f :=
  takeWhile_field hf he

theorem rawField_succ_of_comma (hf : ∀ b ∈ f, stopsField b = false) (k : Nat) :
    rawField (d :: (f ++ chComma :: s)) (k + 1 : Nat) = rawField (chComma :: s) k := by
  simp only [rawField, Int.toNat_natCast, List.drop_succ_cons, List.drop_zero, fieldStart_succ_of_comma hf]

theorem rawField_succ_of_star (hf : ∀ b ∈ f, stopsField b = false) (k : Nat) :
    rawField (d :: (f ++ chStar :: s)) (k + 1 : Nat) = [] := by
  simp only [rawField, Int.toNat_natCast, List.drop_succ_cons, List.drop_zero, fieldStart_succ_of_star hf]

/-! ### All fields -/

theorem rawField_sentenceBody {addr : Bytes} {fields : List Bytes} (haddr : ∀ b ∈ addr, stopsField b = false)
    (hfields : ∀ f ∈ fields, ∀ b ∈ f, stopsField b = false) (k : Nat) :
    rawField (d :: (sentenceBody addr fields ++ chStar :: s)) k = (addr :: fields).getD k [] := by
  induction fields generalizing d addr k with
  | nil =>
    rw [sentenceBody, List.flatMap_nil, List.append_nil]
    cases k with
    | zero => exact rawField_zero haddr rfl
    | succ k => exact rawField_succ_of_star haddr k
  | cons f fields ih =>
    obtain ⟨hf, hrest⟩ := List.forall_mem_cons.mp hfields
    have hbody : sentenceBody addr (f :: fields) ++ chStar :: s =
        addr ++ chComma :: (sentenceBody f fields ++ chStar :: s) := by simp [sentenceBody]
    rw [hbody]
    cases k with
    | zero => exact rawField_zero haddr rfl
    | succ k => rw [rawField_succ_of_comma haddr, ih hf hrest, List.getD_cons_succ]

theorem rawField_sentenceSpan {addr : Bytes} {fields : List Bytes} (haddr : ∀ b ∈ addr, stopsField b = false)
    (hfields : ∀ f ∈ fields, ∀ b ∈ f, stopsField b = false) (k : Nat) :
    rawField (sentenceSpan addr fields) k = (addr :: fields).getD k [] := by
  have hspan : sentenceSpan addr fields = chDollar :: (sentenceBody addr fields ++
      chStar :: (hex2 (xorAll (sentenceBody addr fields)) ++ [chCR])) := by simp [sentenceSpan]
  rw [hspan, rawField_sentenceBody haddr hfields]

/-- The walk takes no step for a number below 0, as for 0 (assumption 16). -/
theorem rawField_of_neg {span : Bytes} {k : Int} (h : k < 0) : rawField span k = rawField span 0 := by
  rw [rawField, rawField, Int.toNat_of_nonpos (Int.le_of_lt h), Int.toNat_zero]

theorem fieldTruncated_iff {c : Config} {span : Bytes} {k : Int} :
    fieldTruncated c span k = true ↔ c.maxField < (rawField span k).length :=
  decide_eq_true_iff

/-- Settles O23: `field` and `fieldTruncated` read the raw fields, which are the address and the fields built from. -/
theorem fieldsOfBuiltSentence : Obligations.FieldsOfBuiltSentence := by
  refine ⟨stopsField_iff, fun c addr fields haddr hfields => ?_⟩
  have hraw := rawField_sentenceSpan haddr hfields
  have hzero : rawField (sentenceSpan addr fields) 0 = addr := hraw 0
  have hsucc (k : Nat) : rawField (sentenceSpan addr fields) (k + 1) = fields.getD k [] := hraw (k + 1)
  refine ⟨?_, ?_, fun k => ⟨?_, ?_⟩, fun k hk => ⟨?_, ?_⟩⟩
  · rw [field, hzero]
  · rw [fieldTruncated_iff, hzero]
  · rw [field, hsucc]
  · rw [fieldTruncated_iff, hsucc]
  · rw [field, field, rawField_of_neg hk]
  · rw [fieldTruncated, fieldTruncated, rawField_of_neg hk]

end Sys2Proof.Machine

/-!
## Proofs: the Intake Buffer

O6 and O7: the ring after a PUSH, cell by cell, and where the cell moved into is the oldest one of the message.
-/

namespace Sys2Proof.Machine

variable {s : State}

theorem exec_push (b : Byte) (h : s.wr < s.cfg.n) : exec (.push b) s = .next (answer .none (pushByte b s)) := by
  change execPush b s = _
  unfold execPush
  rw [if_pos h]

/-! ### The cells after a PUSH (R131) -/

theorem pushByte_read_next (b : Byte) (h : Memory.wf s.buf) : (pushByte b s).buf.read (nextCell s.cfg.n s.wr) = 0 :=
  Memory.read_write_same (Memory.wf_write _ _ _ h)

theorem pushByte_read_wr (b : Byte) (h : Memory.wf s.buf) (hne : nextCell s.cfg.n s.wr ≠ s.wr) :
    (pushByte b s).buf.read s.wr = b := by
  rw [pushByte_buf, Memory.read_write_other (Memory.wf_write _ _ _ h) hne, Memory.read_write_same h]

theorem pushByte_read_other (b : Byte) (h : Memory.wf s.buf) {a : Nat} (hwr : a ≠ s.wr)
    (hnext : a ≠ nextCell s.cfg.n s.wr) : (pushByte b s).buf.read a = s.buf.read a := by
  rw [pushByte_buf, Memory.read_write_other (Memory.wf_write _ _ _ h) hnext.symm, Memory.read_write_other h hwr.symm]

/-- Settles O6: the three kinds of cell, the rest of the state being that of `pushByte`. -/
theorem pushStoresByteAndZeroesNext : Obligations.PushStoresByteAndZeroesNext :=
  ⟨fun c b => encodedInstructionDecodesBack c (.push b) rfl, fun _ b hwr hwf =>
    ⟨_, exec_push b hwr, rfl, pushByte_read_next b hwf, pushByte_read_wr b hwf,
      fun _ => pushByte_read_other b hwf⟩⟩

/-! ### An overrun (R134) -/

theorem State.overrunsNext_iff : s.overrunsNext = true ↔ nextCell s.cfg.n s.wr = s.ms := decide_eq_true_iff

theorem State.avail_eq_zero (hs : s.sc < s.cfg.n) (hw : s.wr < s.cfg.n) : s.avail = 0 ↔ s.sc = s.wr :=
  dist_eq_zero hs hw

/-- Settles O7: the cell moved into, which PUSH zeroes, is `ms`. -/
theorem overrunLosesTheOldestByte : Obligations.OverrunLosesTheOldestByte := by
  intro s b hcur hwf hover
  obtain ⟨hwr, hsc, hms⟩ := State.cursorsInRange_iff.mp hcur
  have hnext : nextCell s.cfg.n s.wr = s.ms := State.overrunsNext_iff.mp hover
  refine ⟨answer .none (pushByte b s), exec_push b hwr, hnext, rfl, rfl, ?zeroed, fun halign => ?empty⟩
  case zeroed => exact hnext ▸ pushByte_read_next b hwf
  case empty =>
    have hempty := State.avail_eq_zero (s := answer .none (pushByte b s)) hsc (nextCell_lt hwr)
    exact hempty.mpr (halign.symm.trans hnext.symm)

end Sys2Proof.Machine

/-!
## Proofs: cursors, `in_progress` and ownership along the transition table

O51. A state after a TICK is `Idle`, `Error` or waits for more bytes; `framingOk_idle`, `framingOk_error` and
`framingOk_waiting` say what each of the three asks for.
-/

namespace Sys2Proof.Machine

variable {s t : State} {now : Word}

/-! ### What the framing state asks for, and what it tells -/

theorem framingOk_idle (hf : t.fsm = .idle) (hms : t.ms = t.sc) (hp : t.inProgress = false)
    (ho : t.asm.payOwned = false) : FramingOk t := by
  constructor <;> simp [hf, hms, hp, ho, Framing.owning]

theorem framingOk_error (hf : t.fsm = .error) (hp : t.inProgress = true) (hc : t.errCode ≠ .none) : FramingOk t := by
  constructor <;> simp [hf, hp, hc, Framing.owning, Framing.anchored]

theorem framingOk_waiting (hi : t.fsm ≠ .idle) (he : t.fsm ≠ .error) (hms : t.fsm.anchored = true → t.ms = t.sc)
    (hp : t.inProgress = true) (ho : t.asm.payOwned = t.fsm.owning) : FramingOk t :=
  ⟨hms, ⟨fun _ => hi, fun _ => hp⟩, fun h => ho.trans h, fun h => .inl (ho.symm.trans h), fun h => absurd h he⟩

theorem FramingOk.inProgress_eq (h : FramingOk s) (hi : s.fsm ≠ .idle) : s.inProgress = true := h.progress.mpr hi

theorem FramingOk.payOwned_eq (h : FramingOk s) (he : s.fsm ≠ .error) : s.asm.payOwned = s.fsm.owning := by
  cases ho : s.fsm.owning with
  | true => exact h.owned ho
  | false =>
    by_contra hp
    rcases h.released (Bool.eq_true_of_not_eq_false hp) with hown | herr
    · rw [ho] at hown; cases hown
    · exact he herr

theorem FramingOk.swept (h : FramingOk s) (e : SweptFrom s t) : FramingOk t := by
  rw [e.frame]; exact { h with }

theorem FramingOk.of_hostFrom (h : FramingOk s) (e : HostFrom s t) : FramingOk t := by
  rw [e.frame]; exact { h with }

/-! ### The rows of the table -/

theorem foldl_payOwned {f : Assembler → Byte → Assembler} (hf : ∀ a b, (f a b).payOwned = a.payOwned) (bs : Bytes)
    (a : Assembler) : (bs.foldl f a).payOwned = a.payOwned := by
  induction bs generalizing a with
  | nil => rfl
  | cons b bs ih => rw [List.foldl_cons, ih, hf]

/-- A loop that consumes bytes into the assembler stays in its state. -/
theorem FramingOk.consumed {f : Assembler → Byte → Assembler} (h : FramingOk s) (bs : Bytes) (now : Word)
    (hsc : s.sc < s.cfg.n) (ha : s.fsm.anchored = true) (hf : ∀ a b, (f a b).payOwned = a.payOwned) :
    FramingOk (consumed f bs now s) := by
  have howned : (Machine.consumed f bs now s).asm.payOwned = s.asm.payOwned := foldl_payOwned hf bs s.asm
  constructor
  · exact fun _ => ((h.closed ha).consumed f bs now hsc).aligned
  · exact h.progress
  · exact fun ho => howned.trans (h.owned ho)
  · exact fun hp => h.released (howned.symm.trans hp)
  · exact h.coded

theorem FramingOk.classifyLead (h : FramingOk s) (hi : s.fsm = .idle) (now : Word) (b : Byte) :
    FramingOk (classifyLead now b s) := by
  have howned : s.asm.payOwned = false := (h.payOwned_eq (by simp [hi])).trans (by rw [hi]; rfl)
  rcases classifyLead_cases now b s with ⟨-, e⟩ | ⟨-, e⟩ | ⟨-, e⟩ <;> rw [e]
  · exact framingOk_waiting (by simp) (by simp) (by simp [Framing.anchored]) rfl howned
  · exact framingOk_waiting (by simp) (by simp) (fun _ => rfl) rfl howned
  · exact framingOk_idle hi rfl (by simpa [hi] using h.progress) howned

theorem FramingOk.finishHeader (h : FramingOk s) (hf : s.fsm = .binHeaderWait) : FramingOk (finishHeader s) := by
  have hp := h.inProgress_eq (by simp [hf])
  rcases finishHeader_cases s with ⟨-, e⟩ | ⟨-, e⟩ <;> rw [e]
  · exact framingOk_waiting (by simp) (by simp) (fun _ => h.anchored (by rw [hf]; rfl)) hp rfl
  · exact framingOk_error rfl hp (by simp)

theorem FramingOk.finishPayload (h : FramingOk s) (hf : s.fsm = .binPayloadWait) : FramingOk (finishPayload s) := by
  rcases finishPayload_cases s with ⟨-, e⟩ | ⟨-, e⟩ <;> rw [e]
  · exact framingOk_waiting (by simp) (by simp) (fun _ => h.anchored (by rw [hf]; rfl))
      (h.inProgress_eq (by simp [hf])) (h.owned (by rw [hf]; rfl))
  · exact h

theorem FramingOk.tickTo (h : FramingOk s) (hsc : s.sc < s.cfg.n) (ht : TickTo now s t) : FramingOk t := by
  have hswept : FramingOk (ledgerSweep now s.cfg.tResp s) := h.swept (sweptFrom_ledgerSweep ..)
  cases ht with
  | idleHalted | idleEmpty => exact hswept
  | idleByte b rest hf => exact hswept.classifyLead ((sweptFrom_ledgerSweep ..).sameIntake.fsm.trans hf) now b
  | starved => exact h
  | timeout hi => exact framingOk_error rfl (h.inProgress_eq hi) (by simp)
  | noLF b rest hf => exact framingOk_error rfl (h.inProgress_eq (by simp [hf])) (by simp)
  | badSync b rest hf => exact framingOk_error rfl (h.inProgress_eq (by simp [hf])) (by simp)
  | badChecksum bs hf => exact framingOk_error rfl (h.inProgress_eq (by simp [hf])) (by simp [raiseError])
  | sentence hf =>
    have hp := h.inProgress_eq (by simp [hf])
    have howned := (h.payOwned_eq (by simp [hf])).trans (by rw [hf])
    by_cases hcr : chCR ∈ s.unread <;>
      exact framingOk_waiting (by simp [hcr]) (by simp [hcr]) (by simp [hcr, Framing.anchored]) hp
        (by simpa [hcr, Framing.owning] using howned)
  | lineFeed rest hf =>
    have hsame := (sentenceFrom_processSpan s.span s).sameIntake
    exact framingOk_idle rfl hsame.sc.symm rfl (by rw [hsame.asm, h.payOwned_eq (by simp [hf]), hf]; rfl)
  | dropped rest hf => exact framingOk_idle rfl rfl rfl ((h.payOwned_eq (by simp [hf])).trans (by rw [hf]; rfl))
  | sync2 rest hf =>
    exact framingOk_waiting (by simp) (by simp) (fun _ => rfl) (h.inProgress_eq (by simp [hf]))
      ((h.payOwned_eq (by simp [hf])).trans (by rw [hf]; rfl))
  | header bs hf => exact h.consumed bs now hsc (by rw [hf]; rfl) fun _ _ => rfl
  | headerDone bs hf =>
    have hloop : FramingOk (Machine.consumed headerByte bs now s) :=
      h.consumed bs now hsc (by rw [hf]; rfl) fun _ _ => rfl
    exact hloop.finishHeader hf
  | payloadEmpty hf =>
    exact framingOk_waiting (by simp) (by simp) (fun _ => h.anchored (by rw [hf]; rfl)) (h.inProgress_eq (by simp [hf]))
      (h.owned (by rw [hf]; rfl))
  | payload bs hf =>
    have hloop : FramingOk (Machine.consumed payloadByte bs now s) :=
      h.consumed bs now hsc (by rw [hf]; rfl) fun _ _ => rfl
    exact hloop.finishPayload hf
  | checksum bs hf => exact h.consumed bs now hsc (by rw [hf]; rfl) fun _ _ => rfl
  | dispatch bs hf =>
    have hloop : Closed (Machine.consumed checksumByte bs now s) :=
      (h.closed (by rw [hf]; rfl)).consumed checksumByte bs now hsc
    have hframe := hloop.of_sameIntake
      (frameFrom_dispatchFrame s.asm.rxClass s.asm.rxId s.rxPayload _).sameIntake
    exact framingOk_idle rfl hframe.aligned rfl rfl
  | error => exact framingOk_idle rfl rfl rfl rfl

/-- Settles O51: a TICK keeps `FramingOk` row by row; RESET ends in `Idle`; nothing else touches its fields. -/
theorem stepKeepsFraming : Obligations.StepKeepsFraming := fun _ _ hP h =>
  step_keeps (P := FramingOk)
    (hin := fun _ _ h => { h with })
    (hans := fun _ r h => h.of_answer r)
    (hpush := fun _ _ h _ => { h with })
    (htick := fun _ _ _ h _ hc ht => h.tickTo (State.cursorsInRange_iff.mp hc).2.1 ht)
    (hreset := fun _ _ => framingOk_idle rfl rfl rfl rfl)
    (hhost := fun _ _ _ h _ _ _ hh => h.of_hostFrom hh) hP h

end Sys2Proof.Machine

/-!
## Proofs: the running checksum along the transition table

O52. `AssemblerOk` asks something of three framing states; `assemblerOk_of_header`, `assemblerOk_of_payload` and
`assemblerOk_of_checksum` take one each, and `assemblerOk_of_quiet` the other five.
-/

namespace Sys2Proof.Machine

variable {s t : State} {now : Word}

/-! ### Stretches of the payload -/

theorem Memory.slice_add (m : Memory) (start a b : Nat) :
    m.slice start (a + b) = m.slice start a ++ m.slice (start + a) b := by
  simp [Memory.slice, List.range_add, Function.comp_def, Nat.add_assoc]

theorem Memory.slice_congr {m m' : Memory} {start len : Nat}
    (h : ∀ k < len, m.read (start + k) = m'.read (start + k)) : m.slice start len = m'.slice start len :=
  List.map_congr_left fun k hk => h k (List.mem_range.mp hk)

/-- Bytes that are read one by one are the stretch. -/
theorem Memory.slice_eq_of_read {m : Memory} {start : Nat} {bs : Bytes}
    (h : ∀ k < bs.length, m.read (start + k) = bs.getD k 0) : m.slice start bs.length = bs := by
  refine List.ext_getElem (by simp [Memory.slice]) fun k hk hk' => ?_
  simp [Memory.slice, h k hk', hk']

/-! ### What the framing state asks of the assembler -/

theorem assemblerOk_of_quiet (hh : t.fsm ≠ .binHeaderWait) (hp : t.fsm ≠ .binPayloadWait)
    (hc : t.fsm ≠ .binChecksumWait) : AssemblerOk t :=
  ⟨fun h => absurd h hh, fun h => absurd h hp, fun h => absurd h hc⟩

theorem assemblerOk_of_header (hf : t.fsm = .binHeaderWait) (hcnt : t.asm.hdrCnt < 4)
    (hck : t.asm.ck = cksum (t.asm.hdr.toList.take t.asm.hdrCnt)) : AssemblerOk t :=
  ⟨fun _ => ⟨hcnt, hck⟩, by simp [hf], by simp [hf]⟩

theorem assemblerOk_of_payload (hf : t.fsm = .binPayloadWait) (hh : HeaderHeld t)
    (hlen : t.asm.payIdx + t.asm.payRem = t.asm.rxLen.toNat) (hck : t.asm.ck = cksum (t.covered t.asm.payIdx)) :
    AssemblerOk t :=
  ⟨by simp [hf], fun _ => ⟨hh, hlen, hck⟩, by simp [hf]⟩

theorem assemblerOk_of_checksum (hf : t.fsm = .binChecksumWait) (hh : HeaderHeld t) (hcnt : t.asm.ckCnt < 2)
    (hck : t.asm.ck = cksum (t.covered t.asm.rxLen.toNat)) : AssemblerOk t :=
  ⟨by simp [hf], by simp [hf], fun _ => ⟨hh, hcnt, hck⟩⟩

/-- `AssemblerOk` reads the parameters, the framing state and the assembler. -/
theorem AssemblerOk.of_sameAssembler (h : AssemblerOk s) (hcfg : t.cfg = s.cfg) (hfsm : t.fsm = s.fsm)
    (hasm : t.asm = s.asm) : AssemblerOk t := by
  have hheld (hh : HeaderHeld s) : HeaderHeld t := by
    constructor <;> rw [hasm]
    exacts [hh.count, hh.cls, hh.id, hh.len, hcfg ▸ hh.fits]
  have hcov (k : Nat) : t.covered k = s.covered k := by unfold State.covered; rw [hasm]
  refine ⟨fun hf => ?header, fun hf => ?payload, fun hf => ?checksum⟩
  case header => rw [hasm]; exact h.header (hfsm ▸ hf)
  case payload =>
    obtain ⟨hh, hlen, hck⟩ := h.payload (hfsm ▸ hf)
    rw [hcov, hasm]
    exact ⟨hheld hh, hlen, hck⟩
  case checksum =>
    obtain ⟨hh, hcnt, hck⟩ := h.checksum (hfsm ▸ hf)
    rw [hcov, hasm]
    exact ⟨hheld hh, hcnt, hck⟩

theorem AssemblerOk.of_sameIntake (h : AssemblerOk s) (e : SameIntake s t) : AssemblerOk t :=
  h.of_sameAssembler e.cfg e.fsm e.asm

/-- `HeaderHeld` reads the header and the four registers filled from it. -/
theorem HeaderHeld.of_sameHeader (h : HeaderHeld s) (hcfg : t.cfg = s.cfg) (hhdr : t.asm.hdr = s.asm.hdr)
    (hcnt : t.asm.hdrCnt = s.asm.hdrCnt) (hcls : t.asm.rxClass = s.asm.rxClass) (hid : t.asm.rxId = s.asm.rxId)
    (hlen : t.asm.rxLen = s.asm.rxLen) : HeaderHeld t where
  count := hcnt.trans h.count
  cls := by rw [hcls, hhdr, h.cls]
  id := by rw [hid, hhdr, h.id]
  len := by rw [hlen, hhdr, h.len]
  fits := by rw [hlen, hcfg]; exact h.fits

/-! ### The header (R160) -/

theorem foldl_headerByte_hdrCnt (bs : Bytes) (a : Assembler) :
    (bs.foldl headerByte a).hdrCnt = a.hdrCnt + bs.length := by rw [foldl_headerByte_frame]

/-- The header loop sums what it stores. -/
theorem headerLoop_ck (bs : Bytes) (a : Assembler) (hroom : a.hdrCnt + bs.length ≤ 4)
    (hck : a.ck = cksum (a.hdr.toList.take a.hdrCnt)) :
    (bs.foldl headerByte a).ck = cksum ((bs.foldl headerByte a).hdr.toList.take (bs.foldl headerByte a).hdrCnt) := by
  rw [foldl_headerByte_ck, foldl_headerByte_hdrCnt, foldl_headerByte_hdr bs a hroom, cksum_append, hck]

theorem length_take_unread_le (k : Nat) : (s.unread.take k).length ≤ k := by simp

/-- A complete header is kept with an empty payload, or refused. -/
theorem assemblerOk_finishHeader (hcnt : s.asm.hdrCnt = 4) (hck : s.asm.ck = cksum s.asm.hdr.toList) :
    AssemblerOk (finishHeader s) := by
  rcases finishHeader_cases s with ⟨hfits, e⟩ | ⟨-, e⟩ <;> rw [e]
  · exact assemblerOk_of_payload rfl ⟨hcnt, rfl, rfl, rfl, hfits⟩ (Nat.zero_add _)
      (hck.trans (congrArg cksum (List.append_nil _).symm))
  · exact assemblerOk_of_quiet (by simp) (by simp) (by simp)

/-! ### The payload (R162) -/

/-- Some bytes of the payload have been received, and the length says how many are to come. -/
structure PayloadHeld (s : State) : Prop where
  held : HeaderHeld s
  counts : s.asm.payIdx + s.asm.payRem = s.asm.rxLen.toNat
  summed : s.asm.ck = cksum (s.covered s.asm.payIdx)

theorem AssemblerOk.payloadHeld (h : AssemblerOk s) (hf : s.fsm = .binPayloadWait) : PayloadHeld s :=
  have ⟨held, counts, summed⟩ := h.payload hf
  ⟨held, counts, summed⟩

/-- What the running checksum covers grows by the bytes the payload loop stores. -/
theorem PayloadHeld.consumed (h : PayloadHeld s) (hw : Memory.wf s.asm.payload) {bs : Bytes}
    (hroom : bs.length ≤ s.asm.payRem) (now : Word) : PayloadHeld (consumed payloadByte bs now s) := by
  obtain ⟨hframe, -, -, hread⟩ := foldl_payloadByte bs s.asm hw
  have hasm : (Machine.consumed payloadByte bs now s).asm = bs.foldl payloadByte s.asm := rfl
  have hold : (bs.foldl payloadByte s.asm).payload.slice 0 s.asm.payIdx = s.asm.payload.slice 0 s.asm.payIdx :=
    Memory.slice_congr fun k hk => by rw [hread, if_neg (by omega)]
  have hnew : (bs.foldl payloadByte s.asm).payload.slice (0 + s.asm.payIdx) bs.length = bs :=
    Memory.slice_eq_of_read fun k hk => by
      rw [hread, if_pos (by omega), Nat.zero_add, Nat.add_sub_cancel_left]
  constructor
  case held => apply h.held.of_sameHeader (t := Machine.consumed payloadByte bs now s) rfl <;> rw [hasm, hframe]
  case counts =>
    rw [hasm, hframe]
    have := h.counts
    show s.asm.payIdx + bs.length + (s.asm.payRem - bs.length) = s.asm.rxLen.toNat
    omega
  case summed =>
    have hidx : (bs.foldl payloadByte s.asm).payIdx = s.asm.payIdx + bs.length := by rw [hframe]
    have hhdr : (bs.foldl payloadByte s.asm).hdr = s.asm.hdr := by rw [hframe]
    rw [hasm, foldl_payloadByte_ck, State.covered, hasm, hidx, hhdr, Memory.slice_add, hold, hnew,
      ← List.append_assoc, cksum_append, h.summed, State.covered]

theorem PayloadHeld.finishPayload (h : PayloadHeld s) (hf : s.fsm = .binPayloadWait) :
    AssemblerOk (finishPayload s) := by
  rcases finishPayload_cases s with ⟨hr, e⟩ | ⟨-, e⟩ <;> rw [e]
  · have hidx : s.asm.payIdx = s.asm.rxLen.toNat := by rw [← h.counts, hr, Nat.add_zero]
    exact assemblerOk_of_checksum rfl { h.held with } (Nat.zero_lt_succ 1) (hidx ▸ h.summed)
  · exact assemblerOk_of_payload hf h.held h.counts h.summed

/-! ### The checksum bytes (R164) -/

/-- The checksum loop leaves alone what has been received and summed. -/
theorem AssemblerOk.consumed_checksum (h : AssemblerOk s) (hf : s.fsm = .binChecksumWait) (bs : Bytes) (now : Word)
    (hcnt : s.asm.ckCnt + bs.length < 2) : AssemblerOk (consumed checksumByte bs now s) := by
  obtain ⟨hheld, -, hck⟩ := h.checksum hf
  have hframe := foldl_checksumByte bs s.asm
  have hasm : (consumed checksumByte bs now s).asm = bs.foldl checksumByte s.asm := rfl
  refine assemblerOk_of_checksum hf ?held ?count ?summed
  case held => apply hheld.of_sameHeader (t := consumed checksumByte bs now s) rfl <;> rw [hasm, hframe]
  case count => rw [hasm, hframe]; exact hcnt
  case summed => rw [State.covered, hasm, hframe]; exact hck

/-! ### TICK and the step -/

theorem AssemblerOk.tickTo (h : AssemblerOk s) (hr : RingOk s) (ht : TickTo now s t) : AssemblerOk t := by
  have hswept := (sweptFrom_ledgerSweep s now s.cfg.tResp).sameIntake
  cases ht with
  | idleHalted | idleEmpty => exact h.of_sameIntake hswept
  | idleByte b rest hf =>
    have hidle := hswept.fsm.trans hf
    rcases classifyLead_cases now b (ledgerSweep now s.cfg.tResp s) with ⟨-, e⟩ | ⟨-, e⟩ | ⟨-, e⟩ <;> rw [e]
    · exact assemblerOk_of_quiet (by simp) (by simp) (by simp)
    · exact assemblerOk_of_quiet (by simp) (by simp) (by simp)
    · exact assemblerOk_of_quiet (by simp [hidle]) (by simp [hidle]) (by simp [hidle])
  | starved => exact h
  | timeout | lineFeed | dropped | noLF | badSync | dispatch | badChecksum | error =>
    exact assemblerOk_of_quiet Framing.noConfusion Framing.noConfusion Framing.noConfusion
  | sentence =>
    by_cases hcr : chCR ∈ s.unread <;> exact assemblerOk_of_quiet (by simp [hcr]) (by simp [hcr]) (by simp [hcr])
  | sync2 => exact assemblerOk_of_header rfl (Nat.zero_lt_succ 3) rfl
  | header bs hf hu hb hc =>
    obtain ⟨hcnt, hck⟩ := h.header hf
    have hroom : s.asm.hdrCnt + bs.length ≤ 4 := by
      have : bs.length ≤ 4 - s.asm.hdrCnt := hb ▸ length_take_unread_le _
      omega
    have hlt : (bs.foldl headerByte s.asm).hdrCnt < 4 := by
      rw [foldl_headerByte_hdrCnt] at hc ⊢
      omega
    exact assemblerOk_of_header hf hlt (headerLoop_ck bs s.asm hroom hck)
  | headerDone bs hf hu hb hc =>
    obtain ⟨-, hck⟩ := h.header hf
    have hsum := headerLoop_ck bs s.asm (by rw [← foldl_headerByte_hdrCnt, hc]) hck
    rw [hc, List.take_of_length_le (by simp)] at hsum
    exact assemblerOk_finishHeader (s := consumed headerByte bs now s) hc hsum
  | payloadEmpty hf hrem =>
    have hdone := (h.payloadHeld hf).finishPayload hf
    rwa [finishPayload, if_pos hrem] at hdone
  | payload bs hf hrem hu hb hroom =>
    exact ((h.payloadHeld hf).consumed hr.payload_wf (hb ▸ length_take_unread_le _) now).finishPayload hf
  | checksum bs hf hu hb hc =>
    obtain ⟨-, hcnt, -⟩ := h.checksum hf
    have hlen : bs.length ≤ 2 - s.asm.ckCnt := hb ▸ length_take_unread_le _
    rw [foldl_checksumByte] at hc
    exact h.consumed_checksum hf bs now (by simp only at hc; omega)

/-- Settles O52: the assembler changes by the rows of the transition table and by RESET alone. -/
theorem stepKeepsRunningChecksum : Obligations.StepKeepsRunningChecksum := fun _ _ hr hP h =>
  (step_keeps (P := fun s => RingOk s ∧ AssemblerOk s)
    (hin := fun s l ⟨hr, h⟩ =>
      ⟨hr.of_sameIntake (sameIntake_inbox l s), h.of_sameIntake (sameIntake_inbox l s)⟩)
    (hans := fun s r ⟨hr, h⟩ =>
      ⟨hr.of_sameIntake (sameIntake_answer r s), h.of_sameIntake (sameIntake_answer r s)⟩)
    (hpush := fun _ b ⟨hr, h⟩ _ => ⟨hr.pushByte b, h.of_sameAssembler rfl rfl rfl⟩)
    (htick := fun _ _ _ ⟨hr, h⟩ _ _ ht => ⟨hr.tickTo ht, h.tickTo hr ht⟩)
    (hreset := fun _ ⟨hr, _⟩ =>
      ⟨hr.resetState, assemblerOk_of_quiet Framing.noConfusion Framing.noConfusion Framing.noConfusion⟩)
    (hhost := fun _ _ _ ⟨hr, h⟩ _ _ _ hh => ⟨hr.of_sameIntake hh.sameIntake, h.of_sameIntake hh.sameIntake⟩)
    ⟨hr, hP⟩ h).2

end Sys2Proof.Machine

/-!
## Proofs: the rule a TICK runs, forwards

SUPPORT. `TickTo` inverts a TICK; these are the equations in the other direction. `exec_tick_<state>` names the rule
that runs, the lemmas after them say what the rule does with the unread bytes.
-/

namespace Sys2Proof.Machine

variable {s : State} {now : Word} {b : Byte} {rest : Bytes}

/-! ### Which rule runs -/

@[simp] theorem answer_unread (r : Result) (s : State) : (answer r s).unread = s.unread := rfl

@[simp] theorem answer_span (r : Result) (s : State) : (answer r s).span = s.span := rfl

section

variable {st : Framing} (h : s.runs st)

include h

theorem State.runs.running : s.halted = false := h.1

theorem State.runs.cursors : s.cursorsInRange = true := h.2.1

theorem State.runs.fsm_eq : s.fsm = st := h.2.2

theorem State.runs.wr_lt : s.wr < s.cfg.n := (State.cursorsInRange_iff.mp h.cursors).1

theorem State.runs.sc_lt : s.sc < s.cfg.n := (State.cursorsInRange_iff.mp h.cursors).2.1

theorem State.runs.ms_lt : s.ms < s.cfg.n := (State.cursorsInRange_iff.mp h.cursors).2.2

theorem State.runs.unread_ne_nil (hne : s.sc ≠ s.wr) : s.unread ≠ [] := fun hnil =>
  hne ((State.unread_eq_nil h.sc_lt h.wr_lt).mp hnil)

theorem exec_tick_runs (now : Word) : exec (.tick now) s = tickState now (answer .none s) :=
  exec_tick_running now h.running h.cursors

end

theorem exec_tick_idle (now : Word) (h : s.runs .idle) :
    exec (.tick now) s = .next (tickIdle now (answer .none s)) := by
  rw [exec_tick_runs h now, tickState, answer_fsm, h.fsm_eq]

theorem exec_tick_sentenceWait (now : Word) (h : s.runs .sentenceWait) :
    exec (.tick now) s = .next (tickSentenceWait now (answer .none s)) := by
  rw [exec_tick_runs h now, tickState, answer_fsm, h.fsm_eq]

theorem exec_tick_sentenceLFWait (now : Word) (h : s.runs .sentenceLFWait) :
    exec (.tick now) s = .next (tickSentenceLFWait now (answer .none s)) := by
  rw [exec_tick_runs h now, tickState, answer_fsm, h.fsm_eq]

theorem exec_tick_binSyncWait (now : Word) (h : s.runs .binSyncWait) :
    exec (.tick now) s = .next (tickBinSyncWait now (answer .none s)) := by
  rw [exec_tick_runs h now, tickState, answer_fsm, h.fsm_eq]

theorem exec_tick_binHeaderWait (now : Word) (h : s.runs .binHeaderWait) :
    exec (.tick now) s = .next (tickBinHeaderWait now (answer .none s)) := by
  rw [exec_tick_runs h now, tickState, answer_fsm, h.fsm_eq]

theorem exec_tick_binPayloadWait (now : Word) (h : s.runs .binPayloadWait) :
    exec (.tick now) s = tickBinPayloadWait now (answer .none s) := by
  rw [exec_tick_runs h now, tickState, answer_fsm, h.fsm_eq]

theorem exec_tick_binChecksumWait (now : Word) (h : s.runs .binChecksumWait) :
    exec (.tick now) s = tickBinChecksumWait now (answer .none s) := by
  rw [exec_tick_runs h now, tickState, answer_fsm, h.fsm_eq]

theorem exec_tick_error (now : Word) (h : s.runs .error) :
    exec (.tick now) s = .next (errorEntry (answer .none s)) := by
  rw [exec_tick_runs h now, tickState, answer_fsm, h.fsm_eq]

/-! ### No byte waits -/

theorem checkTimeout_eq (now : Word) (s : State) : checkTimeout now s =
    if s.cfg.tRx < now - s.msgTime then { s with errCode := .timeout, fsm := .error } else s := by
  rcases checkTimeout_cases now s with ⟨hage, e⟩ | ⟨hage, e⟩
  · rw [e, if_neg hage]
  · rw [e, if_pos hage]

/-- R151: whatever the waiting state, only the age of the message counts. -/
theorem tickState_starved (hi : s.fsm ≠ .idle) (he : s.fsm ≠ .error)
    (hp : s.fsm = .binPayloadWait → s.asm.payRem ≠ 0) (hu : s.unread = []) :
    tickState now s = .next (checkTimeout now s) := by
  unfold tickState
  cases hf : s.fsm with
  | idle => exact absurd hf hi
  | error => exact absurd hf he
  | sentenceWait => simp only [tickSentenceWait, hu]
  | sentenceLFWait => simp only [tickSentenceLFWait, hu]
  | binSyncWait => simp only [tickBinSyncWait, hu]
  | binHeaderWait => simp only [tickBinHeaderWait, hu]
  | binPayloadWait => simp only [tickBinPayloadWait, hu, if_neg (hp hf)]
  | binChecksumWait => simp only [tickBinChecksumWait, hu]

/-! ### Bytes wait -/

theorem tickIdle_of_running (hh : (ledgerSweep now s.cfg.tResp s).halted = false) (hu : s.unread = b :: rest) :
    tickIdle now s = classifyLead now b (ledgerSweep now s.cfg.tResp s) := by
  have hsame := (sweptFrom_ledgerSweep s now s.cfg.tResp).sameIntake
  have hu' := (State.unread_congr hsame.buf hsame.cfg hsame.wr hsame.sc).trans hu
  simp only [tickIdle, hh, hu', Bool.false_eq_true, if_false]

theorem tickSentenceWait_of_bytes (hsc : s.sc < s.cfg.n) (hf : s.fsm = .sentenceWait) (hu : s.unread ≠ []) :
    tickSentenceWait now s = { s with
      msgTime := now
      sc := (s.sc + (throughCR s.unread).length) % s.cfg.n
      fsm := if chCR ∈ s.unread then .sentenceLFWait else .sentenceWait } := by
  unfold tickSentenceWait
  split
  · exact absurd (by assumption) hu
  · rename_i b bs hbytes
    rw [foldl_sentenceByte _ _ (by exact hsc), ← hbytes]
    simp only [mem_throughCR, hf]

/-- R156: at an `LF` a verified span has its meaning. -/
theorem tickSentenceLFWait_of_verified (hu : s.unread = chLF :: rest) (hv : verify s.span = true) :
    tickSentenceLFWait now s =
      { processSpan s.span s with ms := s.sc, inProgress := false, fsm := .idle } := by
  have hsc : (processSpan s.span s).sc = s.sc := (sentenceFrom_processSpan s.span s).sameIntake.sc
  simp [tickSentenceLFWait, hu, hv, hsc]

theorem tickSentenceLFWait_of_refused (hu : s.unread = chLF :: rest) (hv : verify s.span = false) :
    tickSentenceLFWait now s = { s with ms := s.sc, inProgress := false, fsm := .idle } := by
  simp [tickSentenceLFWait, hu, hv]

theorem tickSentenceLFWait_of_ne_lf (hu : s.unread = b :: rest) (hb : b ≠ chLF) :
    tickSentenceLFWait now s = { s with ms := s.sc, errCode := .noLF, fsm := .error } := by
  simp [tickSentenceLFWait, hu, hb, raiseError]

theorem tickBinSyncWait_of_sync2 (hu : s.unread = s.cfg.sync2 :: rest) :
    tickBinSyncWait now s = { s with
      sc := nextCell s.cfg.n s.sc
      ms := nextCell s.cfg.n s.sc
      msgTime := now
      asm := { s.asm with hdrCnt := 0, ckA := 0, ckB := 0 }
      fsm := .binHeaderWait } := by
  simp [tickBinSyncWait, hu, consumeByte]

theorem tickBinSyncWait_of_ne_sync2 (hu : s.unread = b :: rest) (hb : b ≠ s.cfg.sync2) :
    tickBinSyncWait now s = { s with errCode := .sync2, fsm := .error } := by
  simp [tickBinSyncWait, hu, hb, raiseError]

theorem tickBinHeaderWait_of_bytes (hsc : s.sc < s.cfg.n) (hu : s.unread ≠ []) {taken : Bytes}
    (ht : taken = s.unread.take (4 - s.asm.hdrCnt)) :
    tickBinHeaderWait now s = if s.asm.hdrCnt + taken.length = 4 then finishHeader (consumed headerByte taken now s)
      else consumed headerByte taken now s := by
  unfold tickBinHeaderWait
  split
  · exact absurd (by assumption) hu
  · rename_i b bs hbytes
    dsimp only
    rw [← hbytes, ← ht, foldl_eq_consumed _ _ _ _ hsc]
    simp only [consumed, foldl_headerByte_hdrCnt]

theorem tickBinPayloadWait_of_empty (hr : s.asm.payRem = 0) :
    tickBinPayloadWait now s = .next { s with asm := { s.asm with ckCnt := 0 }, fsm := .binChecksumWait } := by
  unfold tickBinPayloadWait finishPayload
  rw [if_pos hr, if_pos hr]

theorem tickBinPayloadWait_of_bytes (hsc : s.sc < s.cfg.n) (hr : s.asm.payRem ≠ 0) (hu : s.unread ≠ [])
    {taken : Bytes} (ht : taken = s.unread.take s.asm.payRem)
    (hcap : s.asm.payIdx + s.asm.payRem ≤ s.cfg.payloadCap) :
    tickBinPayloadWait now s = .next (finishPayload (consumed payloadByte taken now s)) := by
  have hlen : taken.length ≤ s.asm.payRem := ht ▸ length_take_unread_le _
  unfold tickBinPayloadWait
  rw [if_neg hr]
  split
  · exact absurd (by assumption) hu
  · rename_i b bs hbytes
    dsimp only
    rw [← hbytes, ← ht, if_pos (by omega), foldl_eq_consumed _ _ _ _ hsc]

theorem tickBinChecksumWait_of_bytes (hsc : s.sc < s.cfg.n) (hu : s.unread ≠ []) {taken : Bytes}
    (ht : taken = s.unread.take (2 - s.asm.ckCnt)) :
    tickBinChecksumWait now s =
      if s.asm.ckCnt + taken.length = 2 then finishChecksum (consumed checksumByte taken now s)
      else .next (consumed checksumByte taken now s) := by
  have hcnt : (taken.foldl checksumByte s.asm).ckCnt = s.asm.ckCnt + taken.length := by rw [foldl_checksumByte]
  unfold tickBinChecksumWait
  split
  · exact absurd (by assumption) hu
  · rename_i b bs hbytes
    dsimp only
    rw [← hbytes, ← ht, foldl_eq_consumed _ _ _ _ hsc]
    simp only [consumed, hcnt]

end Sys2Proof.Machine

/-!
## Proofs: where a TICK completes

O8: of the eight rules only the payload loop and the dispatch of a frame can stop, and both at a payload index.
-/

namespace Sys2Proof.Machine

variable {s : State} {now : Word}

theorem finishChecksum_completes (h : s.asm.rxLen.toNat ≤ s.cfg.payloadCap) : ∃ t, finishChecksum s = .next t := by
  rw [finishChecksum, if_pos h]
  split <;> exact ⟨_, rfl⟩

theorem tickBinPayloadWait_completes (hsc : s.sc < s.cfg.n)
    (h : s.asm.payIdx + s.asm.payRem ≤ s.cfg.payloadCap) : ∃ t, tickBinPayloadWait now s = .next t := by
  by_cases hr : s.asm.payRem = 0
  · exact ⟨_, tickBinPayloadWait_of_empty hr⟩
  by_cases hu : s.unread = []
  · exact ⟨checkTimeout now s, by simp only [tickBinPayloadWait, if_neg hr, hu]⟩
  · exact ⟨_, tickBinPayloadWait_of_bytes hsc hr hu rfl h⟩

theorem tickBinChecksumWait_completes (hsc : s.sc < s.cfg.n) (h : s.asm.rxLen.toNat ≤ s.cfg.payloadCap) :
    ∃ t, tickBinChecksumWait now s = .next t := by
  by_cases hu : s.unread = []
  · exact ⟨checkTimeout now s, by simp only [tickBinChecksumWait, hu]⟩
  rw [tickBinChecksumWait_of_bytes hsc hu rfl]
  split
  · exact finishChecksum_completes (by rw [consumed, foldl_checksumByte]; exact h)
  · exact ⟨_, rfl⟩

theorem tickState_completes (hsc : s.sc < s.cfg.n)
    (hp : s.fsm = .binPayloadWait → s.asm.payIdx + s.asm.payRem ≤ s.cfg.payloadCap)
    (hc : s.fsm = .binChecksumWait → s.asm.rxLen.toNat ≤ s.cfg.payloadCap) : ∃ t, tickState now s = .next t := by
  unfold tickState
  cases hf : s.fsm with
  | idle | sentenceWait | sentenceLFWait | binSyncWait | binHeaderWait | error => exact ⟨_, rfl⟩
  | binPayloadWait => exact tickBinPayloadWait_completes hsc (hp hf)
  | binChecksumWait => exact tickBinChecksumWait_completes hsc (hc hf)

/-- Settles O8: a halted TICK does nothing, a running one runs a rule that completes. -/
theorem tickCompletes : Obligations.TickCompletes := by
  refine ⟨fun _ _ _ _ _ => rfl, fun s now h => ?_⟩
  rcases Bool.eq_false_or_eq_true s.halted with hh | hh
  · exact ⟨_, exec_tick_halted now hh⟩
  · obtain ⟨hcur, hp, hc⟩ := h.resolve_left (by simp [hh])
    rw [exec_tick_running now hh hcur]
    exact tickState_completes (s := answer .none s) (State.cursorsInRange_iff.mp hcur).2.1 hp hc

end Sys2Proof.Machine

/-!
## Proofs: what a TICK does where no loop fills the assembler

O10 to O15, O18 and O20: the equations of the rules, read for the state with its result cleared.
-/

namespace Sys2Proof.Machine

variable {s : State} {now : Word}

/-- Settles O10: no byte waits exactly where `sc = wr`, and then only `check_timeout` runs. -/
theorem starvedTickTimesOutStrictly : Obligations.StarvedTickTimesOutStrictly := by
  intro s now hh hcur hempty hi he hp
  obtain ⟨hwr, hsc, -⟩ := State.cursorsInRange_iff.mp hcur
  have hu : (answer .none s).unread = [] := (State.unread_eq_nil (s := s) hsc hwr).mpr hempty
  rw [exec_tick_running now hh hcur, tickState_starved (s := answer .none s) hi he (fun hf => (hp hf).ne') hu]
  exact congrArg _ (checkTimeout_eq now (answer .none s))

/-- Settles O11: the sweep does not see the result, and leaves the unread bytes and the parameters alone. -/
theorem idleTickSweepsThenClassifies : Obligations.IdleTickSweepsThenClassifies := by
  intro s now hrun
  have hsame := (sweptFrom_ledgerSweep s now s.cfg.tResp).sameIntake
  have hu : (answer .none (ledgerSweep now s.cfg.tResp s)).unread = s.unread :=
    State.unread_congr hsame.buf hsame.cfg hsame.wr hsame.sc
  rw [exec_tick_idle now hrun, tickIdle, answer_cfg, ledgerSweep_answer]
  dsimp only
  rw [answer_halted, hu]
  split
  · rfl
  · cases s.unread with
    | nil => rfl
    | cons b rest =>
      have hlead := exec_leadInstr now b (answer .none (ledgerSweep now s.cfg.tResp s))
      rw [answer_cfg, hsame.cfg] at hlead
      exact hlead.symm

/-- Settles O12: the class of a lead byte with its tests written out, and the three meanings. -/
theorem leadBytesOpenMessages : Obligations.LeadBytesOpenMessages := by
  refine ⟨fun c now b => ⟨?_, rfl⟩, fun _ _ => rfl, fun _ _ => rfl, fun _ _ => rfl⟩
  change _ = if b = chDollar then _ else _
  unfold leadInstr leadClass
  split_ifs <;> rfl

theorem throughCR_eq (bs : Bytes) : throughCR bs = bs.takeWhile (· ≠ chCR) ++ if chCR ∈ bs then [chCR] else [] := by
  induction bs with
  | nil => rfl
  | cons b bs ih =>
    by_cases hb : b = chCR
    · simp [throughCR, hb]
    · simp [throughCR, hb, Ne.symm hb, ih]

/-- Settles O13: the loop of `SentenceWait`, and what `throughCR`, the unread bytes and the span are. -/
theorem sentenceTickConsumesThroughCR : Obligations.SentenceTickConsumesThroughCR := by
  refine ⟨fun s now hrun hne => ?tick, throughCR_eq, fun s => ⟨?_, fun k hk => ?_, ?_, fun k hk => ?_⟩⟩
  case tick =>
    rw [exec_tick_sentenceWait now hrun,
      tickSentenceWait_of_bytes (s := answer .none s) hrun.sc_lt hrun.fsm_eq (hrun.unread_ne_nil hne)]
    rfl
  · exact State.unread_length
  · exact Memory.ringSlice_getElem? _ _ _ _ _ (by simpa using hk)
  · exact Memory.ringSlice_length ..
  · exact Memory.ringSlice_getElem? _ _ _ _ _ (hk.trans_eq (Memory.ringSlice_length ..))

/-- Settles O14: the three outcomes of `SentenceLFWait`, and the chain of tests on field 0. -/
theorem lineFeedDecidesSentence : Obligations.LineFeedDecidesSentence := by
  refine ⟨fun s now b rest hrun hu => ?tick, fun c span => ?chain⟩
  case tick =>
    rw [exec_tick_sentenceLFWait now hrun]
    refine ⟨?verified, ?refused, fun hb => ?other⟩
    case verified =>
      rintro rfl hv
      exact ⟨_, exec_sentenceInstr s.span (answer .none s),
        congrArg _ (tickSentenceLFWait_of_verified (s := answer .none s) hu hv)⟩
    case refused =>
      rintro rfl hv
      exact congrArg _ (tickSentenceLFWait_of_refused (s := answer .none s) hu hv)
    case other => exact congrArg _ (tickSentenceLFWait_of_ne_lf (s := answer .none s) hu hb)
  case chain =>
    unfold sentenceInstr kindOf
    refine ⟨fun h => ?_, fun h₁ h => ?_, fun h₁ h₂ h => ?_, fun h₁ h₂ h₃ h => ?_, fun h => ?_⟩
    · rw [if_pos h]
    · rw [if_neg h₁, if_pos h]
    · rw [if_neg h₁, if_neg h₂, if_pos h]
    · rw [if_neg h₁, if_neg h₂, if_neg h₃, if_pos h]
    · simp only [List.mem_cons, List.not_mem_nil, or_false, not_or] at h
      obtain ⟨h₁, h₂, h₃, h₄⟩ := h
      rw [if_neg h₁, if_neg h₂, if_neg h₃, if_neg h₄]

/-- Settles O15: the two outcomes of `BinSyncWait`. -/
theorem secondSyncByteStartsHeader : Obligations.SecondSyncByteStartsHeader := by
  intro s now b rest hrun hu
  rw [exec_tick_binSyncWait now hrun]
  refine ⟨?_, fun hb => congrArg _ (tickBinSyncWait_of_ne_sync2 (s := answer .none s) hu hb)⟩
  rintro rfl
  exact congrArg _ (tickBinSyncWait_of_sync2 (s := answer .none s) hu)

/-- Settles O18: the first test of `BinPayloadWait`. -/
theorem emptyPayloadTickGoesOn : Obligations.EmptyPayloadTickGoesOn := by
  intro s now hrun hr
  rw [exec_tick_binPayloadWait now hrun, tickBinPayloadWait_of_empty (s := answer .none s) hr]
  rfl

/-- Settles O20: the rule of `Error` is `errorEntry`, which reads no byte and no time. -/
theorem errorTickRecordsAndReturns : Obligations.ErrorTickRecordsAndReturns := fun _ now hrun =>
  exec_tick_error now hrun

end Sys2Proof.Machine

/-!
## Proofs: what a TICK does with the bytes of a frame

O16, O17 and O19: the loops of the assembler, started with at least one byte waiting.
-/

namespace Sys2Proof.Machine

variable {s : State} {now : Word} {bs : Bytes}

/-- The state after a TICK's loop has taken at least one byte into the assembler. -/
def received (f : Assembler → Byte → Assembler) (bs : Bytes) (now : Word) (s : State) : State :=
  { s with
    result := .none
    sc := (s.sc + bs.length) % s.cfg.n
    ms := (s.sc + bs.length) % s.cfg.n
    msgTime := now
    asm := bs.foldl f s.asm }

theorem consumed_answer (f : Assembler → Byte → Assembler) (now : Word) (s : State) (h : bs ≠ []) :
    consumed f bs now (answer .none s) = received f bs now s := by
  unfold consumed
  rw [if_neg h]
  rfl

theorem State.taken_ne_nil {k : Nat} (hu : s.unread ≠ []) (hk : 0 < k) : s.unread.take k ≠ [] := by
  simp [hu, hk.ne']

/-! ### The header (R160) -/

theorem exec_tick_header (now : Word) (hrun : s.runs .binHeaderWait) (hcnt : s.asm.hdrCnt < 4) (hne : s.sc ≠ s.wr)
    (hbs : bs = s.unread.take (4 - s.asm.hdrCnt)) :
    exec (.tick now) s = .next (if s.asm.hdrCnt + bs.length = 4 then finishHeader (received headerByte bs now s)
      else received headerByte bs now s) := by
  have hu := hrun.unread_ne_nil hne
  have hbytes : bs ≠ [] := hbs ▸ State.taken_ne_nil hu (by omega)
  rw [exec_tick_binHeaderWait now hrun, tickBinHeaderWait_of_bytes (s := answer .none s) hrun.sc_lt hu hbs, answer_asm,
    consumed_answer headerByte now s hbytes]

/-- Settles O16: the header loop, then nothing or `finishHeader`. -/
theorem fourHeaderBytesSetLength : Obligations.FourHeaderBytesSetLength := by
  intro s now taken hrun hcnt hne htaken
  have hlen : taken.length ≤ 4 - s.asm.hdrCnt := htaken ▸ length_take_unread_le _
  have hframe := foldl_headerByte_frame taken s.asm
  have hhdr := foldl_headerByte_getD taken s.asm (by omega)
  rw [exec_tick_header now hrun hcnt hne htaken]
  by_cases hdone : s.asm.hdrCnt + taken.length = 4
  case neg =>
    refine ⟨_, congrArg _ (if_neg hdone), rfl, rfl, rfl, by rw [received, hframe], fun k _ => hhdr k, fun _ => ?waiting,
      fun h => absurd h hdone⟩
    refine ⟨hrun.fsm_eq, rfl, ?_⟩
    rw [received, hframe]
    exact ⟨rfl, rfl, rfl, rfl, rfl, rfl⟩
  case pos =>
    rw [if_pos hdone]
    rcases finishHeader_cases (received headerByte taken now s) with ⟨hfits, e⟩ | ⟨hlong, e⟩
    case inl =>
      refine ⟨_, congrArg _ e, rfl, rfl, rfl, by rw [received, hframe], fun k _ => hhdr k, fun h => absurd hdone h.ne,
        fun _ => ?_⟩
      exact ⟨rfl, rfl, ofLe16_toNat _ _, fun _ => ⟨rfl, rfl, rfl, rfl, rfl⟩, fun h => absurd hfits (Nat.not_le.mpr h)⟩
    case inr =>
      refine ⟨_, congrArg _ e, rfl, rfl, rfl, by rw [received, hframe], fun k _ => hhdr k, fun h => absurd hdone h.ne,
        fun _ => ?_⟩
      refine ⟨rfl, rfl, ofLe16_toNat _ _, fun h => absurd hlong (Nat.not_lt.mpr h), fun _ => ⟨rfl, rfl, ?_⟩⟩
      rw [received, hframe]
      exact ⟨rfl, rfl, rfl⟩

/-! ### The payload (R162) -/

theorem exec_tick_payload (now : Word) (hrun : s.runs .binPayloadWait) (hrem : 0 < s.asm.payRem) (hne : s.sc ≠ s.wr)
    (hbs : bs = s.unread.take s.asm.payRem) (hcap : s.asm.payIdx + s.asm.payRem ≤ s.cfg.payloadCap) :
    exec (.tick now) s = .next (finishPayload (received payloadByte bs now s)) := by
  have hu := hrun.unread_ne_nil hne
  have hbytes : bs ≠ [] := hbs ▸ State.taken_ne_nil hu hrem
  rw [exec_tick_binPayloadWait now hrun,
    tickBinPayloadWait_of_bytes (s := answer .none s) hrun.sc_lt hrem.ne' hu hbs hcap,
    consumed_answer payloadByte now s hbytes]

/-- Settles O17: the payload loop, then nothing or the wait for the checksum. -/
theorem payloadTickCopiesBytes : Obligations.PayloadTickCopiesBytes := by
  intro s now taken hrun hwf hcap hrem hne htaken
  have hlen : taken.length ≤ s.asm.payRem := htaken ▸ length_take_unread_le _
  obtain ⟨hframe, -, -, hread⟩ := foldl_payloadByte taken s.asm hwf
  have hleft : (received payloadByte taken now s).asm.payRem = s.asm.payRem - taken.length := by rw [received, hframe]
  have hstored (k : Nat) (hk : k < taken.length) :
      (taken.foldl payloadByte s.asm).payload.read (s.asm.payIdx + k) = taken.getD k 0 := by
    rw [hread, if_pos (by omega), Nat.add_sub_cancel_left]
  have hother (a : Nat) (ha : a < s.asm.payIdx ∨ s.asm.payIdx + taken.length ≤ a) :
      (taken.foldl payloadByte s.asm).payload.read a = s.asm.payload.read a := by
    rw [hread, if_neg (by omega)]
  rw [exec_tick_payload now hrun hrem hne htaken hcap]
  rcases finishPayload_cases (received payloadByte taken now s) with ⟨hzero, e⟩ | ⟨hmore, e⟩
  case inl =>
    have hall : s.asm.payRem = taken.length := by omega
    refine ⟨_, congrArg _ e, ?_, hstored, hother⟩
    rw [if_pos hall, if_pos hall, received, hframe]
  case inr =>
    have hsome : s.asm.payRem ≠ taken.length := by omega
    refine ⟨_, congrArg _ e, ?_, hstored, hother⟩
    rw [if_neg hsome, if_neg hsome, ← hrun.fsm_eq, received, hframe]

/-! ### The checksum (R164) -/

theorem setIfInBounds_zero (v : Vector Byte 2) (a : Byte) : v.setIfInBounds 0 a = #v[a, v[1]] := by
  refine Vector.ext fun i hi => ?_
  interval_cases i <;> simp

theorem setIfInBounds_one (v : Vector Byte 2) (b : Byte) : v.setIfInBounds 1 b = #v[v[0], b] := by
  refine Vector.ext fun i hi => ?_
  interval_cases i <;> simp

/-- What the loop of `BinChecksumWait` has stored, by the number of bytes it took. -/
theorem foldl_checksumByte_first (a : Byte) {m : Assembler} (h : m.ckCnt = 0) :
    [a].foldl checksumByte m = { m with rxCk := #v[a, m.rxCk[1]], ckCnt := 1 } := by
  simp only [List.foldl_cons, List.foldl_nil, checksumByte, h, setIfInBounds_zero]

theorem foldl_checksumByte_second (b : Byte) {m : Assembler} (h : m.ckCnt = 1) :
    [b].foldl checksumByte m = { m with rxCk := #v[m.rxCk[0], b], ckCnt := 2 } := by
  simp only [List.foldl_cons, List.foldl_nil, checksumByte, h, setIfInBounds_one]

theorem foldl_checksumByte_pair (a b : Byte) {m : Assembler} (h : m.ckCnt = 0) :
    [a, b].foldl checksumByte m = { m with rxCk := #v[a, b], ckCnt := 2 } := by
  rw [List.foldl_cons, show checksumByte m a = _ from foldl_checksumByte_first a h, foldl_checksumByte_second b rfl]
  rfl

theorem exec_tick_checksum (now : Word) (hrun : s.runs .binChecksumWait) (hu : s.unread ≠ []) (hcnt : s.asm.ckCnt < 2)
    (hbs : bs = s.unread.take (2 - s.asm.ckCnt)) :
    exec (.tick now) s = if s.asm.ckCnt + bs.length = 2 then finishChecksum (received checksumByte bs now s)
      else .next (received checksumByte bs now s) := by
  have hbytes : bs ≠ [] := hbs ▸ State.taken_ne_nil hu (by omega)
  rw [exec_tick_binChecksumWait now hrun, tickBinChecksumWait_of_bytes (s := answer .none s) hrun.sc_lt hu hbs,
    answer_asm, consumed_answer checksumByte now s hbytes]

/-- Both checksum bytes are there after `k` bytes of this TICK. -/
def checksumReceived (a b : Byte) (k : Nat) (now : Word) (s : State) : State :=
  { s with
    result := .none, msgTime := now, sc := (s.sc + k) % s.cfg.n, ms := (s.sc + k) % s.cfg.n
    asm := { s.asm with rxCk := #v[a, b], ckCnt := 2 } }

/-- The second checksum byte, whether or not the first came in an earlier TICK. -/
theorem exec_tick_checksumReceived {a b : Byte} {rest : Bytes} {k : Nat} (now : Word) (hrun : s.runs .binChecksumWait)
    (h : (s.asm.ckCnt = 0 ∧ s.unread = a :: b :: rest ∧ k = 2) ∨
      (s.asm.ckCnt = 1 ∧ s.asm.rxCk[0] = a ∧ s.unread = b :: rest ∧ k = 1)) :
    exec (.tick now) s = finishChecksum (checksumReceived a b k now s) := by
  rcases h with ⟨hcnt, hu, rfl⟩ | ⟨hcnt, rfl, hu, rfl⟩
  · rw [exec_tick_checksum (bs := [a, b]) now hrun (by simp [hu]) (by omega) (by simp [hu, hcnt]),
      if_pos (by simp [hcnt]), received, foldl_checksumByte_pair a b hcnt]
    rfl
  · rw [exec_tick_checksum (bs := [b]) now hrun (by simp [hu]) (by omega) (by simp [hu, hcnt]),
      if_pos (by simp [hcnt]), received, foldl_checksumByte_second b hcnt]
    rfl

theorem checksumReceived_checksumMatches (a b : Byte) (k : Nat) (now : Word) (s : State) :
    (checksumReceived a b k now s).checksumMatches = true ↔ (a, b) = s.asm.ck := by
  change (decide (a = s.asm.ckA) && decide (b = s.asm.ckB)) = true ↔ (a, b) = (s.asm.ckA, s.asm.ckB)
  simp

theorem frameInstr_eq_ite (c : Config) (cls id : Byte) (payload : Bytes) : frameInstr c cls id payload =
    if cls = c.clsAck then
      if id = c.idAckAck then .ackAck payload else if id = c.idAckNak then .ackNak payload else .ackOther id payload
    else if cls = c.clsMon then if id = c.idMonVer then .monVer payload else .monOther id payload
    else if cls ∈ c.knownClasses then .cfgAny cls id payload
    else .classUnknown cls id payload := by
  unfold frameInstr frameKind
  split_ifs <;> rfl

/-- Settles O19: the chain of tests, a checksum byte that comes alone, and the two outcomes of the comparison. -/
theorem checksumBytesDecideFrame : Obligations.ChecksumBytesDecideFrame := by
  refine ⟨frameInstr_eq_ite, fun s now a hrun hcnt hu => ?alone, fun s now a b rest k hrun h => ?both⟩
  case alone =>
    rw [exec_tick_checksum (bs := [a]) now hrun (by simp [hu]) (by omega) (by simp [hu, hcnt]),
      if_neg (by simp [hcnt]), received, foldl_checksumByte_first a hcnt]
    rfl
  case both =>
    rw [exec_tick_checksumReceived now hrun h]
    refine ⟨fun hck hlen => ?matching, fun hck => ?different⟩
    case matching =>
      have hmatch := (checksumReceived_checksumMatches a b k now s).mpr hck
      refine ⟨_, exec_frameInstr s.asm.rxClass s.asm.rxId s.rxPayload (checksumReceived a b k now s), ?_⟩
      exact (if_pos hmatch).trans (if_pos hlen)
    case different =>
      rw [finishChecksum, if_neg (mt (checksumReceived_checksumMatches a b k now s).mp hck)]
      rfl

end Sys2Proof.Machine

/-!
## Proofs: the transition table

O21: the rows of `TickTo`, read for the framing state, the error code and the error count.
-/

namespace Sys2Proof.Machine

variable {s t : State} {now : Word}

/-! ### Only the Error TICK counts -/

theorem ledgerSweep_errCount (now limit : Word) (s : State) : (ledgerSweep now limit s).errCount = s.errCount := by
  rw [(sweptFrom_ledgerSweep s now limit).frame]

theorem processSpan_errCount (span : Bytes) (s : State) : (processSpan span s).errCount = s.errCount := by
  rw [(sentenceFrom_processSpan span s).frame]

theorem dispatchFrame_errCount (cls id : Byte) (payload : Bytes) (s : State) :
    (dispatchFrame cls id payload s).errCount = s.errCount := by
  rw [(frameFrom_dispatchFrame cls id payload s).frame]

theorem classifyLead_errCount (now : Word) (b : Byte) (s : State) : (classifyLead now b s).errCount = s.errCount := by
  rcases classifyLead_cases now b s with ⟨-, e⟩ | ⟨-, e⟩ | ⟨-, e⟩ <;> rw [e]

theorem finishHeader_errCount (s : State) : (finishHeader s).errCount = s.errCount := by
  rcases finishHeader_cases s with ⟨-, e⟩ | ⟨-, e⟩ <;> rw [e]

theorem finishPayload_errCount (s : State) : (finishPayload s).errCount = s.errCount := by
  rcases finishPayload_cases s with ⟨-, e⟩ | ⟨-, e⟩ <;> rw [e]

/-- R323. -/
theorem TickTo.errCount (ht : TickTo now s t) :
    t.errCount = if s.fsm = .error then s.errCount + 1 else s.errCount := by
  cases ht with
  | error hf => rw [if_pos hf]; rfl
  | idleHalted hf | idleEmpty hf => rw [if_neg (by simp [hf]), ledgerSweep_errCount]
  | idleByte b rest hf => rw [if_neg (by simp [hf]), classifyLead_errCount, ledgerSweep_errCount]
  | starved _ he | timeout _ he => rw [if_neg he]
  | lineFeed rest hf => rw [if_neg (by simp [hf])]; exact processSpan_errCount s.span s
  | headerDone bs hf => rw [if_neg (by simp [hf])]; exact finishHeader_errCount _
  | payload bs hf => rw [if_neg (by simp [hf])]; exact finishPayload_errCount _
  | dispatch bs hf => rw [if_neg (by simp [hf])]; exact dispatchFrame_errCount ..
  | sentence hf | payloadEmpty hf => exact (if_neg (by simp [hf])).symm
  | dropped rest hf | sync2 rest hf => rw [if_neg (by simp [hf])]
  | noLF b rest hf | badSync b rest hf => rw [if_neg (by simp [hf])]
  | header bs hf | checksum bs hf | badChecksum bs hf => rw [if_neg (by simp [hf])]; rfl

/-! ### Where a TICK leads -/

/-- The table of R168: a TICK of `f` leads to `g`, with error code `code` where `g` is `Error`. -/
def Framing.leadsTo (f g : Framing) (code : ErrCode) : Prop :=
  match f with
  | .idle => g = .idle ∨ g = .sentenceWait ∨ g = .binSyncWait
  | .sentenceWait => g = .sentenceWait ∨ g = .sentenceLFWait ∨ g = .error ∧ code = .timeout
  | .sentenceLFWait => g = .sentenceLFWait ∨ g = .idle ∨ g = .error ∧ (code = .timeout ∨ code = .noLF)
  | .binSyncWait => g = .binSyncWait ∨ g = .binHeaderWait ∨ g = .error ∧ (code = .timeout ∨ code = .sync2)
  | .binHeaderWait => g = .binHeaderWait ∨ g = .binPayloadWait ∨ g = .error ∧ (code = .timeout ∨ code = .header)
  | .binPayloadWait => g = .binPayloadWait ∨ g = .binChecksumWait ∨ g = .error ∧ code = .timeout
  | .binChecksumWait => g = .binChecksumWait ∨ g = .idle ∨ g = .error ∧ (code = .timeout ∨ code = .cksum)
  | .error => g = .idle

theorem Framing.leadsTo_self {f : Framing} (he : f ≠ .error) (code : ErrCode) : f.leadsTo f code := by
  cases f with
  | error => exact absurd rfl he
  | idle | sentenceWait | sentenceLFWait | binSyncWait | binHeaderWait | binPayloadWait | binChecksumWait =>
    exact .inl rfl

theorem Framing.leadsTo_timeout {f : Framing} (hi : f ≠ .idle) (he : f ≠ .error) : f.leadsTo .error .timeout := by
  cases f with
  | idle => exact absurd rfl hi
  | error => exact absurd rfl he
  | sentenceWait | binPayloadWait => exact .inr (.inr ⟨rfl, rfl⟩)
  | sentenceLFWait | binSyncWait | binHeaderWait | binChecksumWait => exact .inr (.inr ⟨rfl, .inl rfl⟩)

theorem classifyLead_leadsTo (hf : s.fsm = .idle) (now : Word) (b : Byte) (code : ErrCode) :
    Framing.idle.leadsTo (classifyLead now b s).fsm code := by
  rcases classifyLead_cases now b s with ⟨-, e⟩ | ⟨-, e⟩ | ⟨-, e⟩ <;> rw [e]
  exacts [.inr (.inl rfl), .inr (.inr rfl), .inl hf]

theorem finishHeader_leadsTo (s : State) :
    Framing.binHeaderWait.leadsTo (finishHeader s).fsm (finishHeader s).errCode := by
  rcases finishHeader_cases s with ⟨-, e⟩ | ⟨-, e⟩ <;> rw [e]
  exacts [.inr (.inl rfl), .inr (.inr ⟨rfl, .inr rfl⟩)]

theorem finishPayload_leadsTo (hf : s.fsm = .binPayloadWait) (code : ErrCode) :
    Framing.binPayloadWait.leadsTo (finishPayload s).fsm code := by
  rcases finishPayload_cases s with ⟨-, e⟩ | ⟨-, e⟩ <;> rw [e]
  exacts [.inr (.inl rfl), .inl hf]

theorem TickTo.leadsTo (ht : TickTo now s t) : s.fsm.leadsTo t.fsm t.errCode := by
  have hidle (hf : s.fsm = .idle) : (ledgerSweep now s.cfg.tResp s).fsm = .idle :=
    (sweptFrom_ledgerSweep ..).sameIntake.fsm.trans hf
  cases ht with
  | idleHalted hf | idleEmpty hf => rw [hf, hidle hf]; exact .inl rfl
  | idleByte b rest hf => rw [hf]; exact classifyLead_leadsTo (hidle hf) now b _
  | starved _ he => exact Framing.leadsTo_self he _
  | timeout hi he => exact Framing.leadsTo_timeout hi he
  | sentence hf =>
    rw [hf]
    by_cases hcr : chCR ∈ s.unread
    · exact .inr (.inl (if_pos hcr))
    · exact .inl (if_neg hcr)
  | lineFeed rest hf | dropped rest hf => rw [hf]; exact .inr (.inl rfl)
  | noLF b rest hf | badSync b rest hf => rw [hf]; exact .inr (.inr ⟨rfl, .inr rfl⟩)
  | sync2 rest hf => rw [hf]; exact .inr (.inl rfl)
  | header bs hf | checksum bs hf => rw [hf]; exact .inl hf
  | headerDone bs hf => rw [hf]; exact finishHeader_leadsTo _
  | payloadEmpty hf => rw [hf]; exact .inr (.inl rfl)
  | payload bs hf => rw [hf]; exact finishPayload_leadsTo (s := consumed payloadByte bs now s) hf _
  | dispatch bs hf => rw [hf]; exact .inr (.inl rfl)
  | badChecksum bs hf => rw [hf]; exact .inr (.inr ⟨rfl, .inr rfl⟩)
  | error hf => rw [hf]; rfl

/-! ### Only a starved TICK times out -/

theorem TickTo.starved_of_timeout (ht : TickTo now s t) (hf' : t.fsm = .error) (hcode : t.errCode = .timeout)
    (he : s.fsm ≠ .error) : s.unread = [] ∧ s.cfg.tRx < now - s.msgTime := by
  have hlead := ht.leadsTo
  rw [hf'] at hlead
  cases ht with
  | timeout _ _ _ hu hage => exact ⟨hu, hage⟩
  | starved _ he => exact absurd hf' he
  | idleHalted hf | idleEmpty hf => rw [hf] at hlead; simp [Framing.leadsTo] at hlead
  | idleByte b rest hf => rw [hf] at hlead; simp [Framing.leadsTo] at hlead
  | sentence hf => split at hf' <;> cases hf'
  | headerDone =>
    rcases finishHeader_cases (consumed headerByte _ now s) with ⟨-, e⟩ | ⟨-, e⟩
    · rw [e] at hf'; cases hf'
    · rw [e] at hcode; cases hcode
  | payload bs hf =>
    rcases finishPayload_cases (consumed payloadByte bs now s) with ⟨-, e⟩ | ⟨-, e⟩
    · rw [e] at hf'; cases hf'
    · rw [e] at hf'; exact absurd hf' he
  | header | checksum => exact absurd hf' he
  | noLF | badSync | badChecksum => cases hcode
  | lineFeed | dropped | sync2 | payloadEmpty | dispatch | error => cases hf'

/-- Settles O21: a TICK that completes follows the table. -/
theorem transitionsFollowTheTable : Obligations.TransitionsFollowTheTable := by
  intro s t now hh hexec
  rcases exec_tick_to hexec with ⟨hhalt, -⟩ | ⟨-, hcur, ht⟩
  · rw [hh] at hhalt; cases hhalt
  refine ⟨ht.errCount, fun hf' he hcode => ?timeout, ?table⟩
  case timeout =>
    obtain ⟨hwr, hsc, -⟩ := State.cursorsInRange_iff.mp hcur
    obtain ⟨hu, hage⟩ := ht.starved_of_timeout hf' hcode he
    exact ⟨(State.unread_eq_nil (s := s) hsc hwr).mp hu, hage⟩
  case table => exact ht.leadsTo

end Sys2Proof.Machine

/-!
## Proofs: a waiting sentence, TICK by TICK

O59: the lead byte, the bytes through `CR`, the `LF`.
-/

namespace Sys2Proof.Machine

variable {s t : State} {now : Word}

theorem tickRun_cons {rest : List Word} (h : exec (.tick now) s = .next t) :
    tickRun (now :: rest) s = tickRun rest t := by
  simp only [tickRun, h]

/-! ### The bytes of a span -/

/-- What follows the marker of a span still ends at the only `CR`. -/
theorem throughCR_after_marker {body more : Bytes} (hv : verify (chDollar :: body) = true)
    (hspan : throughCR (chDollar :: body) = chDollar :: body) :
    chCR ∈ body ++ more ∧ throughCR (body ++ more) = body := by
  have hcr : chCR ∈ body := by
    rcases List.mem_cons.mp (mem_of_verify hv) with h | h
    · exact absurd h (by decide)
    · exact h
  have hbody : throughCR body = body := by
    rw [throughCR, if_neg (by decide)] at hspan
    exact (List.cons.inj hspan).2
  exact ⟨List.mem_append_left _ hcr, (throughCR_of_mem hcr).trans hbody⟩

theorem exists_body_of_verify {span : Bytes} (hv : verify span = true) : ∃ body, span = chDollar :: body := by
  obtain ⟨body, h1, h2, v1, v2, rfl, -⟩ := (verify_iff span).mp hv
  exact ⟨_, rfl⟩

/-- Once the scan cursor has moved over the first unread bytes of an empty message, they are the span. -/
theorem State.span_of_moved {k : Nat} (hs : s.sc < s.cfg.n) (halign : s.ms = s.sc)
    (hk : k ≤ s.avail) (hbuf : t.buf = s.buf) (hcfg : t.cfg = s.cfg) (hms : t.ms = s.ms)
    (hsc : t.sc = (s.sc + k) % s.cfg.n) : t.span = s.unread.take k := by
  have hfree : dist s.cfg.n s.sc s.sc + k < s.cfg.n := by
    rw [dist_self hs, Nat.zero_add]
    exact hk.trans_lt (dist_lt hs)
  unfold State.span State.unread State.avail
  rw [hbuf, hcfg, hms, hsc, halign, Memory.ringSlice_extend hs hs hfree hk, dist_self hs, Memory.ringSlice_zero,
    List.nil_append]

/-! ### The three TICKs -/

/-- An `Idle` TICK with nothing awaited classifies the lead byte. -/
theorem exec_tick_idle_of_quiet {b : Byte} {rest : Bytes} (now : Word) (hrun : s.runs .idle) (hq : s.awaited = [])
    (hu : s.unread = b :: rest) : exec (.tick now) s = .next (classifyLead now b (answer .none s)) := by
  have hsweep : ledgerSweep now (answer .none s).cfg.tResp (answer .none s) = answer .none s := ledgerSweep_nil _ _ _ hq
  have hhalt : (ledgerSweep now (answer .none s).cfg.tResp (answer .none s)).halted = false := by
    rw [hsweep]; exact hrun.running
  rw [exec_tick_idle now hrun, tickIdle_of_running hhalt (hu : (answer .none s).unread = b :: rest), hsweep]

theorem classifyLead_dollar (now : Word) (s : State) : classifyLead now chDollar s = { s with
    sc := nextCell s.cfg.n s.sc, inProgress := true, msgTime := now, fsm := .sentenceWait } := by
  have hclass : leadClass s.cfg chDollar = .sentence := if_pos rfl
  unfold classifyLead
  rw [hclass]
  rfl

/-- In `SentenceWait`, the marker behind the scan cursor. -/
def sentenceOpened (now : Word) (s : State) : State :=
  { s with
    result := .none, sc := nextCell s.cfg.n s.sc, inProgress := true, msgTime := now, fsm := .sentenceWait }

/-- In `SentenceLFWait`, a span of `len` bytes behind the scan cursor. -/
def sentenceRead (len : Nat) (now : Word) (s : State) : State :=
  { s with
    result := .none, sc := (s.sc + len) % s.cfg.n, inProgress := true, msgTime := now, fsm := .sentenceLFWait }

theorem State.runs.moved {st st' : Framing} (h : s.runs st) (hh : t.halted = s.halted) (hcfg : t.cfg = s.cfg)
    (hwr : t.wr = s.wr) (hsc : t.sc < s.cfg.n) (hms : t.ms < s.cfg.n) (hf : t.fsm = st') : t.runs st' :=
  ⟨hh.trans h.running, State.cursorsInRange_iff.mpr ⟨by rw [hcfg, hwr]; exact h.wr_lt, hcfg ▸ hsc, hcfg ▸ hms⟩, hf⟩

section

variable {body more : Bytes} (hrun : s.runs .idle) (hu : s.unread = chDollar :: body ++ more)

include hrun hu

theorem exec_tick_sentenceOpened (now : Word) (hq : s.awaited = []) :
    exec (.tick now) s = .next (sentenceOpened now s) := by
  rw [exec_tick_idle_of_quiet now hrun hq hu, classifyLead_dollar]
  rfl

theorem sentenceOpened_unread (now : Word) : (sentenceOpened now s).unread = body ++ more := by
  have hone : 1 ≤ s.avail := by rw [← State.unread_length, hu]; simp
  rw [State.unread_drop (s := s) (t := sentenceOpened now s) hrun.sc_lt hrun.wr_lt hone rfl rfl rfl rfl, hu]
  rfl

theorem exec_tick_sentenceRead (t1 t2 : Word) (hcr : chCR ∈ body ++ more) (hbody : throughCR (body ++ more) = body) :
    exec (.tick t2) (sentenceOpened t1 s) = .next (sentenceRead (body.length + 1) t2 s) := by
  have hopen : (sentenceOpened t1 s).runs .sentenceWait :=
    hrun.moved rfl rfl rfl (nextCell_lt hrun.sc_lt) hrun.ms_lt rfl
  have hbytes := sentenceOpened_unread hrun hu t1
  rw [exec_tick_sentenceWait t2 hopen, tickSentenceWait_of_bytes (s := answer .none (sentenceOpened t1 s)) hopen.sc_lt
    hopen.fsm_eq (by rw [answer_unread, hbytes]; exact List.ne_nil_of_mem hcr), answer_unread, hbytes, hbody,
    if_pos hcr]
  have hsc : (nextCell s.cfg.n s.sc + body.length) % s.cfg.n = (s.sc + (body.length + 1)) % s.cfg.n := add_mod_next ..
  rw [sentenceRead, ← hsc]
  rfl

theorem sentenceRead_unread (now : Word) : (sentenceRead (body.length + 1) now s).unread = more := by
  have hlen : body.length + 1 ≤ s.avail := by rw [← State.unread_length, hu]; simp
  rw [State.unread_drop (s := s) (t := sentenceRead _ now s) hrun.sc_lt hrun.wr_lt hlen rfl rfl rfl rfl, hu]
  exact List.drop_left' rfl

theorem sentenceRead_span (now : Word) (halign : s.ms = s.sc) :
    (sentenceRead (body.length + 1) now s).span = chDollar :: body := by
  have hlen : body.length + 1 ≤ s.avail := by rw [← State.unread_length, hu]; simp
  rw [State.span_of_moved (s := s) (t := sentenceRead _ now s) hrun.sc_lt halign hlen rfl rfl rfl rfl, hu]
  exact List.take_left' rfl

end

/-- Settles O59: each TICK finds what the one before left. -/
theorem waitingSentenceRuns : Obligations.WaitingSentenceRuns := by
  intro s span rest t1 t2 t3 hrun halign hq hv hspan hu
  obtain ⟨body, rfl⟩ := exists_body_of_verify hv
  obtain ⟨hcr, hbody⟩ := throughCR_after_marker (more := chLF :: rest) hv hspan
  have hread : (sentenceRead (body.length + 1) t2 s).runs .sentenceLFWait :=
    hrun.moved rfl rfl rfl (Nat.mod_lt _ (Nat.zero_lt_of_lt hrun.sc_lt)) hrun.ms_lt rfl
  have hbytes := sentenceRead_unread hrun hu t2
  have hread_span := sentenceRead_span hrun hu t2 halign
  refine ⟨_, exec_sentenceInstr (chDollar :: body) (sentenceRead (body.length + 1) t2 s), ?_⟩
  have hsc := (sentenceFrom_processSpan (chDollar :: body) (sentenceRead (body.length + 1) t2 s)).sameIntake.sc
  rw [tickRun_cons (exec_tick_sentenceOpened hrun hu t1 hq),
    tickRun_cons (exec_tick_sentenceRead hrun hu t1 t2 hcr hbody), tickRun_cons (exec_tick_sentenceLFWait t3 hread),
    tickSentenceLFWait_of_verified (s := answer .none (sentenceRead (body.length + 1) t2 s)) hbytes
      (by rw [answer_span, hread_span]; exact hv), answer_span, hread_span]
  exact congrArg (fun ms => some { processSpan (chDollar :: body) (sentenceRead (body.length + 1) t2 s) with
    ms := ms, inProgress := false, fsm := .idle }) hsc.symm

end Sys2Proof.Machine

/-!
## Proofs: garbage in the ring

O57. `QuietIdle` is kept by a TICK, which steps past one byte, and by a PUSH of garbage, which appends a byte or, as an
overrun, empties the ring.
-/

namespace Sys2Proof.Machine

variable {s t : State} {now : Word}

/-- `Idle` with nothing awaited and nothing but garbage waiting. -/
structure QuietIdle (s : State) : Prop where
  runs : s.runs .idle
  aligned : s.ms = s.sc
  quiet : s.awaited = []
  garbage : ∀ b ∈ s.unread, leadClass s.cfg b = .garbage

theorem QuietIdle.answer (h : QuietIdle s) (r : Result) : QuietIdle (answer r s) :=
  ⟨h.runs, h.aligned, h.quiet, h.garbage⟩

/-! ### TICK -/

theorem exec_tick_idle_of_empty (now : Word) (hrun : s.runs .idle) (hq : s.awaited = []) (hu : s.unread = []) :
    exec (.tick now) s = .next (answer .none s) := by
  have hsweep : ledgerSweep now (answer .none s).cfg.tResp (answer .none s) = answer .none s := ledgerSweep_nil _ _ _ hq
  have hhalt : (answer .none s).halted = false := hrun.running
  rw [exec_tick_idle now hrun, tickIdle, hsweep]
  simp only [hhalt, Bool.false_eq_true, if_false, answer_unread, hu]

theorem QuietIdle.exec_tick_of_byte (h : QuietIdle s) {b : Byte} {rest : Bytes} (now : Word)
    (hu : s.unread = b :: rest) : exec (.tick now) s = .next (consumeByte (Machine.answer .none s)) := by
  have hclass : leadClass s.cfg b = .garbage := h.garbage b (by simp [hu])
  rw [exec_tick_idle_of_quiet now h.runs h.quiet hu, classifyLead, answer_cfg, hclass]

theorem QuietIdle.consumeByte_unread (h : QuietIdle s) {b : Byte} {rest : Bytes} (hu : s.unread = b :: rest) :
    (consumeByte s).unread = rest := by
  have hone : 1 ≤ s.avail := by rw [← State.unread_length, hu]; simp
  rw [State.unread_drop (s := s) (t := consumeByte s) h.runs.sc_lt h.runs.wr_lt hone rfl rfl rfl rfl, hu]
  rfl

theorem QuietIdle.consumeByte (h : QuietIdle s) {b : Byte} {rest : Bytes} (hu : s.unread = b :: rest) :
    QuietIdle (consumeByte s) where
  runs := h.runs.moved rfl rfl rfl (nextCell_lt h.runs.sc_lt) (nextCell_lt h.runs.sc_lt) h.runs.fsm_eq
  aligned := rfl
  quiet := h.quiet
  garbage b' hb' := by
    rw [h.consumeByte_unread hu] at hb'
    exact h.garbage b' (by rw [hu]; exact List.mem_cons_of_mem _ hb')

/-- As many TICKs as unread bytes empty the ring. -/
theorem QuietIdle.tickRun_empties (h : QuietIdle s) (times : List Word) (hlen : times.length = s.unread.length) :
    ∃ t, tickRun times s = some t ∧ t.fsm = .idle ∧ t.sc = s.wr ∧ t.wr = s.wr := by
  induction times generalizing s with
  | nil =>
    have hu : s.unread = [] := List.length_eq_zero_iff.mp hlen.symm
    exact ⟨s, rfl, h.runs.fsm_eq, (State.unread_eq_nil h.runs.sc_lt h.runs.wr_lt).mp hu, rfl⟩
  | cons now times ih =>
    obtain ⟨b, rest, hu⟩ := List.exists_cons_of_length_eq_add_one (hlen.symm.trans (List.length_cons ..))
    have hnext := (h.answer .none).consumeByte hu
    obtain ⟨t, hrun, hidle, hsc, hwr⟩ := ih hnext (by
      rw [(h.answer .none).consumeByte_unread hu]
      rw [hu] at hlen
      exact Nat.succ.inj hlen)
    exact ⟨t, (tickRun_cons (h.exec_tick_of_byte now hu)).trans hrun, hidle, hsc, hwr⟩

/-! ### PUSH -/

/-- After a PUSH the ring holds one byte more, or, if the write cursor caught up, none. -/
theorem pushByte_unread (hw : s.wr < s.cfg.n) (hs : s.sc < s.cfg.n) (hwf : Memory.wf s.buf) (b : Byte) :
    (pushByte b s).unread = [] ∨ (pushByte b s).unread = s.unread ++ [b] := by
  have hnext := nextCell_lt hw
  by_cases hfull : nextCell s.cfg.n s.wr = s.sc
  · exact .inl ((State.unread_eq_nil (s := pushByte b s) hs hnext).mpr hfull.symm)
  right
  have hdist := dist_next_right hs hw hfull
  have hmove : nextCell s.cfg.n s.wr ≠ s.wr := fun e => by rw [e] at hdist; omega
  have hold (k : Nat) (hk : k < dist s.cfg.n s.sc s.wr) :
      (pushByte b s).buf.read ((s.sc + k) % s.cfg.n) = s.buf.read ((s.sc + k) % s.cfg.n) := by
    refine pushByte_read_other b hwf (fun e => ?_) fun e => ?_
    · have := dist_add_left hs hw hk.le
      rw [e, dist_self hw] at this
      omega
    · have := dist_add_left (k := k) hs hnext (by omega)
      rw [e, dist_self hnext] at this
      omega
  unfold State.unread State.avail
  rw [pushByte_cfg, pushByte_sc, pushByte_wr, hdist, Memory.ringSlice_add, add_dist hs hw, Memory.ringSlice_congr hold,
    Memory.ringSlice_succ _ 0 hw, pushByte_read_wr b hwf hmove, Memory.ringSlice_zero]

theorem QuietIdle.pushByte (h : QuietIdle s) (hwf : Memory.wf s.buf) {b : Byte} (hb : leadClass s.cfg b = .garbage) :
    QuietIdle (pushByte b s) where
  runs :=
    have hcur : (Machine.pushByte b s).cursorsInRange = true :=
      State.cursorsInRange_iff.mpr ⟨nextCell_lt h.runs.wr_lt, h.runs.sc_lt, h.runs.ms_lt⟩
    ⟨h.runs.running, hcur, h.runs.fsm_eq⟩
  aligned := h.aligned
  quiet := h.quiet
  garbage b' hb' := by
    rcases pushByte_unread h.runs.wr_lt h.runs.sc_lt hwf b with hu | hu <;> rw [hu] at hb'
    · cases hb'
    · rcases List.mem_append.mp hb' with hold | hnew
      · exact h.garbage b' hold
      · rw [List.mem_singleton.mp hnew]; exact hb

/-! ### Any number of operations -/

/-- What garbage traffic keeps. -/
structure GarbageOk (c : Config) (s : State) : Prop where
  cfg : s.cfg = c
  idle : QuietIdle s
  buf_wf : Memory.wf s.buf
  released : s.asm.payOwned = false
  errors : s.errCount = 0
  progress : s.inProgress = false

theorem GarbageOk.exec_tick {c : Config} (h : GarbageOk c s) (now : Word) :
    ∃ t, exec (.tick now) s = .next t ∧ GarbageOk c t ∧ t.inbox = s.inbox := by
  have hans := h.idle.answer .none
  cases hu : s.unread with
  | nil =>
    exact ⟨_, exec_tick_idle_of_empty now h.idle.runs h.idle.quiet hu, { h with idle := hans }, rfl⟩
  | cons b rest =>
    exact ⟨_, h.idle.exec_tick_of_byte now hu, { h with idle := hans.consumeByte hu }, rfl⟩

theorem GarbageOk.exec_push {c : Config} (h : GarbageOk c s) {b : Byte} (hb : leadClass c b = .garbage) :
    ∃ t, exec (.push b) s = .next t ∧ GarbageOk c t ∧ t.inbox = s.inbox := by
  have hpush := h.idle.pushByte h.buf_wf (h.cfg ▸ hb)
  exact ⟨_, Machine.exec_push b h.idle.runs.wr_lt,
    { h with
      idle := hpush.answer .none
      buf_wf := Memory.wf_write _ _ _ (Memory.wf_write _ _ _ h.buf_wf) }, rfl⟩

theorem GarbageOk.step {c : Config} (h : GarbageOk c s) {o : PortOp} {rest : List PortOp} (hin : s.inbox = o :: rest)
    (ho : isGarbageTraffic c o) : ∃ t, step s = .next t ∧ GarbageOk c t ∧ t.inbox = rest := by
  have htaken : GarbageOk c { s with inbox := rest } :=
    { h with idle := ⟨h.idle.runs, h.idle.aligned, h.idle.quiet, h.idle.garbage⟩ }
  rcases ho with ⟨now, rfl⟩ | ⟨b, hb, rfl⟩
  · rw [step_of_decode_ok hin (encodedInstructionDecodesBack s.cfg (.tick now) rfl)]
    exact htaken.exec_tick now
  · rw [step_of_decode_ok hin (encodedInstructionDecodesBack s.cfg (.push b) rfl)]
    exact htaken.exec_push hb

theorem run_succ {M : Host.Core} {a b : M.State} {k : Nat} (h : M.step a = .next b) : M.run (k + 1) a = M.run k b := by
  rw [Host.Core.run, h]

theorem GarbageOk.run {c : Config} (ops : List PortOp) (hops : ∀ o ∈ ops, isGarbageTraffic c o) (h : GarbageOk c s)
    (hin : s.inbox = ops) : ∃ t : State, Sys2Proof.core.run ops.length (s : State) = .next t ∧ GarbageOk c t := by
  induction ops generalizing s with
  | nil => exact ⟨s, rfl, h⟩
  | cons o rest ih =>
    obtain ⟨t, hstep, ht, hrest⟩ := h.step hin (hops o (by simp))
    obtain ⟨u, hrun, hu⟩ := ih (fun o ho => hops o (List.mem_cons_of_mem _ ho)) ht hrest
    exact ⟨u, (run_succ (M := Sys2Proof.core) hstep).trans hrun, hu⟩

theorem garbageOk_reset (c : Config) (hn : 0 < c.n) (ops : List PortOp) :
    GarbageOk c { State.resetOf c with inbox := ops } where
  cfg := rfl
  idle :=
    { runs := ⟨rfl, State.cursorsInRange_iff.mpr ⟨hn, hn, hn⟩, rfl⟩
      aligned := rfl
      quiet := rfl
      garbage := by
        have hu := (State.unread_eq_nil (s := { State.resetOf c with inbox := ops }) hn hn).mpr rfl
        simp [hu] }
  buf_wf := Memory.wf_nil
  released := rfl
  errors := rfl
  progress := rfl

/-- Settles O57: garbage traffic from reset, and the TICKs that empty the ring. -/
theorem garbageNeverLeavesIdle : Obligations.GarbageNeverLeavesIdle := by
  refine ⟨fun c ops hn hops => ?traffic, fun s times hrun halign hq hg hlen => ?empties⟩
  case traffic =>
    obtain ⟨t, hrun, ht⟩ := (garbageOk_reset c hn ops).run ops hops rfl
    exact ⟨t, hrun, ht.idle.runs.fsm_eq, ht.released, ht.errors, ht.progress⟩
  case empties =>
    exact (QuietIdle.mk hrun halign hq hg).tickRun_empties times (hlen.trans State.unread_length.symm)

end Sys2Proof.Machine

/-!
## Proofs: the way back to `Idle`

O58. `State.ticksLeft` bounds the TICKs a state is away from `Idle` when each of them comes later than `T_RX` after the
one before: every such TICK lowers it.
-/

namespace Sys2Proof.Machine

variable {s t : State} {now : Word} {bs : Bytes}

/-! ### How far from `Idle` -/

/-- No byte waits for a state that needs one. -/
def State.starved (s : State) : Bool := s.unread = [] ∧ (s.fsm = .binPayloadWait → s.asm.payRem ≠ 0)

/-- TICKs to `Idle` at most, whatever bytes wait. -/
def Framing.ticksLeft : Framing → Nat
  | .idle => 0
  | .error => 1
  | .sentenceLFWait => 2
  | .sentenceWait | .binChecksumWait => 3
  | .binPayloadWait => 4
  | .binHeaderWait => 5
  | .binSyncWait => 6

/-- TICKs to `Idle` at most: a starved state takes the timeout and the Error TICK. -/
def State.ticksLeft (s : State) : Nat := if s.starved then min 2 s.fsm.ticksLeft else s.fsm.ticksLeft

theorem State.starved_iff : s.starved = true ↔ s.unread = [] ∧ (s.fsm = .binPayloadWait → s.asm.payRem ≠ 0) :=
  decide_eq_true_iff

theorem State.ticksLeft_le (s : State) : s.ticksLeft ≤ s.fsm.ticksLeft := by
  unfold State.ticksLeft
  split <;> omega

theorem State.ticksLeft_of_starved (h : s.starved = true) : s.ticksLeft ≤ 2 := by
  unfold State.ticksLeft
  rw [if_pos h]
  omega

theorem State.ticksLeft_of_bytes (h : s.unread ≠ []) : s.ticksLeft = s.fsm.ticksLeft :=
  if_neg fun hs => h (State.starved_iff.mp hs).1

/-- Outside `Idle` and `Error` there are two TICKs to go at least. -/
theorem State.two_le_ticksLeft (hi : s.fsm ≠ .idle) (he : s.fsm ≠ .error) : 2 ≤ s.ticksLeft := by
  have hf : 2 ≤ s.fsm.ticksLeft := by
    cases h : s.fsm with
    | idle => exact absurd h hi
    | error => exact absurd h he
    | sentenceWait | sentenceLFWait | binSyncWait | binHeaderWait | binPayloadWait | binChecksumWait =>
      simp [Framing.ticksLeft]
  unfold State.ticksLeft
  split <;> omega

theorem Framing.ticksLeft_le_six (f : Framing) : f.ticksLeft ≤ 6 := by cases f <;> decide

theorem Framing.idle_of_ticksLeft {f : Framing} (h : f.ticksLeft = 0) : f = .idle := by
  cases f with
  | idle => rfl
  | sentenceWait | sentenceLFWait | binSyncWait | binHeaderWait | binPayloadWait | binChecksumWait | error => cases h

theorem State.idle_of_ticksLeft (h : s.ticksLeft = 0) : s.fsm = .idle := by
  by_contra hi
  by_cases he : s.fsm = .error
  · have hone : s.ticksLeft = 1 := by simp [State.ticksLeft, he, Framing.ticksLeft]
    omega
  · have := State.two_le_ticksLeft hi he
    omega

/-! ### Loops that take every byte -/

/-- A loop that took fewer bytes than it could left none. -/
theorem consumed_unread_nil {f : Assembler → Byte → Assembler} {k : Nat} (hs : s.sc < s.cfg.n) (hw : s.wr < s.cfg.n)
    (hb : bs = s.unread.take k) (hlt : bs.length < k) : (consumed f bs now s).unread = [] := by
  have hlen : bs.length = s.avail := by
    rw [hb, List.length_take, State.unread_length] at hlt ⊢
    omega
  rw [State.unread_drop (s := s) (t := consumed f bs now s) hs hw hlen.le rfl rfl rfl rfl, hlen, ← State.unread_length,
    List.drop_length]

theorem ticksLeft_consumed {f : Assembler → Byte → Assembler} {k : Nat} (hs : s.sc < s.cfg.n) (hw : s.wr < s.cfg.n)
    (hb : bs = s.unread.take k) (hlt : bs.length < k)
    (hp : s.fsm = .binPayloadWait → (bs.foldl f s.asm).payRem ≠ 0) : (consumed f bs now s).ticksLeft ≤ 2 :=
  State.ticksLeft_of_starved (State.starved_iff.mpr ⟨consumed_unread_nil hs hw hb hlt, hp⟩)

/-- The bytes of a sentence: the next state is closer, or waits for a `CR` with no byte left. -/
theorem ticksLeft_sentence (hs : s.sc < s.cfg.n) (hw : s.wr < s.cfg.n) (hbuf : t.buf = s.buf) (hcfg : t.cfg = s.cfg)
    (hwr : t.wr = s.wr) (hsc : t.sc = (s.sc + (throughCR s.unread).length) % s.cfg.n)
    (hf : t.fsm = if chCR ∈ s.unread then .sentenceLFWait else .sentenceWait) : t.ticksLeft ≤ 2 := by
  by_cases hcr : chCR ∈ s.unread
  · exact (State.ticksLeft_le t).trans (by rw [hf, if_pos hcr]; exact le_rfl)
  · have hall : throughCR s.unread = s.unread := by
      rw [throughCR_eq, if_neg hcr, List.append_nil]
      exact List.takeWhile_eq_self_iff.mpr fun b hb => decide_eq_true fun e => hcr (e ▸ hb)
    have hempty : t.unread = [] := by
      rw [State.unread_drop hs hw ((throughCR_length_le _).trans_eq State.unread_length) hbuf hcfg hwr hsc, hall,
        List.drop_length]
    exact State.ticksLeft_of_starved (State.starved_iff.mpr ⟨hempty, by simp [hf, hcr]⟩)

theorem ticksLeft_finishHeader (s : State) : (finishHeader s).ticksLeft ≤ 4 := by
  refine (State.ticksLeft_le _).trans ?_
  rcases finishHeader_cases s with ⟨-, e⟩ | ⟨-, e⟩ <;> rw [e] <;> simp [Framing.ticksLeft]

/-- Each TICK that comes late enough is a step towards `Idle`. -/
theorem TickTo.ticksLeft_lt (ht : TickTo now s t) (hr : RingOk s) (ha : AssemblerOk s) (hi : s.fsm ≠ .idle)
    (hlate : s.fsm ≠ .error → s.cfg.tRx < now - s.msgTime) : t.ticksLeft < s.ticksLeft := by
  have hends {u : State} (hu : u.fsm.ticksLeft ≤ 1) (he : s.fsm ≠ .error) : u.ticksLeft < s.ticksLeft :=
    ((State.ticksLeft_le u).trans hu).trans_lt (State.two_le_ticksLeft hi he)
  cases ht with
  | idleHalted hf | idleEmpty hf => exact absurd hf hi
  | idleByte b rest hf => exact absurd hf hi
  | starved _ he _ _ hage => exact absurd (hlate he) hage
  | timeout _ he => exact hends le_rfl he
  | lineFeed rest hf | dropped rest hf => exact hends (Nat.zero_le 1) (by simp [hf])
  | dispatch bs hf => exact hends (Nat.zero_le 1) (by simp [hf])
  | noLF b rest hf | badSync b rest hf => exact hends le_rfl (by simp [hf])
  | badChecksum bs hf => exact hends le_rfl (by simp [hf])
  | error hf =>
    have hle := State.ticksLeft_le (errorEntry s)
    have hone : s.ticksLeft = 1 := by simp [State.ticksLeft, hf, Framing.ticksLeft]
    rw [hone]
    exact Nat.lt_succ_of_le hle
  | sentence hf hu =>
    rw [State.ticksLeft_of_bytes hu, hf]
    exact Nat.lt_succ_of_le (ticksLeft_sentence hr.sc_lt hr.wr_lt rfl rfl rfl rfl rfl)
  | sync2 rest hf hu =>
    rw [State.ticksLeft_of_bytes (s := s) (by simp [hu]), hf]
    exact Nat.lt_succ_of_le (State.ticksLeft_le _)
  | header bs hf hu hb hc =>
    rw [State.ticksLeft_of_bytes hu, hf]
    have hcnt := (ha.header hf).1
    have hlen : bs.length ≤ 4 - s.asm.hdrCnt := hb ▸ length_take_unread_le _
    rw [foldl_headerByte_hdrCnt] at hc
    exact (ticksLeft_consumed hr.sc_lt hr.wr_lt hb (by omega) (by simp [hf])).trans_lt (by decide)
  | headerDone bs hf hu =>
    rw [State.ticksLeft_of_bytes hu, hf]
    exact Nat.lt_succ_of_le (ticksLeft_finishHeader _)
  | payloadEmpty hf hrem =>
    have hfour : s.ticksLeft = 4 := by simp [State.ticksLeft, State.starved, hf, hrem, Framing.ticksLeft]
    rw [hfour]
    exact Nat.lt_succ_of_le (State.ticksLeft_le _)
  | payload bs hf hrem hu hb =>
    rw [State.ticksLeft_of_bytes hu, hf]
    rcases finishPayload_cases (consumed payloadByte bs now s) with ⟨-, e⟩ | ⟨hmore, e⟩ <;> rw [e]
    · exact Nat.lt_succ_of_le (State.ticksLeft_le _)
    · have hleft : (bs.foldl payloadByte s.asm).payRem = s.asm.payRem - bs.length := by
        rw [(foldl_payloadByte bs s.asm hr.payload_wf).1]
      have hsome : s.asm.payRem - bs.length ≠ 0 := hleft ▸ hmore
      exact (ticksLeft_consumed hr.sc_lt hr.wr_lt hb (by omega) fun _ => hmore).trans_lt (by decide)
  | checksum bs hf hu hb hc =>
    rw [State.ticksLeft_of_bytes hu, hf]
    have hcnt := (ha.checksum hf).2.1
    have hlen : bs.length ≤ 2 - s.asm.ckCnt := hb ▸ length_take_unread_le _
    rw [foldl_checksumByte] at hc
    exact (ticksLeft_consumed hr.sc_lt hr.wr_lt hb (by simp only at hc; omega) (by simp [hf])).trans_lt (by decide)

/-! ### What a TICK away from `Idle` leaves alone -/

theorem TickTo.cfg (ht : TickTo now s t) : t.cfg = s.cfg :=
  tickTo_keeps (P := fun u => u.cfg = s.cfg) (fun _ _ e h => by rw [e.frame]; exact h)
    (fun u now limit h => (sweptFrom_ledgerSweep u now limit).sameIntake.cfg.trans h)
    (fun u span h => (sentenceFrom_processSpan span u).sameIntake.cfg.trans h)
    (fun u cls id payload h => (frameFrom_dispatchFrame cls id payload u).sameIntake.cfg.trans h) rfl ht

/-- Only the sweep and a frame, which end in `Idle`, can halt the block. -/
theorem TickTo.halted (ht : TickTo now s t) (hi : s.fsm ≠ .idle) (hi' : t.fsm ≠ .idle) (hh : s.halted = false) :
    t.halted = false := by
  cases ht with
  | idleHalted hf | idleEmpty hf => exact absurd hf hi
  | idleByte b rest hf => exact absurd hf hi
  | lineFeed | dispatch | dropped | error => exact absurd rfl hi'
  | headerDone bs => rw [(framingFrom_finishHeader _).frame]; exact hh
  | payload bs => rw [(framingFrom_finishPayload _).frame]; exact hh
  | starved | timeout | sentence | noLF | sync2 | badSync | header | payloadEmpty | checksum | badChecksum => exact hh

/-- A state that is left waiting took a byte at `now`, or had an empty payload. -/
theorem TickTo.msgTime (ht : TickTo now s t) (hi : s.fsm ≠ .idle) (hlate : s.fsm ≠ .error → s.cfg.tRx < now - s.msgTime)
    (hi' : t.fsm ≠ .idle) (he' : t.fsm ≠ .error) :
    t.msgTime = now ∨ s.fsm = .binPayloadWait ∧ t.fsm = .binChecksumWait ∧ t.msgTime = s.msgTime := by
  cases ht with
  | idleHalted hf | idleEmpty hf => exact absurd hf hi
  | idleByte b rest hf => exact absurd hf hi
  | starved _ he _ _ hage => exact absurd (hlate he) hage
  | lineFeed | dispatch | dropped | error => exact absurd rfl hi'
  | timeout | noLF | badSync | badChecksum => exact absurd rfl he'
  | payloadEmpty hf => exact .inr ⟨hf, rfl, rfl⟩
  | headerDone bs =>
    rcases finishHeader_cases (consumed headerByte bs now s) with ⟨-, e⟩ | ⟨-, e⟩
    · rw [e]; exact .inl rfl
    · rw [e] at he'; exact absurd rfl he'
  | payload bs =>
    rcases finishPayload_cases (consumed payloadByte bs now s) with ⟨-, e⟩ | ⟨-, e⟩ <;> rw [e] <;> exact .inl rfl
  | sentence | sync2 | header | checksum => exact .inl rfl

/-! ### Spaced TICKs -/

/-- Two waits in a row, neither of them half the range of the clock, are longer than the first. -/
theorem lt_sub_of_spaced {limit m t₁ t₂ : Word} (h : limit < t₁ - m) (h₁ : (t₁ - m).toNat < 2 ^ 31)
    (h₂ : (t₂ - t₁).toNat < 2 ^ 31) : limit < t₂ - m := by
  have hsum : t₂ - m = (t₂ - t₁) + (t₁ - m) := by rw [sub_add_sub_cancel]
  rw [BitVec.lt_def] at h ⊢
  rw [hsum, BitVec.toNat_add]
  omega

/-- The TICKs to come find the message too old, should no byte come first; the age of a message whose payload may be
empty is also that of the next TICK's. -/
def State.lateFor (s : State) : List Word → Prop
  | [] => True
  | now :: rest =>
    (s.fsm ≠ .error → s.cfg.tRx < now - s.msgTime) ∧ (s.fsm = .binPayloadWait → (now - s.msgTime).toNat < 2 ^ 31) ∧
      spacedBy s.cfg.tRx now rest

theorem lateFor_of_spacedBy {times : List Word} (h : spacedBy s.cfg.tRx s.msgTime times) : s.lateFor times := by
  cases times with
  | nil => trivial
  | cons now rest =>
    obtain ⟨hexp, hage, hrest⟩ := h
    exact ⟨fun _ => of_decide_eq_true hexp, fun _ => hage, hrest⟩

theorem lateFor_of_error {rest : List Word} (hf : t.fsm = .error) (h : spacedBy t.cfg.tRx now rest) :
    t.lateFor rest := by
  cases rest with
  | nil => trivial
  | cons _ _ => exact ⟨fun he => absurd hf he, by simp [hf], h.2.2⟩

/-- After a TICK the others are still late for the message. -/
theorem TickTo.lateFor (ht : TickTo now s t) {rest : List Word} (hi : s.fsm ≠ .idle) (hi' : t.fsm ≠ .idle)
    (h : s.lateFor (now :: rest)) : t.lateFor rest := by
  obtain ⟨hlate, hage, hspaced⟩ := h
  rw [← ht.cfg] at hspaced
  by_cases he' : t.fsm = .error
  · exact lateFor_of_error he' hspaced
  rcases ht.msgTime hi hlate hi' he' with hm | ⟨hf, hf', hm⟩
  · exact lateFor_of_spacedBy (hm ▸ hspaced)
  · cases rest with
    | nil => trivial
    | cons next rest =>
      obtain ⟨-, hage', hrest⟩ := hspaced
      refine ⟨fun _ => ?_, by simp [hf'], hrest⟩
      rw [hm, ht.cfg]
      exact lt_sub_of_spaced (hlate (by simp [hf])) (hage hf) hage'

/-- What the TICKs on the way keep. -/
structure OnTheWay (s : State) : Prop where
  ring : RingOk s
  assembler : AssemblerOk s
  running : s.halted = false

theorem OnTheWay.tick (h : OnTheWay s) (now : Word) :
    ∃ t, exec (.tick now) s = .next t ∧ TickTo now (answer .none s) t := by
  have hcur := State.cursorsInRange_iff.mpr ⟨h.ring.wr_lt, h.ring.sc_lt, h.ring.ms_lt⟩
  have hpayload (hf : s.fsm = .binPayloadWait) : s.asm.payIdx + s.asm.payRem ≤ s.cfg.payloadCap := by
    obtain ⟨hheld, hcount, -⟩ := h.assembler.payload hf
    exact hcount.trans_le hheld.fits
  obtain ⟨t, ht⟩ := tickState_completes (s := answer .none s) (now := now) h.ring.sc_lt hpayload
    fun hf => (h.assembler.checksum hf).1.fits
  exact ⟨t, (exec_tick_running now h.running hcur).trans ht, tickTo_of_tickState (s := answer .none s) h.ring.sc_lt ht⟩

/-- As many late TICKs as are left come through `Idle`. -/
theorem OnTheWay.returns (h : OnTheWay s) (times : List Word) (hlate : s.lateFor times)
    (hlen : s.ticksLeft ≤ times.length) :
    ∃ k ≤ times.length, ∃ t, tickRun (times.take k) s = some t ∧ t.fsm = .idle := by
  induction times generalizing s with
  | nil => exact ⟨0, le_rfl, s, rfl, State.idle_of_ticksLeft (Nat.le_zero.mp hlen)⟩
  | cons now rest ih =>
    by_cases hi : s.fsm = .idle
    · exact ⟨0, Nat.zero_le _, s, rfl, hi⟩
    obtain ⟨t, hexec, ht⟩ := h.tick now
    have hsame := sameIntake_answer .none s
    have hring := h.ring.of_sameIntake hsame
    have hasm := h.assembler.of_sameIntake hsame
    by_cases hi' : t.fsm = .idle
    · exact ⟨1, by simp, t, by rw [List.take_succ_cons, tickRun_cons hexec, List.take_zero]; rfl, hi'⟩
    have hlt : t.ticksLeft < s.ticksLeft := ht.ticksLeft_lt hring hasm hi hlate.1
    have hnext : OnTheWay t := ⟨hring.tickTo ht, hasm.tickTo hring ht, ht.halted hi hi' h.running⟩
    obtain ⟨k, hk, u, hrun, hu⟩ := ih hnext (ht.lateFor hi hi' hlate) (by rw [List.length_cons] at hlen; omega)
    exact ⟨k + 1, Nat.succ_le_succ hk, u, by rw [List.take_succ_cons, tickRun_cons hexec, hrun], hu⟩

/-- Settles O58: no state is more than six TICKs away. -/
theorem returnsToIdle : Obligations.ReturnsToIdle := by
  intro s times hsound hrun hlen hspaced
  have hway : OnTheWay s := ⟨hsound.ring, hsound.assembler, hrun⟩
  have hsix : s.ticksLeft ≤ times.length := by
    rw [hlen]
    exact (State.ticksLeft_le s).trans (Framing.ticksLeft_le_six _)
  exact hlen ▸ hway.returns times (lateFor_of_spacedBy hspaced) hsix

end Sys2Proof.Machine

/-!
## Proofs: what `verify` accepts and refuses

O22: `verify_iff` in bytes, and the exclusive-or of a body with one byte changed.
-/

namespace Sys2Proof.Machine

variable {body : Bytes} {b : Byte}

/-! ### Hexadecimal digits (R94) -/

theorem hexval_eq_some_iff (h : Byte) (v : Nat) : hexval h = some v ↔
    (0x30 ≤ h.toNat ∧ h.toNat ≤ 0x39 ∧ v = h.toNat - 0x30 ∨
      0x41 ≤ h.toNat ∧ h.toNat ≤ 0x46 ∧ v = h.toNat - 0x41 + 10) := by
  unfold hexval
  split
  case isTrue hdec =>
    rw [Option.some.injEq]
    omega
  case isFalse hdec =>
    split
    case isTrue hletter =>
      rw [Option.some.injEq]
      omega
    case isFalse hletter =>
      simp only [reduceCtorEq, false_iff]
      omega

/-! ### The exclusive-or of a body -/

theorem foldl_xor (acc : Byte) (bs : Bytes) : bs.foldl (· ^^^ ·) acc = acc ^^^ xorAll bs := by
  induction bs generalizing acc with
  | nil => exact (BitVec.xor_zero).symm
  | cons c bs ih =>
    rw [xorAll, List.foldl_cons, List.foldl_cons, ih, ih]
    simp [BitVec.xor_assoc]

theorem xorAll_append (as bs : Bytes) : xorAll (as ++ bs) = xorAll as ^^^ xorAll bs := by
  rw [xorAll, List.foldl_append, foldl_xor]
  rfl

theorem xorAll_cons (c : Byte) (bs : Bytes) : xorAll (c :: bs) = c ^^^ xorAll bs := by
  rw [xorAll, List.foldl_cons, foldl_xor]
  simp

/-- The exclusive-or tells a body from the same body with one byte changed. -/
theorem getD_eq_of_xorAll_set {k : Nat} (hk : k < body.length) (h : xorAll (body.set k b) = xorAll body) :
    body.getD k 0 = b := by
  have hold : body = body.take k ++ body[k] :: body.drop (k + 1) := by simp
  rw [List.set_eq_take_cons_drop b hk] at h
  conv at h => rhs; rw [hold]
  rw [xorAll_append, xorAll_append, BitVec.xor_right_inj, xorAll_cons, xorAll_cons, BitVec.xor_left_inj] at h
  rw [List.getD_eq_getElem _ _ hk, h]

/-! ### The obligation -/

theorem verify_sentenceSpan {addr : Bytes} {fields : List Bytes} (h : chStar ∉ sentenceBody addr fields) :
    verify (sentenceSpan addr fields) = true := by
  have hlt := (xorAll (sentenceBody addr fields)).isLt
  have hhigh := hexval_hexDigit ((xorAll (sentenceBody addr fields)).toNat / 16) (by omega)
  have hlow := hexval_hexDigit ((xorAll (sentenceBody addr fields)).toNat % 16) (by omega)
  refine (verify_iff _).mpr ⟨_, _, _, _, _, ?_, h, hhigh, hlow, (Nat.div_add_mod _ 16).symm⟩
  simp [sentenceSpan, hex2]

theorem bodyOf_verified {h1 h2 : Byte} (hb : chStar ∉ body) :
    bodyOf (chDollar :: body ++ [chStar, h1, h2, chCR]) = body := by
  have hall : ∀ b ∈ body, decide (b ≠ chStar) = true := fun b hm => decide_eq_true (ne_of_mem_of_not_mem hm hb)
  rw [bodyOf, List.cons_append, List.drop_succ_cons, List.drop_zero, List.takeWhile_append_of_pos hall,
    List.takeWhile_cons_of_neg (by simp), List.append_nil]

/-- The digits stay, so the exclusive-or would have to stay too, and one changed byte changes it. -/
theorem verify_set_eq_false {span : Bytes} {k : Nat} (hv : verify span = true) (hk : k < (bodyOf span).length)
    (hne : (bodyOf span).getD k 0 ≠ b) : verify (span.set (k + 1) b) = false := by
  obtain ⟨body, h1, h2, v1, v2, rfl, hstar, hv1, hv2, hx⟩ := (verify_iff span).mp hv
  rw [bodyOf_verified hstar] at hk hne
  rw [Bool.eq_false_iff]
  intro hv'
  obtain ⟨body', h1', h2', v1', v2', hspan, -, hv1', hv2', hx'⟩ := (verify_iff _).mp hv'
  have hset : (chDollar :: body ++ [chStar, h1, h2, chCR]).set (k + 1) b =
      chDollar :: body.set k b ++ [chStar, h1, h2, chCR] := by
    rw [List.cons_append, List.set_cons_succ, List.set_append_left _ _ hk, List.cons_append]
  rw [hset] at hspan
  obtain ⟨hcons, htrailer⟩ := List.append_inj' hspan rfl
  obtain rfl : body.set k b = body' := List.tail_eq_of_cons_eq hcons
  obtain ⟨rfl, rfl⟩ : h1 = h1' ∧ h2 = h2' := by simpa using htrailer
  obtain rfl : v1 = v1' := Option.some.inj (hv1.symm.trans hv1')
  obtain rfl : v2 = v2' := Option.some.inj (hv2.symm.trans hv2')
  exact hne (getD_eq_of_xorAll_set hk (BitVec.eq_of_toNat_eq (hx'.trans hx.symm)))

/-- Settles O22, from the exact form of `verify` and the exclusive-or of a changed body. -/
theorem verifyAcceptsBuiltRejectsChanged : Obligations.VerifyAcceptsBuiltRejectsChanged := by
  refine ⟨fun span => ?_, fun addr fields => verify_sentenceSpan, fun span k b => verify_set_eq_false⟩
  simp only [← hexval_eq_some_iff]
  exact verify_iff span

end Sys2Proof.Machine

/-!
## Proofs: numbers and texts of a sentence

R197, R198, R204, R205: the value of a string of decimal digits, what `parse_dec` reads from a field, and the text `dec`
writes.
-/

namespace Sys2Proof.Machine

/-! ### Strings of decimal digits -/

/-- The digits of a number as text, most significant first. -/
def decimalText (ds : List Nat) : Bytes := ds.map (fun d => BitVec.ofNat 8 (0x30 + d))

theorem toNat_digit {d : Nat} (h : d < 10) : (BitVec.ofNat 8 (0x30 + d)).toNat = 0x30 + d := by
  rw [BitVec.toNat_ofNat]
  omega

theorem isDigit_of_mem_decimalText {ds : List Nat} (h : ∀ d ∈ ds, d < 10) : ∀ b ∈ decimalText ds, isDigit b = true := by
  intro b hb
  obtain ⟨d, hd, rfl⟩ := List.mem_map.mp hb
  have hlt := h d hd
  rw [isDigit, toNat_digit hlt]
  simp
  omega

theorem decimalText_take (ds : List Nat) (p : Nat) : (decimalText ds).take p = decimalText (ds.take p) :=
  List.map_take.symm

@[simp] theorem decimalText_length (ds : List Nat) : (decimalText ds).length = ds.length := List.length_map _

theorem digitsValue_decimalText {ds : List Nat} (h : ∀ d ∈ ds, d < 10) :
    digitsValue (decimalText ds) = Nat.ofDigits 10 ds.reverse := by
  induction ds using List.reverseRecOn with
  | nil => rfl
  | append_singleton ds d ih =>
    have hd : d < 10 := h d (by simp)
    rw [decimalText, List.map_append, List.map_singleton, digitsValue_append_singleton, ← decimalText,
      ih fun e he => h e (by simp [he]), toNat_digit hd, List.reverse_append, List.reverse_singleton,
      List.singleton_append, Nat.ofDigits_cons]
    omega

/-- Cutting a fraction to `p` digits and scaling it is the whole fraction scaled, rounded down. -/
theorem ofDigits_take_mul (fracs : List Nat) (h : ∀ d ∈ fracs, d < 10) (p : Nat) :
    Nat.ofDigits 10 (fracs.take p).reverse * 10 ^ (p - (fracs.take p).length) =
      Nat.ofDigits 10 fracs.reverse * 10 ^ p / 10 ^ fracs.length := by
  rcases Nat.le_total fracs.length p with hle | hle
  · rw [List.take_of_length_le hle, Nat.mul_div_assoc _ (Nat.pow_dvd_pow 10 hle), Nat.pow_div hle (by decide)]
  · have hcut : 10 ^ fracs.length = 10 ^ (fracs.length - p) * 10 ^ p := by rw [← pow_add, Nat.sub_add_cancel hle]
    rw [List.length_take_of_le hle, Nat.sub_self, pow_zero, mul_one, hcut,
      Nat.mul_div_mul_right _ _ (by positivity), Nat.ofDigits_div_pow_eq_ofDigits_drop _ (by decide) _ (by simpa using h),
      List.drop_reverse, Nat.sub_sub_self hle]

/-! ### What `parse_dec` reads (R197) -/

theorem parseDec_false (f : Bytes) (p : Nat) : parseDec f p false = (false, unsignedValue f p) := by
  refine Prod.ext ?_ (parseDec_unsigned f p)
  cases f with
  | nil => rfl
  | cons b rest => simp [parseDec]

theorem parseDec_minus (f : Bytes) (p : Nat) : parseDec (chMinus :: f) p true = (true, unsignedValue f p) := by
  simp [parseDec]

/-- Where no sign is written, reading signs makes no difference. -/
theorem parseDec_signed_of_head_ne {f : Bytes} (h : f.head? ≠ some chMinus) (p : Nat) :
    parseDec f p true = parseDec f p false := by
  cases f with
  | nil => rfl
  | cons b rest =>
    have hb : b ≠ chMinus := by simpa using h
    simp [parseDec, hb]

theorem takeWhile_decimalText {ds : List Nat} {rest : Bytes} (h : ∀ d ∈ ds, d < 10)
    (hr : ∀ b ∈ rest.head?, isDigit b = false) : (decimalText ds ++ rest).takeWhile isDigit = decimalText ds := by
  have hrest : rest.takeWhile isDigit = [] := by
    cases rest with
    | nil => rfl
    | cons b rest => exact List.takeWhile_cons_of_neg (by simp [hr b rfl])
  rw [List.takeWhile_append_of_pos (isDigit_of_mem_decimalText h), hrest, List.append_nil]

theorem dropWhile_decimalText {ds : List Nat} {rest : Bytes} (h : ∀ d ∈ ds, d < 10)
    (hr : ∀ b ∈ rest.head?, isDigit b = false) : (decimalText ds ++ rest).dropWhile isDigit = rest := by
  rw [List.dropWhile_append_of_pos (isDigit_of_mem_decimalText h)]
  cases rest with
  | nil => rfl
  | cons b rest => exact List.dropWhile_cons_of_neg (by simp [hr b rfl])

/-- A field is its leading digits and the fraction that what follows them gives. -/
theorem unsignedValue_decimalText {ints : List Nat} {rest : Bytes} (h : ∀ d ∈ ints, d < 10)
    (hr : ∀ b ∈ rest.head?, isDigit b = false) (p : Nat) :
    unsignedValue (decimalText ints ++ rest) p = Nat.ofDigits 10 ints.reverse * 10 ^ p + fractionValue p rest := by
  rw [unsignedValue, takeWhile_decimalText h hr, dropWhile_decimalText h hr, digitsValue_decimalText h]

theorem fractionValue_of_no_dot {rest : Bytes} (h : rest.head? ≠ some chDot) (p : Nat) : fractionValue p rest = 0 := by
  cases rest with
  | nil => rfl
  | cons b rest => exact if_neg (by simpa using h)

theorem fractionValue_dot {fracs : List Nat} {tail : Bytes} (h : ∀ d ∈ fracs, d < 10)
    (ht : ∀ b ∈ tail.head?, isDigit b = false) (p : Nat) :
    fractionValue p (chDot :: (decimalText fracs ++ tail)) =
      Nat.ofDigits 10 fracs.reverse * 10 ^ p / 10 ^ fracs.length := by
  rw [fractionValue, if_pos rfl, takeWhile_decimalText h ht, decimalText_take,
    digitsValue_decimalText fun d hd => h d (List.mem_of_mem_take hd), decimalText_length, ofDigits_take_mul fracs h]

theorem isDigit_eq_false_iff (b : Byte) : isDigit b = false ↔ ¬(0x30 ≤ b.toNat ∧ b.toNat ≤ 0x39) := by
  rw [← Bool.not_eq_true, isDigit, Bool.and_eq_true, decide_eq_true_eq, decide_eq_true_eq]

/-! ### What `dec` writes (R198) -/

theorem decDigits_eq (fuel v : Nat) (acc : Bytes) (h : v ≤ fuel) :
    decDigits fuel v acc = decimalText (Nat.digits 10 v).reverse ++ acc := by
  induction fuel generalizing v acc with
  | zero =>
    obtain rfl : v = 0 := Nat.le_zero.mp h
    rfl
  | succ fuel ih =>
    rw [decDigits]
    split
    case isTrue hv =>
      subst hv
      rfl
    case isFalse hv =>
      rw [ih (v / 10) _ (by omega), Nat.digits_def' (by decide) (Nat.pos_of_ne_zero hv), List.reverse_cons]
      simp [decimalText]

theorem dec_eq (v : Nat) : dec v = if v = 0 then [chZero] else decimalText (Nat.digits 10 v).reverse := by
  rw [dec, decDigits_eq v v [] le_rfl, List.append_nil]

/-! ### Coordinates (R204, R205) -/

theorem coordDeg_eq (f : Bytes) : coordDeg f = (parseDec f 4 false).2 / 1000000 := Nat.div_div_eq_div_mul ..

theorem coordM10k_eq (f : Bytes) : coordM10k f = (parseDec f 4 false).2 % 1000000 := by
  unfold coordM10k
  omega

theorem s32_eq (negative : Bool) (v : Int) :
    s32 negative v = if negative then -BitVec.ofInt 32 v else BitVec.ofInt 32 v := by
  cases negative with
  | false => rfl
  | true => exact BitVec.ofInt_neg

end Sys2Proof.Machine

/-!
## Proofs: what each sentence writes

O24 to O29: one equation per update of the record and of the tables, and each sentence is a chain of them.
-/

namespace Sys2Proof.Machine

variable (s : State) (span : Bytes)

/-! ### The updates as equations -/

theorem updateLat_eq (lat ns : Bytes) : updateLat lat ns s = { s with fix := { s.fix with
    latFx := if lat = [] ∨ ns = [] then s.fix.latFx else latlonFx s.cfg lat (ns.head? = some chS)
    latStr := if lat = [] ∨ ns = [] then s.fix.latStr else latlonText lat (ns.head? = some chS) ++ ns.take 1 } } := by
  cases lat with
  | nil => rfl
  | cons b lat =>
    cases ns with
    | nil => rfl
    | cons d ns => simp [updateLat]

theorem updateLon_eq (lon ew : Bytes) : updateLon lon ew s = { s with fix := { s.fix with
    lonFx := if lon = [] ∨ ew = [] then s.fix.lonFx else latlonFx s.cfg lon (ew.head? = some chW)
    lonStr := if lon = [] ∨ ew = [] then s.fix.lonStr else latlonText lon (ew.head? = some chW) ++ ew.take 1 } } := by
  cases lon with
  | nil => rfl
  | cons b lon =>
    cases ew with
    | nil => rfl
    | cons d ew => simp [updateLon]

theorem updateAlt_eq (alt : Bytes) : updateAlt alt s = { s with fix := { s.fix with
    altM := if alt = [] then s.fix.altM else s32 (parseDec alt 0 true).1 (parseDec alt 0 true).2
    altStr := if alt = [] then s.fix.altStr else alt ++ s.cfg.sufAlt } } := by
  cases alt <;> rfl

theorem updateUsed_eq (used : Bytes) : updateUsed used s = { s with fix := { s.fix with
    satsUsedStr := if used = [] then s.fix.satsUsedStr else used } } := by
  cases used <;> rfl

theorem updateHdg_eq (hdg : Bytes) : updateHdg hdg s = { s with fix := { s.fix with
    hdgX100 := if hdg = [] then s.fix.hdgX100 else BitVec.ofNat 32 (parseDec hdg 2 false).2
    hdgStr := if hdg = [] then s.fix.hdgStr else hdg ++ s.cfg.sufHdg } } := by
  cases hdg <;> rfl

theorem updateSpd_eq (spd : Bytes) : updateSpd spd s = { s with fix := { s.fix with
    spdX1000 := if spd = [] then s.fix.spdX1000 else BitVec.ofNat 32 (parseDec spd 3 false).2
    spdStr := if spd = [] then s.fix.spdStr else spd ++ s.cfg.sufSpd } } := by
  cases spd <;> rfl

theorem updateTracked_eq (tracked : Bytes) : updateTracked tracked s = { s with fix := { s.fix with
    satsTrkStr := if tracked = [] then s.fix.satsTrkStr else tracked } } := by
  cases tracked <;> rfl

/-! ### Position, fix quality, speed and heading, any other address -/

theorem execGpgga_eq : exec (.gpgga span) s = .next (processPos span s) := rfl

/-- Settles O24: the chain of updates, then the numbers and texts of a coordinate. -/
theorem positionSentenceUpdatesRecord : Obligations.PositionSentenceUpdatesRecord := by
  refine ⟨?_, ?_, dec_eq, s32_eq⟩
  · rintro s span lat ns lon ew alt used rfl rfl rfl rfl rfl rfl
    rw [execGpgga_eq, processPos, updateLat_eq, updateLon_eq, updateAlt_eq, updateUsed_eq]
    rfl
  · rintro c f negative v deg m10k rfl rfl rfl
    rw [← coordDeg_eq, ← coordM10k_eq]
    refine ⟨rfl, ?_⟩
    rw [latlonText, dec5, ← List.append_assoc]
    rfl

/-- Settles O25: what a position sentence writes, for the fields `"4807.038"`, `"N"`, `"01131.000"`, `"E"`, `"545.4"` and
`"08"` of this one. -/
theorem sourcePositionSentence : Obligations.SourcePositionSentence := by
  have hwrites := positionSentenceUpdatesRecord.1
  refine (hwrites _ _ [0x34, 0x38, 0x30, 0x37, 0x2E, 0x30, 0x33, 0x38] [0x4E]
    [0x30, 0x31, 0x31, 0x33, 0x31, 0x2E, 0x30, 0x30, 0x30] [0x45] [0x35, 0x34, 0x35, 0x2E, 0x34] [0x30, 0x38]
    ?lat ?ns ?lon ?ew ?alt ?used).trans (congrArg Host.Outcome.next ?values)
  case lat | ns | lon | ew | alt | used => decide
  case values => decide +kernel

/-- Settles O26: `fixTag` of the mode field, and the two extractions (R195). -/
theorem fixModeSelectsTag : Obligations.FixModeSelectsTag := by
  intro s span
  have htrunc : [0, s.cfg.fFixmode].any (fieldTruncated s.cfg span) =
      (fieldTruncated s.cfg span 0 || fieldTruncated s.cfg span s.cfg.fFixmode) := by simp
  rw [← htrunc]
  rfl

/-- Settles O27: the chain of updates, then what `parse_dec` reads. -/
theorem speedHeadingSentenceUpdatesRecord : Obligations.SpeedHeadingSentenceUpdatesRecord := by
  refine ⟨?_, fun ints fracs tail p hdigits htail => ?_, fun f p => ⟨?_, fun hf => parseDec_signed_of_head_ne hf p⟩⟩
  · rintro s span hdg spd rfl rfl
    have hexec : exec (.gpvtg span) s = .next (processSpdhdg span s) := rfl
    have htrunc : [0, s.cfg.fHdg, s.cfg.fSpd].any (fieldTruncated s.cfg span) = (fieldTruncated s.cfg span 0 ||
        (fieldTruncated s.cfg span s.cfg.fHdg || fieldTruncated s.cfg span s.cfg.fSpd)) := by simp
    rw [hexec, processSpdhdg, updateHdg_eq, updateSpd_eq, ← htrunc]
    rfl
  · obtain ⟨hints, hfracs⟩ := List.forall_mem_append.mp hdigits
    simp only [← isDigit_eq_false_iff] at htail
    rw [← decimalText, ← decimalText, parseDec_false, parseDec_false]
    refine ⟨fun hdot => ?_, ?_⟩
    · rw [unsignedValue_decimalText hints htail, fractionValue_of_no_dot hdot, Nat.add_zero]
    · have hdot : ∀ b ∈ (chDot :: (decimalText fracs ++ tail)).head?, isDigit b = false := by
        rintro b ⟨⟩
        decide
      rw [List.append_assoc, List.cons_append, ← fractionValue_dot hfracs htail]
      exact congrArg (Prod.mk false) (unsignedValue_decimalText hints hdot p)
  · rw [parseDec_false]
    exact parseDec_minus f p

/-- Settles O29: `processOther`, and the one extraction (R195). -/
theorem unknownAddressIsCounted : Obligations.UnknownAddressIsCounted := by
  intro s span
  have htrunc : [0].any (fieldTruncated s.cfg span) = fieldTruncated s.cfg span 0 := by simp
  rw [← htrunc]
  rfl

end Sys2Proof.Machine

/-!
## Proofs: satellites in view

O28: what any list of pairs writes into the incoming table, and the state a sentence writes its pairs into.
-/

namespace Sys2Proof.Machine

variable {s : State} {span : Bytes} {pos : Nat}

/-! ### The roles of the tables (R215) -/

theorem setIncoming_setIncoming (l l' : List SvRecord) (s : State) :
    setIncoming l (setIncoming l' s) = setIncoming l s := by
  unfold setIncoming
  cases h : s.curSel <;> simp

@[simp] theorem swapTables_curSel (s : State) : (swapTables s).curSel = !s.curSel := setIncoming_curSel ..

@[simp] theorem swapTables_current (s : State) : (swapTables s).current = s.incoming := by
  rw [swapTables, setIncoming_current]
  unfold State.current State.incoming
  cases s.curSel <;> rfl

@[simp] theorem swapTables_incoming (s : State) : (swapTables s).incoming = clearedTable s.cfg.svCap :=
  setIncoming_incoming ..

/-- Only the tables and their roles differ. -/
def TablesFrom (s t : State) : Prop :=
  ∃ first second sel, t = { s with sv0 := first, sv1 := second, curSel := sel }

theorem TablesFrom.refl (s : State) : TablesFrom s s := ⟨_, _, _, rfl⟩

theorem TablesFrom.trans {s t u : State} (h : TablesFrom s t) (h' : TablesFrom t u) : TablesFrom s u := by
  obtain ⟨_, _, _, rfl⟩ := h
  obtain ⟨_, _, _, rfl⟩ := h'
  exact ⟨_, _, _, rfl⟩

theorem tablesFrom_setIncoming (l : List SvRecord) (s : State) : TablesFrom s (setIncoming l s) :=
  ⟨_, _, s.curSel, setIncoming_frame l s⟩

theorem tablesFrom_swapTables (s : State) : TablesFrom s (swapTables s) :=
  TablesFrom.trans ⟨_, _, !s.curSel, rfl⟩ (tablesFrom_setIncoming _ _)

theorem TablesFrom.updateTracked {s t : State} (h : TablesFrom s t) (tracked : Bytes) :
    TablesFrom (updateTracked tracked s) (updateTracked tracked t) := by
  obtain ⟨_, _, _, rfl⟩ := h
  rw [updateTracked_eq, updateTracked_eq]
  exact ⟨_, _, _, rfl⟩

theorem TablesFrom.raiseFlag {s t : State} (h : TablesFrom s t) (bit : BitVec 4) :
    TablesFrom (raiseFlag bit s) (raiseFlag bit t) := by
  obtain ⟨_, _, _, rfl⟩ := h
  exact ⟨_, _, _, rfl⟩

/-! ### The pairs (R217) -/

/-- The record of pair `k`. -/
def pairRecord (c : Config) (span : Bytes) (k : Nat) : SvRecord :=
  ⟨BitVec.ofNat 8 (parseDec (field c span (svIdField c k)) 0 false).2,
   BitVec.ofNat 8 (parseDec (field c span (svSnrField c k)) 0 false).2⟩

/-- `l` is the incoming table of `s` after the pairs `ks` of a sentence at position `pos`. -/
structure PairsWritten (span : Bytes) (pos : Nat) (ks : List Nat) (s : State) (l : List SvRecord) : Prop where
  length : l.length = s.incoming.length
  written : ∀ k ∈ ks, (pos - 1) * 4 + k < s.cfg.svCap → field s.cfg span (svIdField s.cfg k) ≠ [] →
    l[(pos - 1) * 4 + k]? = some (pairRecord s.cfg span k)
  kept : ∀ j, (∀ k ∈ ks, j = (pos - 1) * 4 + k → field s.cfg span (svIdField s.cfg k) = []) →
    l[j]? = s.incoming[j]?

/-- Pairs of different numbers have different slots, so a later pair leaves what an earlier one wrote. -/
theorem foldl_writePair_spec {ks : List Nat} (hks : ks.Nodup) (hs : s.incoming.length = s.cfg.svCap) :
    ∃ l, ks.foldl (writePair span pos) s = setIncoming l s ∧ PairsWritten span pos ks s l := by
  induction ks generalizing s with
  | nil => exact ⟨s.incoming, (setIncoming_self s).symm, rfl, by simp, fun _ _ => rfl⟩
  | cons k ks ih =>
    obtain ⟨hk, hks⟩ := List.nodup_cons.mp hks
    obtain ⟨hframe, hlen, hslot⟩ := writePair_spec span pos s k
    have hcfg : (writePair span pos s k).cfg = s.cfg := by rw [hframe, setIncoming_cfg]
    obtain ⟨l, hl, hw⟩ := ih hks (by rw [hlen, hcfg, hs])
    obtain ⟨hwlen, hwritten, hkept⟩ := hw
    rw [hcfg] at hwritten hkept
    refine ⟨l, ?_, hwlen.trans hlen, fun i hi hroom hid => ?_, fun j hj => ?_⟩
    · rw [List.foldl_cons, hl, hframe, setIncoming_setIncoming]
    · rcases List.mem_cons.mp hi with rfl | hi
      · rw [hkept _ fun i' hi' hsame => absurd hi' (Nat.add_left_cancel hsame ▸ hk), hslot,
          if_pos ⟨hid, hroom, rfl, hs ▸ hroom⟩]
        rfl
      · exact hwritten i hi hroom hid
    · rw [hkept j fun i hi => hj i (List.mem_cons_of_mem k hi), hslot,
        if_neg fun h => h.1 (hj k List.mem_cons_self h.2.2.1)]

/-! ### The state the pairs are written into (R214 to R216) -/

/-- After the swap, if any, and the satellites tracked. -/
def satsBase (span : Bytes) (s : State) : State :=
  updateTracked (field s.cfg span s.cfg.fSvtot)
    (if seriesPos s.cfg span = 1 then swapTables (noteTruncation span (svFields s.cfg) s)
      else noteTruncation span (svFields s.cfg) s)

theorem processSats_of_zero (h : seriesPos s.cfg span = 0) :
    processSats span s = noteTruncation span [0, s.cfg.fSvpos] s := if_pos h

theorem processSats_of_pos (h : seriesPos s.cfg span ≠ 0) : processSats span s =
    raiseFlag NEW_SAT ([0, 1, 2, 3].foldl (writePair span (seriesPos s.cfg span)) (satsBase span s)) := if_neg h

theorem satsBase_cfg (span : Bytes) (s : State) : (satsBase span s).cfg = s.cfg := by
  rw [satsBase, updateTracked_eq]
  split <;> simp

theorem satsBase_curSel (span : Bytes) (s : State) :
    (satsBase span s).curSel = if seriesPos s.cfg span = 1 then !s.curSel else s.curSel := by
  rw [satsBase, updateTracked_eq]
  split <;> simp

@[simp] theorem updateTracked_current (tracked : Bytes) (s : State) :
    (updateTracked tracked s).current = s.current := by
  rw [updateTracked_eq]
  rfl

@[simp] theorem updateTracked_incoming (tracked : Bytes) (s : State) :
    (updateTracked tracked s).incoming = s.incoming := by
  rw [updateTracked_eq]
  rfl

theorem satsBase_current (span : Bytes) (s : State) :
    (satsBase span s).current = if seriesPos s.cfg span = 1 then s.incoming else s.current := by
  rw [satsBase, updateTracked_current]
  split
  · rw [swapTables_current]
    rfl
  · rfl

theorem satsBase_incoming (span : Bytes) (s : State) : (satsBase span s).incoming =
    if seriesPos s.cfg span = 1 then clearedTable s.cfg.svCap else s.incoming := by
  rw [satsBase, updateTracked_incoming]
  split
  · rw [swapTables_incoming]
    rfl
  · rfl

theorem tablesFrom_satsBase (span : Bytes) (s : State) :
    TablesFrom (updateTracked (field s.cfg span s.cfg.fSvtot) (noteTruncation span (svFields s.cfg) s))
      (satsBase span s) := by
  refine TablesFrom.updateTracked ?_ _
  split
  · exact tablesFrom_swapTables _
  · exact .refl _

theorem any_svFields (c : Config) (p : Int → Bool) : (svFields c).any p =
    (p 0 || p c.fSvpos || p c.fSvtot || [0, 1, 2, 3].any (fun k => p (svIdField c k) || p (svSnrField c k))) := by
  simp [svFields, Bool.or_assoc]

/-- Settles O28: the pairs go into the incoming table of `satsBase`. -/
theorem satelliteSentenceFillsIncoming : Obligations.SatelliteSentenceFillsIncoming := by
  rintro s span pos idOf snrOf h0 h1 hpos hid hsnr
  obtain rfl : idOf = svIdField s.cfg := funext hid
  obtain rfl : snrOf = svSnrField s.cfg := funext hsnr
  obtain rfl : pos = seriesPos s.cfg span := hpos
  refine ⟨processSats span s, rfl, fun hzero => ?_, fun hpos => ?_⟩
  · rw [processSats_of_zero hzero, noteTruncation]
    simp
  have htable : s.incoming.length = s.cfg.svCap := by
    unfold State.incoming
    split
    · exact h0
    · exact h1
  have hbase : (satsBase span s).incoming.length = (satsBase span s).cfg.svCap := by
    rw [satsBase_incoming, satsBase_cfg]
    split
    · exact List.length_replicate
    · exact htable
  obtain ⟨l, hl, hlen, hwritten, hkept⟩ :=
    foldl_writePair_spec (span := span) (pos := seriesPos s.cfg span) (ks := [0, 1, 2, 3]) (by decide) hbase
  rw [satsBase_cfg] at hwritten hkept
  have hincoming : (raiseFlag NEW_SAT (setIncoming l (satsBase span s))).incoming = l := setIncoming_incoming ..
  have hcurrent : (raiseFlag NEW_SAT (setIncoming l (satsBase span s))).current = (satsBase span s).current :=
    setIncoming_current ..
  rw [processSats_of_pos hpos.ne', hl, hincoming, hcurrent]
  refine ⟨?_, ?_, satsBase_current span s, ?_, fun k hk => ?_, fun j hj hfree => ?_⟩
  · obtain ⟨_, _, _, ht⟩ :=
      ((tablesFrom_satsBase span s).trans (tablesFrom_setIncoming l _)).raiseFlag NEW_SAT
    rw [ht, ← any_svFields, updateTracked_eq]
    rfl
  · rw [raiseFlag_curSel, setIncoming_curSel, satsBase_curSel]
  · rw [hlen, hbase, satsBase_cfg]
  · exact hwritten k (by simp; omega)
  · rw [hkept j fun k hk => hfree k (by simp at hk; omega), satsBase_incoming]
    split
    · exact List.getElem?_replicate_of_lt hj
    · rfl

end Sys2Proof.Machine

/-!
## Proofs: the checksum of a frame

O30 and O31. Both accumulators after one more byte are known from those before it (`cksum_concat`), so the closed form
goes by induction from the end of the bytes.
-/

namespace Sys2Proof.Machine

/-- One more byte at the end (R241). -/
theorem cksum_concat (bs : Bytes) (x : Byte) : cksum (bs ++ [x]) = cksumStep (cksum bs) x := cksum_append bs [x]

/-- The sum of the second accumulator (R242): a byte counts once for itself and once for each byte after it. -/
def weightedSum (bs : Bytes) : Nat :=
  ((List.range bs.length).map (fun k => (bs.length - k) * (bs.getD k 0).toNat)).sum

theorem weightedSum_cons (b : Byte) (bs : Bytes) :
    weightedSum (b :: bs) = (bs.length + 1) * b.toNat + weightedSum bs := by
  simp [weightedSum, List.range_succ_eq_map, Function.comp_def]

/-- A byte at the end counts once, and every byte before it once more. -/
theorem weightedSum_concat (bs : Bytes) (x : Byte) :
    weightedSum (bs ++ [x]) = weightedSum bs + (bs.map BitVec.toNat).sum + x.toNat := by
  induction bs with
  | nil => simp [weightedSum]
  | cons b bs ih =>
    rw [List.cons_append, weightedSum_cons, weightedSum_cons, ih, List.length_append, List.length_singleton,
      List.map_cons, List.sum_cons]
    ring

/-- Settles O30, by induction from the end of the bytes. -/
theorem checksumClosedForm : Obligations.ChecksumClosedForm := by
  intro bs
  change _ ∧ _ = weightedSum bs % 256
  induction bs using List.reverseRecOn with
  | nil => exact ⟨rfl, rfl⟩
  | append_singleton bs x ih =>
    obtain ⟨ih₁, ih₂⟩ := ih
    rw [cksum_concat, weightedSum_concat, List.map_append, List.sum_append, List.map_singleton, List.sum_singleton]
    simp only [cksumStep, BitVec.toNat_add, ih₁, ih₂]
    omega

/-- Only a zero byte leaves the first accumulator as it is, and it adds that one to the second. -/
theorem cksum_concat_eq_iff (bs : Bytes) (x : Byte) :
    cksum (bs ++ [x]) = cksum bs ↔ x = 0 ∧ (cksum (bs ++ [x])).1 = 0 := by
  rw [cksum_concat, Prod.ext_iff]
  change (cksum bs).1 + x = (cksum bs).1 ∧ (cksum bs).2 + ((cksum bs).1 + x) = (cksum bs).2 ↔
    x = 0 ∧ (cksum bs).1 + x = 0
  rw [add_eq_left, add_eq_left]

/-- Settles O31: the decoder accepts exactly what the builder writes. -/
theorem builtFrameReverifies : Obligations.BuiltFrameReverifies :=
  ⟨fun _ cls id payload hlen hcap =>
    decodeFrame_eq_ok_iff.mpr ⟨cls, id, payload, rfl, payloadFits_iff.mpr ⟨hlen, hcap⟩, rfl⟩,
    cksum_concat_eq_iff⟩

end Sys2Proof.Machine

/-!
## Proofs: a waiting frame, TICK by TICK

O60: the lead byte, `SYNC2`, the header, the payload, the checksum bytes. `inFrame` is the state between two of these
TICKs; only the assembler needs more than a count of bytes.
-/

namespace Sys2Proof.Machine

variable {s : State} {a : Assembler} {st : Framing} {k : Nat} {cls id : Byte} {payload more : Bytes}

/-- `k` bytes into a frame that was waiting at the scan cursor of `s`: the framing state, the time of the last byte and
the assembler. -/
def inFrame (st : Framing) (k : Nat) (now : Word) (a : Assembler) (s : State) : State :=
  { s with
    result := .none, sc := (s.sc + k) % s.cfg.n, ms := (s.sc + k) % s.cfg.n
    inProgress := true, msgTime := now, fsm := st, asm := a }

theorem inFrame_runs {st' : Framing} (hrun : s.runs st') (now : Word) : (inFrame st k now a s).runs st :=
  have hcell : (s.sc + k) % s.cfg.n < s.cfg.n := Nat.mod_lt _ (Nat.zero_lt_of_lt hrun.sc_lt)
  hrun.moved rfl rfl rfl hcell hcell rfl

theorem inFrame_unread {st' : Framing} (hrun : s.runs st') {taken : Bytes} (hu : s.unread = taken ++ more)
    (hk : taken.length = k) (now : Word) : (inFrame st k now a s).unread = more := by
  have hle : k ≤ s.avail := by rw [← State.unread_length, hu, List.length_append]; omega
  rw [State.unread_drop (s := s) (t := inFrame st k now a s) hrun.sc_lt hrun.wr_lt hle rfl rfl rfl rfl, hu,
    List.drop_left' hk]

theorem inFrame_sc_ne_wr {st' : Framing} (hrun : s.runs st') {now : Word}
    (h : (inFrame st k now a s).unread ≠ []) : (inFrame st k now a s).sc ≠ (inFrame st k now a s).wr := fun he =>
  have hin : (inFrame st k now a s).runs st := inFrame_runs hrun now
  h ((State.unread_eq_nil hin.sc_lt hin.wr_lt).mpr he)

theorem add_mod_add (n c k j : Nat) : ((c + k) % n + j) % n = (c + (k + j)) % n := by
  rw [Nat.mod_add_mod, Nat.add_assoc]

/-- A loop of the assembler moves on by the bytes it takes. -/
theorem received_inFrame (f : Assembler → Byte → Assembler) (bs : Bytes) (t now : Word) :
    received f bs now (inFrame st k t a s) = inFrame st (k + bs.length) now (bs.foldl f a) s := by
  simp only [received, inFrame, add_mod_add]

/-! ### The sync bytes (R152, R158) -/

theorem classifyLead_sync1 (now : Word) (h : s.cfg.sync1 ≠ chDollar) : classifyLead now s.cfg.sync1 s =
    beginMessage now .binSyncWait (consumeByte s) := by
  rw [classifyLead, leadClass, if_neg h, if_pos rfl]
  rfl

theorem exec_tick_sync1 (now : Word) (hrun : s.runs .idle) (hq : s.awaited = []) (hsync : s.cfg.sync1 ≠ chDollar)
    (hu : s.unread = s.cfg.sync1 :: more) : exec (.tick now) s = .next (inFrame .binSyncWait 1 now s.asm s) := by
  rw [exec_tick_idle_of_quiet now hrun hq hu]
  exact congrArg _ (classifyLead_sync1 (s := answer .none s) now hsync)

/-- The assembler at the start of a header (R158). -/
def Assembler.cleared (a : Assembler) : Assembler := { a with hdrCnt := 0, ckA := 0, ckB := 0 }

theorem exec_tick_sync2 (t now : Word) (hrun : (inFrame .binSyncWait 1 t a s).runs .binSyncWait)
    (hu : (inFrame .binSyncWait 1 t a s).unread = s.cfg.sync2 :: more) :
    exec (.tick now) (inFrame .binSyncWait 1 t a s) = .next (inFrame .binHeaderWait 2 now a.cleared s) := by
  rw [(secondSyncByteStartsHeader _ now _ _ hrun hu).1 rfl]
  simp only [inFrame, nextCell, add_mod_add, Assembler.cleared]

/-! ### The header (R160) -/

/-- The four header bytes of a frame (R100). -/
def frameHeader (cls id : Byte) (len : Half) : Bytes := [cls, id] ++ le16 len

theorem frameHeader_length (cls id : Byte) (len : Half) : (frameHeader cls id len).length = 4 := rfl

/-- The assembler that has taken a header and expects its payload (R160). -/
def Assembler.headed (cls id : Byte) (len : Half) (a : Assembler) : Assembler :=
  { a with
    hdr := #v[cls, id, len.setWidth 8, (len >>> 8).setWidth 8], hdrCnt := 4
    rxClass := cls, rxId := id, rxLen := len, payOwned := true, payIdx := 0, payRem := len.toNat
    ckA := (cksum (frameHeader cls id len)).1, ckB := (cksum (frameHeader cls id len)).2 }

theorem foldl_headerByte_frameHeader (cls id : Byte) (len : Half) (a : Assembler) :
    (frameHeader cls id len).foldl headerByte a.cleared = { a with
      hdr := #v[cls, id, len.setWidth 8, (len >>> 8).setWidth 8], hdrCnt := 4
      ckA := (cksum (frameHeader cls id len)).1, ckB := (cksum (frameHeader cls id len)).2 } := by
  have hhdr : ((frameHeader cls id len).foldl headerByte a.cleared).hdr =
      #v[cls, id, len.setWidth 8, (len >>> 8).setWidth 8] := by
    have h := foldl_headerByte_hdr (frameHeader cls id len) a.cleared le_rfl
    rw [List.take_of_length_le (by simp [Assembler.cleared, frameHeader_length])] at h
    exact Vector.toList_inj.mp h
  rw [foldl_headerByte_frame, hhdr]
  rfl

/-- The header of a payload that fits is kept. -/
theorem finishHeader_frameHeader {len : Half} (now : Word) (hcap : len.toNat ≤ s.cfg.payloadCap) :
    finishHeader (inFrame .binHeaderWait k now ((frameHeader cls id len).foldl headerByte a.cleared) s) =
      inFrame .binPayloadWait k now (a.headed cls id len) s := by
  rw [foldl_headerByte_frameHeader]
  simp [finishHeader, inFrame, ofLe16_le16, Nat.not_lt.mpr hcap, Assembler.headed]

theorem exec_tick_frameHeader {len : Half} (t now : Word) (hrun : s.runs .idle) (hcap : len.toNat ≤ s.cfg.payloadCap)
    (hu : (inFrame .binHeaderWait k t a.cleared s).unread = frameHeader cls id len ++ more) :
    exec (.tick now) (inFrame .binHeaderWait k t a.cleared s) =
      .next (inFrame .binPayloadWait (k + 4) now (a.headed cls id len) s) := by
  have hin : (inFrame .binHeaderWait k t a.cleared s).runs .binHeaderWait := inFrame_runs hrun t
  have hbytes : frameHeader cls id len = (inFrame .binHeaderWait k t a.cleared s).unread.take (4 - 0) := by
    rw [hu]; rfl
  rw [exec_tick_header now hin (Nat.zero_lt_succ 3) (inFrame_sc_ne_wr hrun (by simp [hu, frameHeader])) hbytes,
    received_inFrame]
  refine (congrArg _ (if_pos rfl)).trans ?_
  exact congrArg _ (finishHeader_frameHeader now hcap)

/-! ### The payload (R162) -/

/-- The frame is received up to its checksum bytes. -/
structure FrameHeld (cls id : Byte) (payload : Bytes) (a : Assembler) : Prop where
  rxClass : a.rxClass = cls
  rxId : a.rxId = id
  rxLen : a.rxLen.toNat = payload.length
  stored : a.payload.slice 0 a.rxLen.toNat = payload
  summed : a.ck = cksum (frameBody cls id payload)
  ckCnt : a.ckCnt = 0

/-- The assembler that has taken a payload (R162). -/
def Assembler.loaded (payload : Bytes) (a : Assembler) : Assembler := { payload.foldl payloadByte a with ckCnt := 0 }

theorem frameHeld_loaded (hwf : Memory.wf a.payload) (hlen : payload.length < 65536) :
    FrameHeld cls id payload ((a.headed cls id (BitVec.ofNat 16 payload.length)).loaded payload) := by
  have hlen16 : (BitVec.ofNat 16 payload.length).toNat = payload.length := Nat.mod_eq_of_lt hlen
  have hck := foldl_payloadByte_ck payload (a.headed cls id (BitVec.ofNat 16 payload.length))
  obtain ⟨hframe, -, -, hread⟩ := foldl_payloadByte payload (a.headed cls id (BitVec.ofNat 16 payload.length)) hwf
  constructor
  case rxClass => rw [Assembler.loaded, hframe]; rfl
  case rxId => rw [Assembler.loaded, hframe]; rfl
  case rxLen => rw [Assembler.loaded, hframe]; exact hlen16
  case stored =>
    have hrx : ((a.headed cls id (BitVec.ofNat 16 payload.length)).loaded payload).rxLen.toNat = payload.length := by
      rw [Assembler.loaded, hframe]; exact hlen16
    rw [hrx]
    refine Memory.slice_eq_of_read fun j hj => (hread (0 + j)).trans ?_
    rw [Nat.zero_add]
    exact if_pos ⟨Nat.zero_le j, by rw [Assembler.headed, Nat.zero_add]; exact hj⟩
  case summed => exact hck.trans (cksum_append ..).symm
  case ckCnt => rfl

/-- The payload TICK; one for an empty payload takes no byte and keeps the time of the last one. -/
theorem exec_tick_framePayload (t now : Word) (hrun : s.runs .idle) (hwf : Memory.wf a.payload)
    (hidx : a.payIdx = 0) (hrem : a.payRem = payload.length) (hcap : payload.length ≤ s.cfg.payloadCap)
    (hu : (inFrame .binPayloadWait k t a s).unread = payload ++ more) :
    ∃ t', exec (.tick now) (inFrame .binPayloadWait k t a s) =
      .next (inFrame .binChecksumWait (k + payload.length) t' (a.loaded payload) s) := by
  have hin : (inFrame .binPayloadWait k t a s).runs .binPayloadWait := inFrame_runs hrun t
  by_cases hnil : payload = []
  · subst hnil
    exact ⟨t, emptyPayloadTickGoesOn _ now hin hrem⟩
  have hpos : 0 < a.payRem := by rw [hrem]; exact List.length_pos_iff.mpr hnil
  have hbytes : payload = (inFrame .binPayloadWait k t a s).unread.take a.payRem := by
    rw [hu, hrem, List.take_left]
  have hroom : a.payIdx + a.payRem ≤ s.cfg.payloadCap := by omega
  have hdone : (payload.foldl payloadByte a).payRem = 0 := by
    rw [(foldl_payloadByte payload a hwf).1]
    exact Nat.sub_eq_zero_of_le hrem.le
  refine ⟨now, ?_⟩
  rw [exec_tick_payload now hin hpos (inFrame_sc_ne_wr hrun (by simp [hu, hnil])) hbytes hroom, received_inFrame,
    finishPayload]
  exact congrArg _ (if_pos hdone)

/-! ### The checksum bytes (R164) -/

/-- A frame received up to its checksum bytes has its meaning when they come (R164). -/
theorem FrameHeld.exec_tick (h : FrameHeld cls id payload a) (t now : Word) (hrun : s.runs .idle)
    (hcap : payload.length ≤ s.cfg.payloadCap) (hu : (inFrame .binChecksumWait k t a s).unread =
      (cksum (frameBody cls id payload)).1 :: (cksum (frameBody cls id payload)).2 :: more) :
    ∃ u v, u = inFrame .binChecksumWait (k + 2) now u.asm s ∧ u.asm.rxClass = cls ∧ u.asm.rxId = id ∧
      u.rxPayload = payload ∧ exec (frameInstr s.cfg cls id payload) u = .next v ∧
      exec (.tick now) (inFrame .binChecksumWait k t a s) = .next { v with
        asm := { v.asm with payOwned := false }, inProgress := false, fsm := .idle } := by
  obtain ⟨-, -, hboth⟩ := checksumBytesDecideFrame
  obtain ⟨hmatching, -⟩ := hboth _ now _ _ more 2 (inFrame_runs hrun t) (.inl ⟨h.ckCnt, hu, rfl⟩)
  obtain ⟨v, hmeaning, htick⟩ := hmatching h.summed.symm (h.rxLen.trans_le hcap)
  have hinstr : frameInstr s.cfg a.rxClass a.rxId (inFrame .binChecksumWait k t a s).rxPayload =
      frameInstr s.cfg cls id payload := by
    rw [h.rxClass, h.rxId]
    exact congrArg _ h.stored
  refine ⟨checksumReceived _ _ 2 now (inFrame .binChecksumWait k t a s), v, ?_, h.rxClass, h.rxId, h.stored,
    hinstr ▸ hmeaning, htick⟩
  simp only [checksumReceived, inFrame, add_mod_add]

/-! ### The five TICKs -/

/-- A built frame is its sync bytes, its header, its payload and its checksum bytes, in the order of the TICKs. -/
theorem buildFrame_eq (c : Config) (cls id : Byte) (payload : Bytes) : buildFrame c cls id payload =
    c.sync1 :: c.sync2 :: (frameHeader cls id (.ofNat 16 payload.length) ++ (payload ++
      [(cksum (frameBody cls id payload)).1, (cksum (frameBody cls id payload)).2])) := by
  simp [buildFrame, frameBody, frameHeader]

/-- Settles O60: each TICK takes the next part of the frame. -/
theorem waitingBuiltFrameRuns : Obligations.WaitingBuiltFrameRuns := by
  intro s cls id payload rest t1 t2 t3 t4 t5 hrun _ hq hsync hwf hlen hcap hu
  have hlen16 : (BitVec.ofNat 16 payload.length).toNat = payload.length := Nat.mod_eq_of_lt hlen
  have hsplit : s.unread = s.cfg.sync1 :: s.cfg.sync2 :: (frameHeader cls id (.ofNat 16 payload.length) ++
      (payload ++ (cksum (frameBody cls id payload)).1 :: (cksum (frameBody cls id payload)).2 :: rest)) := by
    rw [hu, buildFrame_eq]; simp
  have htick1 := exec_tick_sync1 t1 hrun hq hsync hsplit
  have htick2 := exec_tick_sync2 t1 t2 (inFrame_runs (a := s.asm) hrun t1)
    (inFrame_unread hrun (taken := [s.cfg.sync1]) hsplit rfl t1)
  have htick3 := exec_tick_frameHeader (k := 2) t2 t3 hrun (hlen16.trans_le hcap)
    (inFrame_unread (a := s.asm.cleared) hrun (taken := [s.cfg.sync1, s.cfg.sync2]) hsplit rfl t2)
  obtain ⟨t, htick4⟩ := exec_tick_framePayload (k := 6) t3 t4 hrun
    (a := s.asm.headed cls id (.ofNat 16 payload.length)) hwf rfl hlen16 hcap
    (inFrame_unread hrun (taken := s.cfg.sync1 :: s.cfg.sync2 :: frameHeader cls id _) hsplit rfl t3)
  have hheld := frameHeld_loaded (cls := cls) (id := id) hwf hlen
  have hbefore : (s.cfg.sync1 :: s.cfg.sync2 :: (frameHeader cls id (.ofNat 16 payload.length) ++ payload)).length =
      6 + payload.length := by
    simp only [List.length_cons, List.length_append, frameHeader_length]
    omega
  obtain ⟨u, v, hu, hcls, hid, hpayload, hmeaning, htick5⟩ := hheld.exec_tick t t5 hrun hcap
    (inFrame_unread hrun (hsplit.trans (by rw [← List.append_assoc]; rfl)) hbefore t)
  have htotal : 6 + payload.length + 2 = 8 + payload.length := by omega
  refine ⟨u, v, ?_, hcls, hid, hpayload, hmeaning, ?_⟩
  · rw [← htotal]; exact hu
  · rw [tickRun_cons htick1, tickRun_cons htick2, tickRun_cons htick3, tickRun_cons htick4, tickRun_cons htick5]
    rfl

end Sys2Proof.Machine

/-!
## Proofs: the meanings of frames

O32 to O35: `resolve` with the key written out, then one branch of `dispatch` after another.
-/

namespace Sys2Proof.Machine

variable {s : State} {payload : Bytes}

/-- `resolve` (R282) with the comparison of the keys written out. -/
theorem resolveKey_eq (cls id : Byte) (s : State) :
    resolveKey cls id s = { s with awaited := s.awaited.filter (fun e => ¬(e.cls = cls ∧ e.id = id)) } := by
  have hkey : (fun e : AwaitEntry => !e.hasKey cls id) = fun e => decide ¬(e.cls = cls ∧ e.id = id) := by
    funext e
    simp [AwaitEntry.hasKey]
  rw [resolveKey, hkey]

/-! ### Acknowledgements (R244, R245) -/

/-- A payload of fewer than two bytes carries no key. -/
theorem ackFrame_of_short (h : payload.length < 2) : ackFrame payload s = s := by
  unfold ackFrame
  split
  · simp at h
  · rfl

theorem nakFrame_of_short (h : payload.length < 2) : nakFrame payload s = s := by
  unfold nakFrame
  split
  · simp at h
  · rfl

/-- Settles O32: `resolve` with the key, or no key. -/
theorem ackRemovesEveryMatch : Obligations.AckRemovesEveryMatch :=
  ⟨fun s cls id _ => congrArg Host.Outcome.next (resolveKey_eq cls id s),
    fun _ _ h => congrArg Host.Outcome.next (ackFrame_of_short h)⟩

/-- Settles O33: `fail_add` with room and without, then `resolve`. -/
theorem nakRecordsFailure : Obligations.NakRecordsFailure := by
  refine ⟨fun s cls id rest hroom => ?room, fun s cls id rest hfull => ?full,
    fun s payload h => congrArg Host.Outcome.next (nakFrame_of_short h)⟩
  all_goals
    refine congrArg Host.Outcome.next ((resolveKey_eq cls id (failAdd cls id .nak s)).trans ?_)
    rcases failAdd_cases s cls id .nak with ⟨hcap, e⟩ | ⟨hcap, e⟩
  case room.inl => rw [e]
  case room.inr => simp [hroom] at hcap
  case full.inl => simp [hfull] at hcap
  case full.inr => rw [e]; rfl

/-! ### The version frame (R246) -/

/-- The bytes of a substring, 0 beyond the end of the payload. -/
theorem substring_getElem? {off len : Int} {k : Nat} (hk : k < len) (hpos : 0 ≤ off + k) :
    (substring payload off len)[k]? =
      some (if off + k < payload.length then payload.getD (off + k).toNat 0 else 0) := by
  have hbyte : payloadByteAt payload (off + k) =
      if off + k < payload.length then payload.getD (off + k).toNat 0 else 0 := by
    rw [payloadByteAt, if_neg (Int.not_lt.mpr hpos)]
    split
    · rfl
    · exact List.getD_eq_default _ _ (by omega)
  rw [substring, List.getElem?_map, List.getElem?_range (by omega), Option.map_some, hbyte]

/-- Settles O34: two substrings, and `resolve` with the poll's key. -/
theorem versionFrameFillsStrings : Obligations.VersionFrameFillsStrings := fun s payload =>
  ⟨versionFrame payload s, rfl, resolveKey_eq .., rfl, substring_length .., substring_length ..,
    fun _ hk hpos => substring_getElem? hk hpos, fun _ hk hpos => substring_getElem? hk hpos⟩

/-! ### Frames without a meaning (R247 to R249) -/

/-- Settles O35: the tolerated frames change nothing, and the unknown class raises its fault on the recorded frame. -/
theorem otherFramesIgnoredOrFatal : Obligations.OtherFramesIgnoredOrFatal := by
  refine ⟨fun s id payload => ⟨?ackOther, ?monOther⟩, fun s cls id payload => ?cfgAny,
    fun s cls id payload => ?unknown⟩
  case ackOther => rfl
  case monOther => rfl
  case cfgAny => rfl
  case unknown => rfl

end Sys2Proof.Machine

/-!
## Proofs: the outbound builder

O36: the word of SEND, its refusal, and what it does when it is not refused.
-/

namespace Sys2Proof.Machine

variable {s : State} {payload : Bytes}

/-! ### The word of SEND (R111) -/

/-- The payload has the length its two bytes declare; `expect` and `accept` are bit 0 of theirs. -/
theorem decode_send_word (c : Config) (cls id l0 l1 ee aa n0 n1 n2 n3 : Byte)
    (h : payload.length = l0.toNat + 256 * l1.toNat) :
    decode c (.op .host) ([0x10, cls, id, l0, l1, ee, aa, n0, n1, n2, n3] ++ payload) =
      .ok (.send cls id (ee.getLsbD 0) (aa.getLsbD 0) (n3 ++ n2 ++ n1 ++ n0) payload) :=
  if_pos (h.trans (ofLe16_toNat l0 l1).symm)

/-! ### SEND (R271) -/

theorem sendRefused_iff : sendRefused payload s = true ↔ s.halted = true ∨ s.cfg.txPayloadCap < payload.length := by
  simp [sendRefused]

theorem exec_send_of_refused (cls id : Byte) (expect accept : Bool) (now : Word)
    (h : s.halted = true ∨ s.cfg.txPayloadCap < payload.length) :
    exec (.send cls id expect accept now payload) s = .next (answer (.sent false none) s) :=
  if_pos (sendRefused_iff.mpr h)

theorem exec_send_of_running (cls id : Byte) (expect accept : Bool) (now : Word) (hrun : s.halted = false)
    (hfits : payload.length ≤ s.cfg.txPayloadCap) :
    exec (.send cls id expect accept now payload) s =
      .next (answer (.sent accept (if accept then some (buildFrame s.cfg cls id payload) else none))
        (if expect then registerEntry cls id now s else s)) :=
  if_neg fun h => (sendRefused_iff.mp h).elim (by simp [hrun]) (Nat.not_lt.mpr hfits)

/-- Settles O36: a refused SEND only answers; another one answers with the frame, and with `expect` it registers as
`register` does (R281), whatever `accept` is. -/
theorem sendEmitsAndRegisters : Obligations.SendEmitsAndRegisters := by
  refine ⟨fun c cls id l0 l1 ee aa n0 n1 n2 n3 _ h => decode_send_word c cls id l0 l1 ee aa n0 n1 n2 n3 h,
    fun s cls id expect accept now p =>
      ⟨exec_send_of_refused cls id expect accept now, fun hrun hfits => ?_⟩⟩
  rw [exec_send_of_running cls id expect accept now hrun hfits]
  cases expect with
  | false => rfl
  | true =>
    rcases registerEntry_cases s cls id now with ⟨hroom, hreg⟩ | ⟨hfull, hreg⟩
    · simp [hreg, hroom, answer]
    · simp [hreg, hfull, answer, raiseFault, FAULT_RESOURCE]

end Sys2Proof.Machine

/-!
## Proofs: the ledger

O37 to O41: the operations of the host port on the two queues. The sweep is read off its fold: with room for every
failure it appends them all; otherwise it fills the queue, and from the fault on it only sorts out what stays awaited.
-/

namespace Sys2Proof.Machine

variable {s : State}

/-! ### Keys and ages -/

theorem AwaitEntry.hasKey_eq (cls id : Byte) (e : AwaitEntry) : e.hasKey cls id = decide (e.cls = cls ∧ e.id = id) :=
  (Bool.decide_and _ _).symm

theorem FailEntry.hasKey_eq (cls id : Byte) (e : FailEntry) : e.hasKey cls id = decide (e.cls = cls ∧ e.id = id) :=
  (Bool.decide_and _ _).symm

/-- The age of R16 is a difference modulo `2^32`, so the clock's wrap does not show in it. -/
theorem expired_eq (now t limit : Word) : expired now t limit = decide (limit < now - t) := rfl

theorem expired_before_deadline (t : Word) {d : Word} (hd : d ≠ 0) : expired (t + d - 1) t d = false := by
  have hage : t + d - 1 - t = d - 1 := by bv_omega
  rw [expired_eq, hage, decide_eq_false_iff_not]
  bv_omega

theorem expired_at_deadline (t d : Word) : expired (t + d) t d = false := by
  have hage : t + d - t = d := by bv_omega
  rw [expired_eq, hage, decide_eq_false_iff_not]
  bv_omega

theorem expired_after_deadline (t : Word) {d : Word} (hd : d + 1 ≠ 0) : expired (t + d + 1) t d = true := by
  have hage : t + d + 1 - t = d + 1 := by bv_omega
  rw [expired_eq, hage, decide_eq_true_iff]
  bv_omega

/-! ### `fail_add` and one step of the sweep (R283, R284) -/

/-- A queue shorter than one within the capacity has room. -/
theorem atCapacity_of_withinCap_lt {cap : Option Nat} {a b : Nat} (h : withinCap cap b) (hab : a < b) :
    atCapacity cap a = false := by
  cases cap with
  | none => rfl
  | some k => exact decide_eq_false (Nat.not_le.mpr (hab.trans_le (h k rfl)))

theorem failAdd_of_room (cls id : Byte) (r : Reason) (h : atCapacity s.cfg.failCap s.failed.length = false) :
    failAdd cls id r s = { s with failed := s.failed ++ [⟨cls, id, r⟩] } :=
  if_neg (Bool.eq_false_iff.mp h)

theorem failAdd_of_full (cls id : Byte) (r : Reason) (h : atCapacity s.cfg.failCap s.failed.length = true) :
    failAdd cls id r s = raiseFault FAULT_RESOURCE s :=
  if_pos h

theorem sweepEntry_of_expired {now limit : Word} {e : AwaitEntry} (h : expired now e.ts limit = true) :
    sweepEntry now limit s e = failAdd e.cls e.id .timeout s :=
  if_pos h

theorem sweepEntry_of_fresh {now limit : Word} {e : AwaitEntry} (h : expired now e.ts limit = false) :
    sweepEntry now limit s e = { s with awaited := s.awaited ++ [e] } :=
  if_neg (Bool.eq_false_iff.mp h)

/-! ### The whole sweep (R284) -/

/-- The entries that stay awaited. -/
def stillAwaited (now limit : Word) (es : List AwaitEntry) : List AwaitEntry :=
  es.filter (fun e => !expired now e.ts limit)

/-- The failures a sweep of `es` reports. -/
def timeoutsOf (now limit : Word) (es : List AwaitEntry) : List FailEntry :=
  (es.filter (fun e => expired now e.ts limit)).map (fun e => ⟨e.cls, e.id, .timeout⟩)

section

variable {now limit : Word} {e : AwaitEntry} {es : List AwaitEntry} {k : Nat}

theorem stillAwaited_eq : stillAwaited now limit es = es.filter (fun e => ¬(limit < now - e.ts)) := by
  simp only [stillAwaited, expired_eq, decide_not]

theorem length_timeoutsOf :
    (timeoutsOf now limit es).length = (es.filter (fun e => limit < now - e.ts)).length :=
  List.length_map _

theorem stillAwaited_cons_of_expired (h : expired now e.ts limit = true) :
    stillAwaited now limit (e :: es) = stillAwaited now limit es :=
  List.filter_cons_of_neg (by simp [h])

theorem stillAwaited_cons_of_fresh (h : expired now e.ts limit = false) :
    stillAwaited now limit (e :: es) = e :: stillAwaited now limit es :=
  List.filter_cons_of_pos (by simp [h])

theorem timeoutsOf_cons_of_expired (h : expired now e.ts limit = true) :
    timeoutsOf now limit (e :: es) = ⟨e.cls, e.id, .timeout⟩ :: timeoutsOf now limit es := by
  rw [timeoutsOf, List.filter_cons_of_pos (by exact h), List.map_cons, timeoutsOf]

theorem timeoutsOf_cons_of_fresh (h : expired now e.ts limit = false) :
    timeoutsOf now limit (e :: es) = timeoutsOf now limit es := by
  rw [timeoutsOf, List.filter_cons_of_neg (by simp [h]), timeoutsOf]

theorem sweepFold_of_room (h : withinCap s.cfg.failCap (s.failed.length + (timeoutsOf now limit es).length)) :
    es.foldl (sweepEntry now limit) s = { s with
      awaited := s.awaited ++ stillAwaited now limit es, failed := s.failed ++ timeoutsOf now limit es } := by
  induction es generalizing s with
  | nil => simp [stillAwaited, timeoutsOf]
  | cons e es ih =>
    cases he : expired now e.ts limit with
    | false =>
      rw [timeoutsOf_cons_of_fresh he] at h ⊢
      rw [List.foldl_cons, sweepEntry_of_fresh he, ih (by exact h), stillAwaited_cons_of_fresh he]
      simp
    | true =>
      rw [timeoutsOf_cons_of_expired he, List.length_cons] at h
      rw [List.foldl_cons, sweepEntry_of_expired he, failAdd_of_room _ _ _ (atCapacity_of_withinCap_lt h (by omega)),
        ih (withinCap_mono (by exact h) (by simp; omega)), stillAwaited_cons_of_expired he,
        timeoutsOf_cons_of_expired he]
      simp

/-- Once the sweep has halted the block, no failure is added any more. -/
theorem sweepFold_of_faulted (hfull : atCapacity s.cfg.failCap s.failed.length = true)
    (hfault : s.faultReg ||| FAULT_RESOURCE = s.faultReg) (hhalt : s.halted = true) :
    es.foldl (sweepEntry now limit) s = { s with awaited := s.awaited ++ stillAwaited now limit es } := by
  induction es generalizing s with
  | nil => simp [stillAwaited]
  | cons e es ih =>
    cases he : expired now e.ts limit with
    | false =>
      rw [List.foldl_cons, sweepEntry_of_fresh he, ih (by exact hfull) (by exact hfault) (by exact hhalt),
        stillAwaited_cons_of_fresh he]
      simp
    | true =>
      have hsame : raiseFault FAULT_RESOURCE s = s := by rw [raiseFault, hfault, ← hhalt]
      rw [List.foldl_cons, sweepEntry_of_expired he, failAdd_of_full _ _ _ hfull, hsame, ih hfull hfault hhalt,
        stillAwaited_cons_of_expired he]

theorem sweepFold_of_overflow (hcap : s.cfg.failCap = some k) (hlen : s.failed.length ≤ k)
    (hover : k < s.failed.length + (timeoutsOf now limit es).length) :
    es.foldl (sweepEntry now limit) s = { s with
      awaited := s.awaited ++ stillAwaited now limit es
      failed := (s.failed ++ timeoutsOf now limit es).take k
      faultReg := s.faultReg ||| FAULT_RESOURCE
      halted := true } := by
  induction es generalizing s with
  | nil => simp [timeoutsOf] at hover; omega
  | cons e es ih =>
    cases he : expired now e.ts limit with
    | false =>
      rw [timeoutsOf_cons_of_fresh he] at hover ⊢
      rw [List.foldl_cons, sweepEntry_of_fresh he, ih (by exact hcap) (by exact hlen) (by exact hover),
        stillAwaited_cons_of_fresh he]
      simp
    | true =>
      rw [timeoutsOf_cons_of_expired he, List.length_cons] at hover
      rw [List.foldl_cons, sweepEntry_of_expired he, stillAwaited_cons_of_expired he, timeoutsOf_cons_of_expired he]
      rcases hlen.lt_or_eq with hroom | hfull
      · rw [failAdd_of_room _ _ _ (by simpa [hcap] using hroom),
          ih (by exact hcap) (by simpa using hroom) (by simp; omega)]
        simp
      · have hat : atCapacity s.cfg.failCap s.failed.length = true := by simp [hcap, hfull]
        rw [failAdd_of_full _ _ _ hat, sweepFold_of_faulted (by exact hat) (or_or_same ..) rfl, ← hfull,
          List.take_left]
        rfl

end

theorem ledgerSweep_of_room {now limit : Word}
    (h : withinCap s.cfg.failCap (s.failed.length + (timeoutsOf now limit s.awaited).length)) :
    ledgerSweep now limit s = { s with
      awaited := stillAwaited now limit s.awaited, failed := s.failed ++ timeoutsOf now limit s.awaited } :=
  sweepFold_of_room (s := { s with awaited := [] }) h

theorem ledgerSweep_of_overflow {now limit : Word} {k : Nat} (hcap : s.cfg.failCap = some k)
    (hlen : s.failed.length ≤ k) (hover : k < s.failed.length + (timeoutsOf now limit s.awaited).length) :
    ledgerSweep now limit s = { s with
      awaited := stillAwaited now limit s.awaited
      failed := (s.failed ++ timeoutsOf now limit s.awaited).take k
      faultReg := s.faultReg ||| FAULT_RESOURCE
      halted := true } :=
  sweepFold_of_overflow (s := { s with awaited := [] }) hcap hlen hover

/-! ### SWEEP -/

theorem exec_sweep (now limit : Word) (s : State) :
    exec (.sweep now limit) s = .next (answer .none (if s.halted then s else ledgerSweep now limit s)) := rfl

theorem exec_sweep_of_running (now limit : Word) (h : s.halted = false) :
    exec (.sweep now limit) s = .next (answer .none (ledgerSweep now limit s)) := by
  rw [exec_sweep, if_neg (Bool.eq_false_iff.mp h)]

/-- Settles O38: the fold of the sweep with room for every failure, and with too many. -/
theorem sweepMovesExpiredEntries : Obligations.SweepMovesExpiredEntries := by
  refine ⟨fun _ _ _ _ _ _ _ _ _ => rfl, fun s now limit hhalt => ?halted,
    fun s now limit hrun hroom => ?room, fun s now limit k hrun hcap hlen hover => ?overflow⟩
  case halted => rw [exec_sweep, if_pos hhalt]; rfl
  case room =>
    have hfits : withinCap s.cfg.failCap (s.failed.length + (timeoutsOf now limit s.awaited).length) :=
      fun k hk => by rw [length_timeoutsOf]; exact hroom k hk
    rw [exec_sweep_of_running now limit hrun, ledgerSweep_of_room hfits, stillAwaited_eq]
    rfl
  case overflow =>
    rw [exec_sweep_of_running now limit hrun,
      ledgerSweep_of_overflow hcap hlen (by rwa [length_timeoutsOf]), stillAwaited_eq]
    rfl

/-- A sweep of a queue of one entry that is not expired changes nothing. -/
theorem ledgerSweep_singleton_of_fresh {now limit : Word} {e : AwaitEntry} (hq : s.awaited = [e])
    (hfresh : expired now e.ts limit = false) : ledgerSweep now limit s = s := by
  rw [ledgerSweep, hq, List.foldl_cons, sweepEntry_of_fresh hfresh, List.foldl_nil, List.nil_append, ← hq]

/-- A sweep of a queue of one expired entry is the entry's `fail_add`. -/
theorem ledgerSweep_singleton_of_expired {now limit : Word} {e : AwaitEntry} (hq : s.awaited = [e])
    (hold : expired now e.ts limit = true) :
    ledgerSweep now limit s = failAdd e.cls e.id .timeout { s with awaited := [] } := by
  rw [ledgerSweep, hq, List.foldl_cons, sweepEntry_of_expired hold, List.foldl_nil]

/-- Settles O39: the three ages are `D - 1`, `D` and `D + 1`, wherever the clock stands. -/
theorem timeoutBoundaryOfSweep : Obligations.TimeoutBoundaryOfSweep := by
  refine fun s cls id t d hrun hq hroom => ⟨fun hd => ?before, ?deadline, fun hd => ?after⟩
  all_goals rw [exec_sweep_of_running _ _ hrun]
  case before => rw [ledgerSweep_singleton_of_fresh hq (expired_before_deadline t hd)]; rfl
  case deadline => rw [ledgerSweep_singleton_of_fresh hq (expired_at_deadline t d)]; rfl
  case after =>
    rw [ledgerSweep_singleton_of_expired hq (expired_after_deadline t hd), failAdd_of_room _ _ _ (by exact hroom)]
    rfl

/-! ### REGISTER and RESOLVE (R281, R282) -/

theorem exec_register (cls id : Byte) (ts : Word) (s : State) : exec (.register cls id ts) s =
    .next (answer .none (if s.halted then s else registerEntry cls id ts s)) := rfl

theorem exec_resolve (cls id : Byte) (s : State) :
    exec (.resolve cls id) s = .next (answer .none (if s.halted then s else resolveKey cls id s)) := rfl

/-- Settles O37: `register` with room and without, `resolve`, and neither while halted. -/
theorem registerAppendsResolveRemoves : Obligations.RegisterAppendsResolveRemoves := by
  refine ⟨fun len => ⟨atCapacity_none len, fun k => by rw [atCapacity_some, decide_eq_true_iff]⟩,
    fun _ _ _ _ _ _ _ => ⟨rfl, rfl⟩,
    fun s cls id ts hhalt => ⟨?registerHalted, ?resolveHalted⟩,
    fun s cls id ts hrun hroom => ?room, fun s cls id ts hrun hfull => ?full, fun s cls id hrun => ?resolve⟩
  case registerHalted => rw [exec_register, if_pos hhalt]; rfl
  case resolveHalted => rw [exec_resolve, if_pos hhalt]; rfl
  case room =>
    rw [exec_register, if_neg (Bool.eq_false_iff.mp hrun), registerEntry, if_neg (Bool.eq_false_iff.mp hroom)]
    rfl
  case full =>
    rw [exec_register, if_neg (Bool.eq_false_iff.mp hrun), registerEntry, if_pos hfull]
    rfl
  case resolve =>
    rw [exec_resolve, if_neg (Bool.eq_false_iff.mp hrun), resolveKey_eq]
    rfl

/-! ### Drains and queries (R285 to R288) -/

theorem exec_drainFailed (cls id : Byte) (s : State) : exec (.drainFailed cls id) s =
    .next (answer (.failures (s.failed.filter (fun e => e.hasKey cls id)))
      { s with failed := s.failed.filter (fun e => !e.hasKey cls id) }) := rfl

theorem exec_queryAwaited (cls id : Byte) (s : State) : exec (.queryAwaited cls id) s =
    .next (answer (.count (s.awaited.countP (fun e => e.hasKey cls id))) s) := rfl

theorem exec_queryFailed (cls id : Byte) (s : State) : exec (.queryFailed cls id) s =
    .next (answer (.counts (s.failed.countP (fun e => e.hasKey cls id && e.reason = .nak))
      (s.failed.countP (fun e => e.hasKey cls id && e.reason = .timeout))) s) := rfl

/-- Settles O40: what is returned and what is kept are the two sides of one test on the key. -/
theorem drainsReturnWhatTheyRemove : Obligations.DrainsReturnWhatTheyRemove := by
  refine ⟨fun _ _ _ => ⟨rfl, rfl⟩, fun _ => rfl, fun s cls id => ?_⟩
  rw [exec_drainFailed]
  simp only [FailEntry.hasKey_eq, ← decide_not]
  rfl

/-- Settles O41: a count by key is the length of the entries with the key. -/
theorem queriesCountByKey : Obligations.QueriesCountByKey := by
  refine ⟨fun _ _ _ => ⟨rfl, rfl⟩, fun s cls id => ⟨?awaited, ?failed⟩⟩
  case awaited =>
    rw [exec_queryAwaited]
    simp only [AwaitEntry.hasKey_eq, List.countP_eq_length_filter]
    rfl
  case failed =>
    rw [exec_queryFailed]
    simp only [FailEntry.hasKey_eq, List.countP_eq_length_filter, ← Bool.decide_and]
    rfl

end Sys2Proof.Machine

/-!
## Proofs: the opcodes of the ports

O4: the table of R110 read in both directions, and that of all operations only RESERVED answers `bad_op = 1`.
-/

namespace Sys2Proof.Machine

variable {s t : State} {i : Instr}

/-! ### The table (R110) -/

/-- The opcodes of the host port (R110). -/
def hostOpcodes : Bytes :=
  [0x00, 0x10, 0x11, 0x12, 0x13, 0x14, 0x15, 0x16, 0x17, 0x20, 0x21, 0x22, 0x23, 0x24, 0x25, 0x30, 0x3F]

theorem opcodePort_of_mem_hostOpcodes : ∀ op ∈ hostOpcodes, opcodePort op = some .host := by decide

/-- The rows of `opcodePort` in their order: NOP, PUSH, TICK, the host opcodes from SEND on, and the opcodes left out. -/
theorem opcode_of_opcodePort {port : Port} {op : Byte} (h : opcodePort op = some port) :
    port = .producer ∧ op = 0x01 ∨ port = .consumer ∧ op = 0x02 ∨ port = .host ∧ op ∈ hostOpcodes := by
  unfold opcodePort at h
  split at h
  case h_20 => cases h
  case h_2 hop => cases h; exact .inl ⟨rfl, BitVec.eq_of_toNat_eq hop⟩
  case h_3 hop => cases h; exact .inr (.inl ⟨rfl, BitVec.eq_of_toNat_eq hop⟩)
  all_goals
    rename_i hop
    cases h
    rw [(BitVec.toNat_eq_nat.mp hop).2]
    exact .inr (.inr ⟨rfl, by decide⟩)

theorem opcodePort_eq_some_iff (port : Port) (op : Byte) : opcodePort op = some port ↔
    port = .producer ∧ op = 0x01 ∨ port = .consumer ∧ op = 0x02 ∨ port = .host ∧ op ∈ hostOpcodes := by
  refine ⟨opcode_of_opcodePort, ?_⟩
  rintro (⟨rfl, rfl⟩ | ⟨rfl, rfl⟩ | ⟨rfl, hop⟩)
  · rfl
  · rfl
  · exact opcodePort_of_mem_hostOpcodes op hop

/-! ### The results of operations (R112) -/

theorem eq_of_exec_push {b : Byte} (h : exec (.push b) s = .next t) : t = answer .none (pushByte b s) := by
  change execPush b s = _ at h
  unfold execPush at h
  split at h <;> cases h
  rfl

/-- No rule of a TICK writes the result. -/
theorem TickTo.result {now : Word} (ht : TickTo now s t) : t.result = s.result :=
  tickTo_keeps (P := fun u => u.result = s.result) (fun _ _ e h => by rw [e.frame]; exact h)
    (fun u now limit h => by rw [(sweptFrom_ledgerSweep u now limit).frame]; exact h)
    (fun u span h => by rw [(sentenceFrom_processSpan span u).frame]; exact h)
    (fun u cls id payload h => by rw [(frameFrom_dispatchFrame cls id payload u).frame]; exact h) rfl ht

/-- A TICK returns nothing, halted or not. -/
theorem exec_tick_result {now : Word} (h : exec (.tick now) s = .next t) : t.result = .none := by
  rcases exec_tick_to h with ⟨-, rfl⟩ | ⟨-, -, ht⟩
  · rfl
  · exact ht.result

theorem exec_send_result {cls id : Byte} {expect accept : Bool} {now : Word} {payload : Bytes}
    (h : exec (.send cls id expect accept now payload) s = .next t) : ∃ ok frame, t.result = .sent ok frame := by
  change execSend .. = _ at h
  unfold execSend at h
  split at h <;> cases h <;> exact ⟨_, _, rfl⟩

/-- What RESERVED answers, no other operation does. -/
theorem reserved_of_badOp (hi : isOperation i = true) (h : exec i s = .next t) (hbad : t.result = .badOp) :
    ∃ port op operands, i = .reserved port op operands := by
  cases i with
  | reserved port op operands => exact ⟨port, op, operands, rfl⟩
  | push b =>
    obtain rfl := eq_of_exec_push h
    cases hbad
  | tick now => rw [exec_tick_result h] at hbad; cases hbad
  | send cls id expect accept now payload =>
    obtain ⟨ok, frame, hsent⟩ := exec_send_result h
    rw [hsent] at hbad
    cases hbad
  | nop | register | resolve | sweep | drainFailures | drainFailed | queryAwaited | queryFailed | readFix | readSv
  | readFlags | clearFlags | readStatus | readVersion | powerOff | reset => cases h; cases hbad
  | leadSentence | leadBinary | leadOther | gpgga | gpgsa | gpvtg | gpgsv | sentenceOther | ackAck | ackNak | monVer
  | ackOther | monOther | cfgAny | classUnknown => cases hi

/-- Settles O4: the table of R110, RESERVED for everything outside it, and the results of the operations inside it. -/
theorem opcodeOffItsPortIsRefused : Obligations.OpcodeOffItsPortIsRefused :=
  ⟨opcodePort_eq_some_iff, fun _ _ _ _ h =>
    ⟨decode_reserved h, fun _ => rfl, fun _ _ _ hi hx hbad => reserved_of_badOp hi hx hbad⟩⟩

end Sys2Proof.Machine

/-!
## Proofs: the halt

O46: every instruction but RESET keeps the halt, a TICK halts in `Idle` only, and a host operation leaves the framing state
and the assembler alone.
-/

namespace Sys2Proof.Machine

variable {s t : State} {i : Instr} {now : Word}

/-! ### What keeps the halt -/

theorem SweptFrom.halted (h : SweptFrom s t) (hh : s.halted = true) : t.halted = true := by
  rcases h.fault with ⟨-, e⟩ | ⟨-, e⟩
  · exact e.trans hh
  · exact e

theorem SentenceFrom.halted (h : SentenceFrom s t) : t.halted = s.halted := by rw [h.frame]

theorem ackFrame_halted (payload : Bytes) (s : State) : (ackFrame payload s).halted = s.halted := by
  unfold ackFrame
  split <;> rfl

theorem nakFrame_halted (payload : Bytes) (hh : s.halted = true) : (nakFrame payload s).halted = true := by
  unfold nakFrame
  split
  · exact (sweptFrom_failAdd _ _ _ .nak).halted hh
  · exact hh

theorem registerEntry_halted (cls id : Byte) (ts : Word) (hh : s.halted = true) :
    (registerEntry cls id ts s).halted = true := by
  rcases registerEntry_cases s cls id ts with ⟨-, e⟩ | ⟨-, e⟩ <;> rw [e]
  · exact hh
  · rfl

theorem HostTo.halted (h : HostTo s t) (hh : s.halted = true) : t.halted = true := by
  cases h with
  | registered r cls id ts => exact registerEntry_halted cls id ts hh
  | swept now limit => exact (sweptFrom_ledgerSweep s now limit).halted hh
  | quiet | resolved | drained | flagged | poweredOff => exact hh

/-- Only RESET ends the halt (R311). -/
theorem halted_of_exec (hr : i ≠ .reset) (hh : s.halted = true) (h : exec i s = .next t) : t.halted = true := by
  cases i with
  | reset => exact absurd rfl hr
  | push b =>
    obtain rfl := eq_of_exec_push h
    exact hh
  | tick now => rw [exec_tick_halted now hh] at h; cases h; exact hh
  | nop | send | register | resolve | sweep | drainFailures | drainFailed | queryAwaited | queryFailed | readFix | readSv
  | readFlags | clearFlags | readStatus | readVersion | powerOff => exact (hostTo_of_exec hr (.inl rfl) h).halted hh
  | reserved p o b => exact (hostTo_of_exec hr (.inr ⟨p, o, b, rfl⟩) h).halted hh
  | gpgga span => cases h; exact (sentenceFrom_processPos span s).halted.trans hh
  | gpvtg span => cases h; exact (sentenceFrom_processSpdhdg span s).halted.trans hh
  | gpgsv span => cases h; exact (sentenceFrom_processSats span s).halted.trans hh
  | ackAck payload => cases h; exact (ackFrame_halted payload s).trans hh
  | ackNak payload => cases h; exact nakFrame_halted payload hh
  | classUnknown => cases h; rfl
  | leadSentence | leadBinary | leadOther | gpgsa | sentenceOther | monVer | ackOther | monOther | cfgAny =>
    cases h; exact hh

/-! ### Where the block halts -/

/-- A TICK that halts the block ends in `Idle` (R333): from `Idle` by its sweep, from another state by a frame. -/
theorem TickTo.idle_of_halts (ht : TickTo now s t) (hh : s.halted = false) (hh' : t.halted = true) : t.fsm = .idle := by
  by_contra hi'
  by_cases hi : s.fsm = .idle
  · cases ht with
    | idleHalted | idleEmpty => exact hi' ((sweptFrom_ledgerSweep s now _).sameIntake.fsm.trans hi)
    | idleByte b rest hf hrun =>
      rw [(framingFrom_classifyLead now b _).frame] at hh'
      exact Bool.false_ne_true (hrun.symm.trans hh')
    | starved hf | timeout hf => exact hf hi
    | sentence hf | lineFeed _ hf | dropped _ hf | noLF _ _ hf | sync2 _ hf | badSync _ _ hf | header _ hf
    | headerDone _ hf | payloadEmpty hf | payload _ hf | checksum _ hf | dispatch _ hf | badChecksum _ hf | error hf =>
      exact Framing.noConfusion (hi.symm.trans hf)
  · exact Bool.false_ne_true ((ht.halted hi hi' hh).symm.trans hh')

/-- There the payload buffer is released (R251). -/
theorem exec_tick_halts (hP : FramingOk s) (hh : s.halted = false) (h : exec (.tick now) s = .next t)
    (hh' : t.halted = true) : t.fsm = .idle ∧ t.asm.payOwned = false := by
  rcases exec_tick_to h with ⟨hhalt, -⟩ | ⟨-, hc, ht⟩
  · exact absurd (hh.symm.trans hhalt) Bool.false_ne_true
  · have hidle : t.fsm = .idle := ht.idle_of_halts hh hh'
    have hkept : FramingOk t := (hP.of_answer .none).tickTo (State.cursorsInRange_iff.mp hc).2.1 ht
    exact ⟨hidle, (hkept.payOwned_eq (by simp [hidle])).trans (by rw [hidle]; rfl)⟩

/-- RESET, the one host operation that writes the framing state and the assembler, does not halt. -/
theorem exec_host_halts (hi : i.form = .op .host) (h : exec i s = .next t) (hh' : t.halted = true) :
    t.fsm = s.fsm ∧ t.asm = s.asm := by
  have hr : i ≠ .reset := by
    rintro rfl
    cases h
    cases hh'
  have hsame := (hostFrom_exec hi hr h).sameIntake
  exact ⟨hsame.fsm, hsame.asm⟩

/-- Settles O46: the guards of the five operations, `halted_of_exec`, and where a TICK and a host operation halt. -/
theorem haltedEngineStops : Obligations.HaltedEngineStops := by
  refine ⟨fun s hh => ⟨fun now => exec_tick_halted now hh, fun cls id ts => ?register, fun cls id => ?resolve,
      fun now limit => ?sweep, fun cls id expect accept now p => exec_send_of_refused cls id expect accept now (.inl hh),
      fun i t h hrun => ?onlyReset⟩,
    fun s t now hP hh h hh' => exec_tick_halts hP hh h hh', fun i s t hi _ h hh' => exec_host_halts hi h hh'⟩
  case register => rw [exec_register, if_pos hh]; rfl
  case resolve => rw [exec_resolve, if_pos hh]; rfl
  case sweep => rw [exec_sweep, if_pos hh]; rfl
  case onlyReset =>
    by_contra hr
    exact Bool.false_ne_true (hrun.symm.trans (halted_of_exec hr hh h))

end Sys2Proof.Machine

/-!
## Proofs: reads, flags and power

O42 to O44: the host operations that answer with a snapshot or write one register.
-/

namespace Sys2Proof.Machine

/-- Settles O42: the words, the two numberings, and each snapshot. -/
theorem readsReturnSnapshots : Obligations.ReadsReturnSnapshots := by
  refine ⟨fun c => ?words, ?states, ?errors, fun s => ⟨?nop, ?fix, ?sv, ?flags, ?version, ?status⟩⟩
  case words => exact ⟨rfl, rfl, rfl, rfl, rfl, rfl⟩
  all_goals rfl

theorem exec_clearFlags (mask : BitVec 4) (s : State) :
    exec (.clearFlags mask) s = .next (answer .none { s with newFlags := s.newFlags &&& ~~~mask }) := rfl

theorem getLsbD_and_not {w : Nat} (x y : BitVec w) (k : Nat) :
    (x &&& ~~~y).getLsbD k = (x.getLsbD k && !y.getLsbD k) := by
  by_cases hk : k < w
  · simp [hk]
  · simp [BitVec.getLsbD_of_ge x k (Nat.le_of_not_lt hk)]

/-- Settles O43: bit by bit, the flags of `exec_clearFlags`. -/
theorem clearFlagsClearsMaskedBits : Obligations.ClearFlagsClearsMaskedBits :=
  ⟨fun _ _ => rfl, fun s mask => ⟨_, exec_clearFlags mask s, rfl, getLsbD_and_not s.newFlags mask⟩⟩

/-- Settles O44: the zeroed record, field by field, in the state POWER_OFF leaves. -/
theorem powerOffZeroesRecord : Obligations.PowerOffZeroesRecord := by
  refine ⟨fun c => ?decodes, fun s => ?record⟩
  case decodes => rfl
  case record => rfl

end Sys2Proof.Machine

/-!
## Proofs: which instruction does what

SUPPORT. `HostDoes` is `HostTo` with the instruction of each row named and the halt as its guard; `FrameTo` holds the rows
of the frames. With `TickTo` they say what every instruction can do (`operation_does`, `inner_cases`).
-/

namespace Sys2Proof.Machine

variable {s t u : State} {i : Instr} {now : Word}

/-! ### Host operations -/

/-- What each operation of the host port other than RESET does. -/
inductive HostDoes (s : State) : Instr → State → Prop
  | quiet (i : Instr) (r : Result) : HostDoes s i (answer r s)
  | sent (cls id : Byte) (expect accept : Bool) (now : Word) (payload : Bytes) (r : Result) (hh : s.halted = false) :
    HostDoes s (.send cls id expect accept now payload) (answer r (registerEntry cls id now s))
  | registered (cls id : Byte) (ts : Word) (hh : s.halted = false) :
    HostDoes s (.register cls id ts) (answer .none (registerEntry cls id ts s))
  | resolved (cls id : Byte) : HostDoes s (.resolve cls id) (answer .none (resolveKey cls id s))
  | swept (now limit : Word) (hh : s.halted = false) :
    HostDoes s (.sweep now limit) (answer .none (ledgerSweep now limit s))
  | drained (r : Result) : HostDoes s .drainFailures (answer r { s with failed := [] })
  | drainedKey (cls id : Byte) (r : Result) (kept : List FailEntry) :
    HostDoes s (.drainFailed cls id) (answer r { s with failed := kept })
  | flagged (mask flags : BitVec 4) : HostDoes s (.clearFlags mask) (answer .none { s with newFlags := flags })
  | poweredOff : HostDoes s .powerOff (answer .none { s with fix := FixRecord.zero })

theorem hostDoes_execSend (cls id : Byte) (expect accept : Bool) (now : Word) (payload : Bytes)
    (h : execSend cls id expect accept now payload s = .next t) :
    HostDoes s (.send cls id expect accept now payload) t := by
  unfold execSend at h
  split at h <;> cases h
  case isTrue => exact .quiet _ _
  case isFalse hrefused =>
    cases expect with
    | false => exact .quiet _ _
    | true =>
      have hh : s.halted = false :=
        Bool.eq_false_of_not_eq_true fun hh => hrefused (sendRefused_iff.mpr (.inl hh))
      exact .sent cls id true accept now payload _ hh

theorem hostDoes_of_exec (hr : i ≠ .reset) (hf : i.form = .op .host ∨ ∃ p o b, i = .reserved p o b)
    (h : exec i s = .next t) : HostDoes s i t := by
  cases i with
  | push b => simp [Instr.form] at hf
  | tick now => simp [Instr.form] at hf
  | reset => exact absurd rfl hr
  | send cls id expect accept now payload => exact hostDoes_execSend cls id expect accept now payload h
  | register cls id ts =>
    cases h
    split
    case isTrue => exact .quiet _ _
    case isFalse hh => exact .registered cls id ts (Bool.eq_false_of_not_eq_true hh)
  | resolve cls id =>
    cases h
    split
    · exact .quiet _ _
    · exact .resolved cls id
  | sweep now limit =>
    cases h
    split
    case isTrue => exact .quiet _ _
    case isFalse hh => exact .swept now limit (Bool.eq_false_of_not_eq_true hh)
  | drainFailures => cases h; exact .drained _
  | drainFailed cls id => cases h; exact .drainedKey cls id _ _
  | clearFlags mask => cases h; exact .flagged mask _
  | powerOff => cases h; exact .poweredOff
  | nop | queryAwaited | queryFailed | readFix | readSv | readFlags | readStatus | readVersion | reserved =>
    cases h; exact .quiet _ _
  | leadSentence | leadBinary | leadOther | gpgga | gpgsa | gpvtg | gpgsv | sentenceOther | ackAck | ackNak | monVer
  | ackOther | monOther | cfgAny | classUnknown => simp [Instr.form] at hf

/-- An operation other than RESET is a PUSH, a TICK or a row of `HostDoes`. -/
theorem operation_does (hi : isOperation i = true) (hr : i ≠ .reset) (h : exec i s = .next t) :
    (∃ b, i = .push b ∧ t = answer .none (pushByte b s)) ∨ (∃ now, i = .tick now) ∨
    HostFrom s t ∧ HostDoes s i t := by
  rcases operation_cases hi h with ⟨b, rfl, -, rfl⟩ | ⟨now, rfl, -⟩ | ⟨rfl, -⟩ | ⟨-, hf, hh⟩
  · exact .inl ⟨b, rfl, rfl⟩
  · exact .inr (.inl ⟨now, rfl⟩)
  · exact absurd rfl hr
  · exact .inr (.inr ⟨hh, hostDoes_of_exec hr hf h⟩)

/-- `register` (R281) is to the fault registers what a sweep is: it raises the resource fault or nothing. -/
theorem sweptFrom_registerEntry (cls id : Byte) (ts : Word) (s : State) : SweptFrom s (registerEntry cls id ts s) := by
  rcases registerEntry_cases s cls id ts with ⟨-, e⟩ | ⟨-, e⟩ <;> rw [e]
  · exact sweptFrom_awaited s _
  · exact ⟨rfl, .inr ⟨rfl, rfl⟩, ⟨[], by simp⟩, fun h => h⟩

/-! ### Frames, and the instructions inside a TICK -/

/-- What a frame can do: a Ledger operation or nothing, new version strings, or the class fault. -/
inductive FrameTo (s : State) : State → Prop
  | ledger {t : State} (e : SweptFrom s t) : FrameTo s t
  | version {t : State} (v : Version) (e : SweptFrom { s with ver := v } t) : FrameTo s t
  | unknown (cls id : Byte) : FrameTo s (unknownClassFrame cls id s)

theorem frameTo_ackFrame (payload : Bytes) (s : State) : FrameTo s (ackFrame payload s) := by
  unfold ackFrame
  split
  · exact .ledger (sweptFrom_awaited s _)
  · exact .ledger (.refl s)

theorem frameTo_nakFrame (payload : Bytes) (s : State) : FrameTo s (nakFrame payload s) := by
  unfold nakFrame
  split
  · exact .ledger ((sweptFrom_failAdd s _ _ .nak).trans (sweptFrom_awaited _ _))
  · exact .ledger (.refl s)

theorem frameTo_dispatchFrame (cls id : Byte) (payload : Bytes) (s : State) :
    FrameTo s (dispatchFrame cls id payload s) := by
  unfold dispatchFrame
  cases frameKind s.cfg cls id with
  | ackAck => exact frameTo_ackFrame payload s
  | ackNak => exact frameTo_nakFrame payload s
  | monVer => exact .version _ (sweptFrom_awaited _ _)
  | ackOther | monOther | cfgAny => exact .ledger (.refl s)
  | classUnknown => exact .unknown cls id

/-- The instructions no port presents: lead bytes, sentences and frames. -/
theorem inner_cases (hi : isOperation i = false) (h : exec i s = .next t) :
    FramingFrom s t ∨ SentenceFrom s t ∨ FrameTo s t := by
  cases i with
  | leadSentence | leadBinary | leadOther => cases h; exact .inl ⟨rfl⟩
  | gpgga span => cases h; exact .inr (.inl (sentenceFrom_processPos span s))
  | gpvtg span => cases h; exact .inr (.inl (sentenceFrom_processSpdhdg span s))
  | gpgsv span => cases h; exact .inr (.inl (sentenceFrom_processSats span s))
  | gpgsa | sentenceOther => cases h; exact .inr (.inl ⟨rfl⟩)
  | ackAck payload => cases h; exact .inr (.inr (frameTo_ackFrame payload s))
  | ackNak payload => cases h; exact .inr (.inr (frameTo_nakFrame payload s))
  | monVer => cases h; exact .inr (.inr (.version _ (sweptFrom_awaited _ _)))
  | ackOther | monOther | cfgAny => cases h; exact .inr (.inr (.ledger (.refl s)))
  | classUnknown cls id => cases h; exact .inr (.inr (.unknown cls id))
  | nop | push | tick | send | register | resolve | sweep | drainFailures | drainFailed | queryAwaited | queryFailed
  | readFix | readSv | readFlags | clearFlags | readStatus | readVersion | powerOff | reset | reserved =>
    exact absurd hi.symm Bool.false_ne_true

end Sys2Proof.Machine

/-!
## Proofs: the fault registers

O53. A running block holds `NoFault`. From there the Ledger reaches `QueueFault` at most and an unknown class the class
fault, which the TICK it comes in ends in `Idle`; a halted block raises no second fault.
-/

namespace Sys2Proof.Machine

variable {s t : State} {i : Instr} {now : Word}

/-- The fault registers while no fault has been raised. -/
structure NoFault (s : State) : Prop where
  running : s.halted = false
  reg : s.faultReg = 0
  cls : s.faultClass = 0
  id : s.faultId = 0

/-- The fault registers of a block that a full queue halted. -/
structure QueueFault (s : State) : Prop where
  halted : s.halted = true
  reg : s.faultReg = FAULT_RESOURCE
  cls : s.faultClass = 0
  id : s.faultId = 0

theorem NoFault.faultOk (h : NoFault s) : FaultOk s where
  together := by simp [h.running, h.reg]
  single := by rw [h.reg]; decide
  unset _ := ⟨h.cls, h.id⟩
  idle he := absurd (h.reg.symm.trans he) (by decide)

theorem QueueFault.faultOk (h : QueueFault s) : FaultOk s where
  together := by simp [h.halted, h.reg, FAULT_RESOURCE]
  single := by rw [h.reg]; decide
  unset _ := ⟨h.cls, h.id⟩
  idle he := absurd (h.reg.symm.trans he) (by decide)

/-- R33: with the class fault the identity of the frame may be any, but the block is `Idle`. -/
theorem faultOk_of_class (hh : s.halted = true) (hr : s.faultReg = FAULT_CLASS) (hf : s.fsm = .idle)
    (ho : s.asm.payOwned = false) : FaultOk s where
  together := by simp [hh, hr, FAULT_CLASS]
  single := by rw [hr]; decide
  unset hne := absurd hr hne
  idle _ := ⟨hf, ho⟩

/-- Not halted is no fault bit (R32), and then no class recorded. -/
theorem FaultOk.noFault (h : FaultOk s) (hh : s.halted = false) : NoFault s := by
  have hreg : s.faultReg = 0 := by
    by_contra hne
    exact Bool.false_ne_true (hh.symm.trans (h.together.mpr hne))
  obtain ⟨hcls, hid⟩ := h.unset (by rw [hreg]; decide)
  exact ⟨hh, hreg, hcls, hid⟩

/-! ### TICK -/

theorem NoFault.of_framingFrom (h : NoFault s) (e : FramingFrom s t) : NoFault t := by
  rw [e.frame]; exact { h with }

theorem NoFault.of_sentenceFrom (h : NoFault s) (e : SentenceFrom s t) : NoFault t := by
  rw [e.frame]; exact { h with }

/-- The Ledger raises the resource fault or none. -/
theorem NoFault.swept (h : NoFault s) (e : SweptFrom s t) : NoFault t ∨ QueueFault t := by
  have hcls : t.faultClass = 0 := by rw [e.frame]; exact h.cls
  have hid : t.faultId = 0 := by rw [e.frame]; exact h.id
  rcases e.fault with ⟨hr, hh⟩ | ⟨hr, hh⟩
  · exact .inl ⟨hh.trans h.running, hr.trans h.reg, hcls, hid⟩
  · exact .inr ⟨hh, by rw [hr, h.reg]; rfl, hcls, hid⟩

theorem NoFault.faultOk_swept (h : NoFault s) (e : SweptFrom s t) : FaultOk t :=
  (h.swept e).elim NoFault.faultOk QueueFault.faultOk

theorem NoFault.swept_running (h : NoFault s) (e : SweptFrom s t) (hh : t.halted = false) : NoFault t :=
  (h.faultOk_swept e).noFault hh

theorem FaultOk.finishFrame (h : FaultOk s) : FaultOk (finishFrame s) := { h with idle := fun _ => ⟨rfl, rfl⟩ }

/-- The end of a frame (R164) puts the block into `Idle`, faulted or not. -/
theorem NoFault.finishFrame (h : NoFault s) (e : FrameTo s t) : FaultOk (finishFrame t) := by
  cases e with
  | ledger e => exact (h.faultOk_swept e).finishFrame
  | version v e =>
    have hver : NoFault { s with ver := v } := { h with }
    exact (hver.faultOk_swept e).finishFrame
  | unknown cls id =>
    have hreg : s.faultReg ||| FAULT_CLASS = FAULT_CLASS := by rw [h.reg]; rfl
    exact faultOk_of_class rfl hreg rfl rfl

theorem NoFault.tickTo (h : NoFault s) (ht : TickTo now s t) : FaultOk t := by
  have hswept := sweptFrom_ledgerSweep s now s.cfg.tResp
  cases ht with
  | idleHalted | idleEmpty => exact h.faultOk_swept hswept
  | idleByte b rest hf hh =>
    exact ((h.swept_running hswept hh).of_framingFrom (framingFrom_classifyLead now b _)).faultOk
  | starved => exact h.faultOk
  | lineFeed =>
    exact ((h.of_sentenceFrom (sentenceFrom_processSpan s.span s)).of_framingFrom ⟨rfl⟩).faultOk
  | headerDone bs =>
    exact ((h.of_framingFrom (framingFrom_consumed headerByte bs now s)).of_framingFrom
      (framingFrom_finishHeader _)).faultOk
  | payload bs =>
    exact ((h.of_framingFrom (framingFrom_consumed payloadByte bs now s)).of_framingFrom
      (framingFrom_finishPayload _)).faultOk
  | dispatch bs =>
    exact (h.of_framingFrom (framingFrom_consumed checksumByte bs now s)).finishFrame (frameTo_dispatchFrame ..)
  | timeout | sentence | dropped | noLF | sync2 | badSync | header | payloadEmpty | checksum | badChecksum | error =>
    exact (h.of_framingFrom ⟨rfl⟩).faultOk

/-! ### Host operations and the step -/

theorem FaultOk.of_answer (h : FaultOk s) (r : Result) : FaultOk (answer r s) := { h with }

/-- The rows that may raise a fault are guarded by the halt. -/
theorem FaultOk.hostDoes (h : FaultOk s) (hd : HostDoes s i t) : FaultOk t := by
  cases hd with
  | sent cls id expect accept now payload r hh =>
    exact ((h.noFault hh).faultOk_swept (sweptFrom_registerEntry cls id now s)).of_answer r
  | registered cls id ts hh =>
    exact ((h.noFault hh).faultOk_swept (sweptFrom_registerEntry cls id ts s)).of_answer _
  | swept now limit hh => exact ((h.noFault hh).faultOk_swept (sweptFrom_ledgerSweep s now limit)).of_answer _
  | quiet | resolved | drained | drainedKey | flagged | poweredOff => exact { h with }

/-- Settles O53: a fault is raised from `NoFault` only, by a TICK or by a guarded host operation; RESET returns there. -/
theorem stepKeepsSingleFault : Obligations.StepKeepsSingleFault := fun _ _ hP h =>
  step_keeps (P := FaultOk)
    (hin := fun _ _ h => { h with })
    (hans := fun _ r h => h.of_answer r)
    (hpush := fun _ _ h _ => { h with })
    (htick := fun _ _ _ h hh _ ht => (h.noFault hh).tickTo ht)
    (hreset := fun _ _ => NoFault.faultOk ⟨rfl, rfl, rfl, rfl⟩)
    (hhost := fun _ _ _ h hr hf hx _ => h.hostDoes (hostDoes_of_exec hr hf hx)) hP h

end Sys2Proof.Machine

/-!
## Proofs: who writes what

O48. `SameRing` is what a TICK leaves alone; for the host operations `HostFrom` is the frame of all of them together, and
the rows of `HostDoes` tell which of them writes each of the remaining elements.
-/

namespace Sys2Proof.Machine

variable {s t u : State} {i : Instr} {now : Word}

/-! ### The parameters, the ring and its write cursor -/

/-- Parameters, ring and write cursor stand in `t` as in `s`. -/
structure SameRing (s t : State) : Prop where
  cfg : t.cfg = s.cfg
  buf : t.buf = s.buf
  wr : t.wr = s.wr

theorem SameRing.refl (s : State) : SameRing s s := ⟨rfl, rfl, rfl⟩

theorem SameRing.trans (h : SameRing s t) (h' : SameRing t u) : SameRing s u :=
  ⟨h'.cfg.trans h.cfg, h'.buf.trans h.buf, h'.wr.trans h.wr⟩

theorem SameIntake.sameRing (h : SameIntake s t) : SameRing s t := ⟨h.cfg, h.buf, h.wr⟩

theorem FramingFrom.sameRing (h : FramingFrom s t) : SameRing s t := by constructor <;> rw [h.frame]

theorem TickTo.sameRing (h : TickTo now s t) : SameRing s t :=
  tickTo_keeps (P := SameRing s)
    (hframing := fun _ _ e hP => hP.trans e.sameRing)
    (hsweep := fun u now limit hP => hP.trans (sweptFrom_ledgerSweep u now limit).sameIntake.sameRing)
    (hspan := fun u span hP => hP.trans (sentenceFrom_processSpan span u).sameIntake.sameRing)
    (hframe := fun u cls id payload hP => hP.trans (frameFrom_dispatchFrame cls id payload u).sameIntake.sameRing)
    (.refl s) h

/-- A TICK reads the ring and does not write it (R336). -/
theorem sameRing_of_exec_tick (h : exec (.tick now) s = .next t) : SameRing s t := by
  have hans : SameRing s (answer .none s) := (sameIntake_answer .none s).sameRing
  rcases exec_tick_to h with ⟨-, rfl⟩ | ⟨-, -, ht⟩
  · exact hans
  · exact hans.trans ht.sameRing

theorem FrameTo.cfg_eq (h : FrameTo s t) : t.cfg = s.cfg := by
  cases h with
  | ledger e => exact e.sameIntake.cfg
  | version v e => exact e.sameIntake.cfg
  | unknown => rfl

/-- R7: no instruction writes the parameters. -/
theorem cfg_of_exec (h : exec i s = .next t) : t.cfg = s.cfg := by
  cases hi : isOperation i with
  | true =>
    rcases operation_cases hi h with ⟨b, -, -, rfl⟩ | ⟨now, rfl, hx⟩ | ⟨-, rfl⟩ | ⟨-, -, hh⟩
    · rfl
    · exact (sameRing_of_exec_tick hx).cfg
    · rfl
    · exact hh.sameIntake.cfg
  | false =>
    rcases inner_cases hi h with e | e | e
    · exact e.sameRing.cfg
    · exact e.sameIntake.cfg
    · exact e.cfg_eq

/-! ### The host operations -/

theorem registerEntry_failed (cls id : Byte) (ts : Word) (s : State) : (registerEntry cls id ts s).failed = s.failed := by
  rcases registerEntry_cases s cls id ts with ⟨-, e⟩ | ⟨-, e⟩ <;> simp [e]

theorem SweptFrom.newFlags (h : SweptFrom s t) : t.newFlags = s.newFlags := by rw [h.frame]

theorem HostDoes.writes_faults (h : HostDoes s i t) (hw : t.faultReg ≠ s.faultReg ∨ t.halted ≠ s.halted) :
    (∃ cls id expect accept now p, i = .send cls id expect accept now p) ∨
      (∃ cls id ts, i = .register cls id ts) ∨ ∃ now limit, i = .sweep now limit := by
  cases h with
  | sent => exact .inl ⟨_, _, _, _, _, _, rfl⟩
  | registered => exact .inr (.inl ⟨_, _, _, rfl⟩)
  | swept => exact .inr (.inr ⟨_, _, rfl⟩)
  | quiet | resolved | drained | drainedKey | flagged | poweredOff => exact (hw.elim (· rfl) (· rfl)).elim

theorem HostDoes.writes_fix (h : HostDoes s i t) (hw : t.fix ≠ s.fix) : i = .powerOff := by
  cases h with
  | poweredOff => rfl
  | sent | registered => exact absurd (sweptFrom_registerEntry ..).sameRecord.fix hw
  | swept now limit => exact absurd (sweptFrom_ledgerSweep s now limit).sameRecord.fix hw
  | quiet | resolved | drained | drainedKey | flagged => exact absurd rfl hw

theorem HostDoes.writes_newFlags (h : HostDoes s i t) (hw : t.newFlags ≠ s.newFlags) :
    ∃ mask, i = .clearFlags mask := by
  cases h with
  | flagged mask => exact ⟨mask, rfl⟩
  | sent | registered => exact absurd (sweptFrom_registerEntry ..).newFlags hw
  | swept now limit => exact absurd (sweptFrom_ledgerSweep s now limit).newFlags hw
  | quiet | resolved | drained | drainedKey | poweredOff => exact absurd rfl hw

theorem HostDoes.writes_awaited (h : HostDoes s i t) (hw : t.awaited ≠ s.awaited) :
    (∃ cls id expect accept now p, i = .send cls id expect accept now p) ∨ (∃ cls id ts, i = .register cls id ts) ∨
      (∃ cls id, i = .resolve cls id) ∨ ∃ now limit, i = .sweep now limit := by
  cases h with
  | sent => exact .inl ⟨_, _, _, _, _, _, rfl⟩
  | registered => exact .inr (.inl ⟨_, _, _, rfl⟩)
  | resolved => exact .inr (.inr (.inl ⟨_, _, rfl⟩))
  | swept => exact .inr (.inr (.inr ⟨_, _, rfl⟩))
  | quiet | drained | drainedKey | flagged | poweredOff => exact absurd rfl hw

theorem HostDoes.writes_failed (h : HostDoes s i t) (hw : t.failed ≠ s.failed) :
    (∃ now limit, i = .sweep now limit) ∨ i = .drainFailures ∨ ∃ cls id, i = .drainFailed cls id := by
  cases h with
  | swept => exact .inl ⟨_, _, rfl⟩
  | drained => exact .inr (.inl rfl)
  | drainedKey cls id => exact .inr (.inr ⟨cls, id, rfl⟩)
  | sent | registered => exact absurd (registerEntry_failed ..) hw
  | quiet | resolved | flagged | poweredOff => exact absurd rfl hw

/-! ### The obligation -/

/-- Settles O48: a PUSH writes the ring, a TICK everything but the ring, and a host operation what its row writes. -/
theorem stateIsWrittenByItsOwners : Obligations.StateIsWrittenByItsOwners := by
  refine ⟨fun i s t h => cfg_of_exec h, fun i s t hi hr h => ?_⟩
  rcases operation_does hi hr h with ⟨b, rfl, rfl⟩ | ⟨now, rfl⟩ | ⟨hframe, hrow⟩
  case inl => exact ⟨fun _ => ⟨b, rfl⟩, by simp, by simp, by simp, by simp, by simp, by simp⟩
  case inr.inl =>
    have hring := sameRing_of_exec_tick h
    exact ⟨fun hw => (hw.elim (· hring.buf) (· hring.wr)).elim, fun _ => ⟨now, rfl⟩, fun _ => .inl ⟨now, rfl⟩,
      fun _ => .inl ⟨now, rfl⟩, fun _ => .inl ⟨now, rfl⟩, fun _ => .inl ⟨now, rfl⟩, fun _ => .inl ⟨now, rfl⟩⟩
  case inr.inr =>
    have hring := hframe.sameIntake
    refine ⟨fun hw => (hw.elim (· hring.buf) (· hring.wr)).elim, ?tickOnly, fun hw => .inr (hrow.writes_faults hw),
      fun hw => .inr (hrow.writes_fix hw), fun hw => .inr (hrow.writes_newFlags hw),
      fun hw => .inr (hrow.writes_awaited hw), fun hw => .inr (hrow.writes_failed hw)⟩
    case tickOnly => rw [hframe.frame]; simp

end Sys2Proof.Machine

/-!
## Proofs: faults are sticky

O47: every part of an instruction other than RESET leaves the fault register alone or sets bits in it.
-/

namespace Sys2Proof.Machine

variable {s t u : State} {i : Instr} {now : Word}

/-- The fault register of `t` is that of `s`, perhaps with more bits set. -/
def FaultBitsAdded (s t : State) : Prop := ∃ bits, t.faultReg = s.faultReg ||| bits

theorem FaultBitsAdded.of_eq (h : t.faultReg = s.faultReg) : FaultBitsAdded s t :=
  ⟨0, by rw [h]; exact BitVec.or_zero.symm⟩

theorem FaultBitsAdded.trans (h : FaultBitsAdded s t) (h' : FaultBitsAdded t u) : FaultBitsAdded s u := by
  obtain ⟨bits, hst⟩ := h
  obtain ⟨bits', htu⟩ := h'
  exact ⟨bits ||| bits', by rw [htu, hst, BitVec.or_assoc]⟩

/-- Setting bits clears none. -/
theorem FaultBitsAdded.sticky (h : FaultBitsAdded s t) : s.faultReg &&& ~~~t.faultReg = 0 := by
  obtain ⟨bits, hst⟩ := h
  rw [hst, BitVec.not_or, ← BitVec.and_assoc, BitVec.and_not_self]
  exact BitVec.zero_and

theorem FramingFrom.faultBitsAdded (h : FramingFrom s t) : FaultBitsAdded s t := .of_eq (by rw [h.frame])

theorem SentenceFrom.faultBitsAdded (h : SentenceFrom s t) : FaultBitsAdded s t := .of_eq (by rw [h.frame])

theorem SweptFrom.faultBitsAdded (h : SweptFrom s t) : FaultBitsAdded s t := by
  rcases h.fault with ⟨e, -⟩ | ⟨e, -⟩
  · exact .of_eq e
  · exact ⟨_, e⟩

theorem FrameTo.faultBitsAdded (h : FrameTo s t) : FaultBitsAdded s t := by
  cases h with
  | ledger e => exact e.faultBitsAdded
  | version v e => exact e.faultBitsAdded
  | unknown => exact ⟨FAULT_CLASS, rfl⟩

theorem HostDoes.faultBitsAdded (h : HostDoes s i t) : FaultBitsAdded s t := by
  cases h with
  | sent cls id expect accept now => exact (sweptFrom_registerEntry cls id now s).faultBitsAdded
  | registered cls id ts => exact (sweptFrom_registerEntry cls id ts s).faultBitsAdded
  | swept now limit => exact (sweptFrom_ledgerSweep s now limit).faultBitsAdded
  | quiet | resolved | drained | drainedKey | flagged | poweredOff => exact .of_eq rfl

theorem TickTo.faultBitsAdded (h : TickTo now s t) : FaultBitsAdded s t :=
  tickTo_keeps (P := FaultBitsAdded s)
    (hframing := fun _ _ e hP => hP.trans e.faultBitsAdded)
    (hsweep := fun u now limit hP => hP.trans (sweptFrom_ledgerSweep u now limit).faultBitsAdded)
    (hspan := fun u span hP => hP.trans (sentenceFrom_processSpan span u).faultBitsAdded)
    (hframe := fun u cls id payload hP => hP.trans (frameTo_dispatchFrame cls id payload u).faultBitsAdded)
    (.of_eq rfl) h

theorem faultBitsAdded_of_exec (hr : i ≠ .reset) (h : exec i s = .next t) : FaultBitsAdded s t := by
  cases hi : isOperation i with
  | true =>
    rcases operation_does hi hr h with ⟨b, -, rfl⟩ | ⟨now, rfl⟩ | ⟨-, hrow⟩
    · exact .of_eq rfl
    · rcases exec_tick_to h with ⟨-, rfl⟩ | ⟨-, -, ht⟩
      · exact .of_eq rfl
      · exact ht.faultBitsAdded
    · exact hrow.faultBitsAdded
  | false =>
    rcases inner_cases hi h with e | e | e
    · exact e.faultBitsAdded
    · exact e.faultBitsAdded
    · exact e.faultBitsAdded

/-- Settles O47: the halt by `halted_of_exec`, the fault bits because an instruction at most adds to them. -/
theorem faultsAreSticky : Obligations.FaultsAreSticky := fun _ _ _ hr h =>
  ⟨fun hh => halted_of_exec hr hh h, (faultBitsAdded_of_exec hr h).sticky⟩

end Sys2Proof.Machine

/-!
## Proofs: the reset state

O49, the base case of the invariants O50 to O56 carry along: empty arrays, `Idle`, no fault, empty queues and record.
-/

namespace Sys2Proof.Machine

variable {c : Config}

/-- RESET in the reset state itself changes nothing. -/
theorem resetState_resetOf (c : Config) : resetState (State.resetOf c) = State.resetOf c := rfl

/-- R22, R60: the cursors are cell 0, which any ring of at least one cell has. -/
theorem ringOk_resetOf (hn : 0 < c.n) : RingOk (State.resetOf c) where
  buf_wf := Memory.wf_nil
  buf_within := fun _ hp => absurd hp List.not_mem_nil
  payload_wf := Memory.wf_nil
  payload_within := fun _ hp => absurd hp List.not_mem_nil
  wr_lt := hn
  sc_lt := hn
  ms_lt := hn

theorem sound_resetOf (hn : 0 < c.n) : Sound (State.resetOf c) where
  ring := ringOk_resetOf hn
  framing := framingOk_idle rfl rfl rfl rfl
  assembler := assemblerOk_of_quiet Framing.noConfusion Framing.noConfusion Framing.noConfusion
  fault := NoFault.faultOk ⟨rfl, rfl, rfl, rfl⟩
  tables := resetState_resetOf c ▸ TablesOk.resetState (State.resetOf c)

/-- R169: no message in the empty ring. -/
theorem closed_resetOf (c : Config) : Closed (State.resetOf c) := ⟨rfl, Framing.noConfusion, Framing.noConfusion⟩

/-- Settles O49: `Sound` part by part, an empty record, and cursors in order because no message is in the ring. -/
theorem resetStateIsSound : Obligations.ResetStateIsSound := fun c hn =>
  have hcursors : CursorsOk (State.resetOf c) := (closed_resetOf c).cursorsOk hn
  ⟨sound_resetOf hn, textOk_of_zero rfl, hcursors.order, hcursors.anchored⟩

end Sys2Proof.Machine
